-- ==== Sys2Proof/Word.lean ====
section
/-! DEFINITION. The bit-vector types of HUFFCORE, one per width of 00_scope.md rule R5. -/

namespace Sys2Proof

/-- A beat's data field and a character, DATA_W = CHAR_W = 8 bits (R5). -/
abbrev Byte := BitVec 8

/-- A symbol, SYM_W = 8 bits; every value is legal (R5, R89). -/
abbrev Symbol := BitVec 8

/-- A weight, CNT_W = 32 bits, unsigned (R5, R140). -/
abbrev Weight := BitVec 32

/-- A node id, NID_W = 9 bits (R5). -/
abbrev NodeId := BitVec 9

/-- A code length, LEN_W = 8 bits (R5). -/
abbrev CodeLen := BitVec 8

/-- The label bits of a code, LEN_MAX = 255 bits; bit j is p[j] of R10. -/
abbrev CodeBits := BitVec 255

/-- A command word, CMD_W = 32 bits (R5, R80). -/
abbrev CmdWord := BitVec 32

/-- A host-visible register, REG_W = 32 bits (R5, R40). -/
abbrev RegWord := BitVec 32

/-- An input position, POS_W = 32 bits, counted modulo 2^32 (R5, R35). -/
abbrev Position := BitVec 32

end Sys2Proof
end

