-- ==== Sys2Proof/Config.lean ====
section
/-! DEFINITION. What is fixed for this hardware: the parameters of 00_scope.md rule R5, and the free value. -/

namespace Sys2Proof

/-- SYM_W, the width of a symbol (R5). -/
abbrev Config.symW : Nat := 8

/-- K_MAX, the greatest number of distinct symbols and the size of every symbol table (R5). -/
abbrev Config.kMax : Nat := 256

/-- CNT_W, the width of a weight (R5). -/
abbrev Config.cntW : Nat := 32

/-- N_MAX = 2^CNT_W - 1, the greatest length of a BUILD input (R5). -/
abbrev Config.nMax : Nat := 4294967295

/-- NODE_MAX = 2*K_MAX - 1, the number of node slots (R5). -/
abbrev Config.nodeMax : Nat := 511

/-- NID_W, the width of a node id (R5). -/
abbrev Config.nidW : Nat := 9

/-- LEN_MAX = K_MAX - 1, the greatest code length (R5). -/
abbrev Config.lenMax : Nat := 255

/-- LEN_W, the width of a code length (R5). -/
abbrev Config.lenW : Nat := 8

/-- DATA_W, the width of a beat's data field (R5). -/
abbrev Config.dataW : Nat := 8

/-- CHAR_W, the width of one bit-string character (R5). -/
abbrev Config.charW : Nat := 8

/-- CH0, the character '0' (R5, R67). -/
abbrev Config.ch0 : Byte := 0x30#8

/-- CH1, the character '1' (R5, R67). -/
abbrev Config.ch1 : Byte := 0x31#8

/-- The constant of register 0, ID (R41). -/
abbrev Config.idWord : RegWord := 0x48554601#32

/-- The free value: draw number n of a value the spec leaves open.
It has no body, so no proof can find out what it is (logs 3, 4, 5 and 14). -/
opaque Config.freeValue (α : Type) [Inhabited α] (n : Nat) : α

end Sys2Proof
end

