-- ==== Sys2Proof/Syntax.lean ====
section
/-! DEFINITION. The commands, beats, result codes and script lines of 30_encoding.md and 60_exceptions.md. -/

namespace Sys2Proof

/-- The four commands (R84), one constructor per row of spec/opcode_table.json.
The command word holds no operand (R92): a command's operand is a frame on IN. -/
inductive Instr where
  | build    -- R110
  | encode   -- R170
  | decode   -- R185
  | codes    -- R205
  deriving DecidableEq, Repr, Inhabited

/-- Why a command word is none of the four (R82, R83). -/
inductive IllegalWord where
  /-- RSVD (bits 31:8) is not 0. -/
  | reservedBitsSet
  /-- RSVD is 0 and OPC is none of 0x01 to 0x04. -/
  | unknownOpcode
  deriving DecidableEq, Repr

/-- One transfer on IN or OUT: eos in bit 8, data in bits 7:0 (R85, R86). -/
structure Beat where
  eos  : Bool
  data : Byte
  deriving DecidableEq, Repr, Inhabited

/-- The six result codes of R220; codes 6 to 15 are never produced (U15). -/
inductive ResultCode where
  | ok
  | emptyInput
  | lookup
  | malformedInput
  | illegalCommand
  | capacity
  deriving DecidableEq, Repr, Inhabited

/-- A code (l, p): its length and its label bits, p[0] nearest the root (R10). -/
structure Code where
  len  : CodeLen
  bits : CodeBits
  deriving DecidableEq, Repr, Inhabited

/-- One line of the script notation (R94). -/
inductive ScriptLine where
  | build (s : List Symbol)
  | encode (s : List Symbol)
  | decode (s : List Byte)
  | codes
  | word (w : CmdWord)
  deriving DecidableEq, Repr

end Sys2Proof
end

