-- ==== Sys2Proof/WellFormed.lean ====
section
/-! DEFINITION. What makes a command, a command word, a beat and a code well formed. -/

namespace Sys2Proof

/-- A command has no operand in its word (R92), so each of the four is well formed. -/
def Instr.wellFormed : Instr → Bool
  | .build => true
  | .encode => true
  | .decode => true
  | .codes => true

/-- R80, R81: RSVD is 0 and OPC is one of 0x01 to 0x04. -/
def CmdWord.wellFormed (w : CmdWord) : Bool :=
  w.extractLsb' 8 24 == 0#24 && (w.extractLsb' 0 8 == 1#8 || w.extractLsb' 0 8 == 2#8 ||
    w.extractLsb' 0 8 == 3#8 || w.extractLsb' 0 8 == 4#8)

/-- R87: a response beat has eos = 1, bits 7:4 zero and one of the codes 0 to 5 in bits 3:0. -/
def Beat.wellFormedResponse (b : Beat) : Bool :=
  b.eos && b.data.extractLsb' 4 4 == 0#4 && decide ((b.data.extractLsb' 0 4).toNat ≤ 5)

/-- R90: a beat of ENCODE's result before the response is an item that holds '0' or '1'. -/
def Beat.wellFormedCharacter (b : Beat) : Bool :=
  !b.eos && (b.data == Config.ch0 || b.data == Config.ch1)

/-- R10: a stored code is not empty and its bits at and above its length are 0. -/
def Code.wellFormed (c : Code) : Bool :=
  c.len != 0#8 && c.bits >>> c.len.toNat == 0#255

end Sys2Proof
end

