-- ==== Sys2Proof/Decode.lean ====
section
/-! DEFINITION. Decoding and encoding a command word (30_encoding.md rules R80 to R83), the bits of a beat
(R85 to R87) and the assembly of a script line (R94). -/

namespace Sys2Proof

/-- OPC, bits 7:0 of a command word (R80). -/
def wordOpc (w : CmdWord) : BitVec 8 := w.extractLsb' 0 8

/-- RSVD, bits 31:8 of a command word (R80). -/
def wordRsvd (w : CmdWord) : BitVec 24 := w.extractLsb' 8 24

/-- The command an operation code names (R81). -/
def opcodeInstr (opc : BitVec 8) : Option Instr :=
  if opc = 0x01#8 then some .build
  else if opc = 0x02#8 then some .encode
  else if opc = 0x03#8 then some .decode
  else if opc = 0x04#8 then some .codes
  else none

/-- R82: every word is one of the four commands or illegal, and an illegal word says why.
The word is a 32-bit unit, moved whole, so no byte order enters (R68). -/
def decode (w : CmdWord) : Except IllegalWord Instr :=
  if wordRsvd w ≠ 0#24 then .error .reservedBitsSet
  else match opcodeInstr (wordOpc w) with
    | some i => .ok i
    | none => .error .unknownOpcode

/-- The operation code of a command (R81). -/
def instrOpc : Instr → BitVec 8
  | .build => 0x01#8
  | .encode => 0x02#8
  | .decode => 0x03#8
  | .codes => 0x04#8

/-- The command word of a command: RSVD = 0 above the operation code (R80, R81). -/
def encode (i : Instr) : CmdWord := 0#24 ++ instrOpc i

/-- One row of the opcode table of R81: the word matches when its masked bits equal the match value. -/
structure OpcodeRow where
  mask  : CmdWord
  value : CmdWord
  instr : Instr
  deriving DecidableEq, Repr

/-- R81: mask 0xFFFFFFFF, match value as in the table. -/
def opcodeTable : List OpcodeRow :=
  [⟨0xFFFFFFFF#32, 0x00000001#32, .build⟩, ⟨0xFFFFFFFF#32, 0x00000002#32, .encode⟩,
   ⟨0xFFFFFFFF#32, 0x00000003#32, .decode⟩, ⟨0xFFFFFFFF#32, 0x00000004#32, .codes⟩]

/-- The row of the table a word matches (R81). -/
def lookupRow (w : CmdWord) : Option OpcodeRow :=
  opcodeTable.find? fun r => w &&& r.mask = r.value

/-- The command word in a row of spec/opcode_table.json: nbits bits of w, the bits above them 0. -/
def tableWord (nbits w : Nat) : CmdWord := BitVec.ofNat 32 (w % 2 ^ nbits)

/-- What the decoder reads from an instruction numbered as spec/opcode_table.json numbers it. -/
def decodeTableWord (nbits w : Nat) : Option Instr :=
  match decode (tableWord nbits w) with
  | .ok i => some i
  | .error _ => none

/-- The 9 bits of a beat: eos above data (R85, R86). -/
def Beat.toBits (b : Beat) : BitVec 9 := BitVec.ofBool b.eos ++ b.data

/-- The beat of 9 bits (R85, R86). -/
def Beat.ofBits (v : BitVec 9) : Beat := ⟨v.getLsbD 8, v.extractLsb' 0 8⟩

/-- The 4-bit number of a result code (R220). -/
def ResultCode.code : ResultCode → BitVec 4
  | .ok => 0#4
  | .emptyInput => 1#4
  | .lookup => 2#4
  | .malformedInput => 3#4
  | .illegalCommand => 4#4
  | .capacity => 5#4

/-- The response beat of a result code: eos = 1, the code in bits 3:0, bits 7:4 zero (R87). -/
def responseBeat (c : ResultCode) : Beat := ⟨true, 0#4 ++ c.code⟩

/-- A beat that carries one item (R12: `item`). -/
def itemBeat (d : Byte) : Beat := ⟨false, d⟩

/-- The end-of-sequence beat the host sends; its data field should be 0 (R85). -/
def endBeat : Beat := ⟨true, 0#8⟩

/-- The frame of a sequence: its items in order, then the end-of-sequence beat (R66, R88). -/
def frame (s : List Byte) : List Beat := s.map itemBeat ++ [endBeat]

/-- R94: the command word a script line pushes on CMD. -/
def ScriptLine.cmdWord : ScriptLine → CmdWord
  | .build _ => Sys2Proof.encode .build
  | .encode _ => Sys2Proof.encode .encode
  | .decode _ => Sys2Proof.encode .decode
  | .codes => Sys2Proof.encode .codes
  | .word w => w

/-- R94: the beats a script line pushes on IN; CODES and a raw word push none. -/
def ScriptLine.beats : ScriptLine → List Beat
  | .build s => frame s
  | .encode s => frame s
  | .decode s => frame s
  | .codes => []
  | .word _ => []

end Sys2Proof
end

