-- ==== Sys2Proof/Machine/State.lean ====
section
/-! DEFINITION. The state of HUFFCORE (10_state.md), grouped as rule R51 groups it, the reasons the core can stop,
and the state after reset (R52, R250). -/

namespace Sys2Proof.Machine

/-- An entry of NODE, the tagged variant of R27: a leaf holds a symbol, an internal node its two children. -/
inductive Node where
  | leaf (sym : Symbol) (weight : Weight)
  | internal (weight : Weight) (left right : NodeId)
  deriving DecidableEq, Repr, Inhabited

/-- An entry of STACK: a node still to visit and the code of the path from the root to it (R29). -/
structure StackEntry where
  node : NodeId
  path : Code
  deriving DecidableEq, Repr, Inhabited

/-- An entry of REV: a code and the symbol stored under it (R31). -/
structure RevEntry where
  key : Code
  sym : Symbol
  deriving DecidableEq, Repr, Inhabited

/-- Mapping state (R30 to R33, R22): what survives between commands.
An absent entry of FWD holds no length and no bits (R30, U3). -/
structure Mapping where
  valid  : Bool
  fwd    : Vector (Option Code) 256
  rev    : List RevEntry
  nsym   : BitVec 9
  total  : Weight
  maxlen : CodeLen
  deriving DecidableEq, Repr, Inhabited

/-- Scratch state of BUILD (R23 to R29). -/
structure Scratch where
  freq  : Vector Weight 256
  seen  : Vector Bool 256
  order : Vector Symbol 256
  k     : BitVec 9
  cnt   : Weight
  ovf   : Bool
  node  : Vector Node 511
  inq   : Vector Bool 511
  nnode : BitVec 9
  root  : NodeId
  stack : Vector StackEntry 256
  sp    : BitVec 9
  deriving DecidableEq, Repr, Inhabited

/-- Engine state of ENCODE and DECODE (R34, R35), with the values ERRINFO' and ERRPOS' that R170 holds for its raise. -/
structure Engine where
  buf      : CodeBits
  buflen   : CodeLen
  poison   : Bool
  start    : Position
  pos      : Position
  failed   : Bool
  heldInfo : RegWord
  heldPos  : RegWord
  deriving DecidableEq, Repr, Inhabited

/-- Status state (R22, R36). ERR holds one of the six codes of R220, so its type has six values (U15). -/
structure Status where
  busy    : Bool
  op      : BitVec 8
  err     : ResultCode
  errInfo : RegWord
  errPos  : RegWord
  deriving DecidableEq, Repr, Inhabited

/-- The whole state: the three channels, oldest item first (R50), the four groups of R51, and the model's own
count of free values drawn (log 12). -/
structure State where
  cmd     : List CmdWord
  inp     : List Beat
  out     : List Beat
  mapping : Mapping
  scratch : Scratch
  engine  : Engine
  status  : Status
  draws   : Nat
  deriving DecidableEq, Repr, Inhabited

/-- Why the core stops. All three are raised by `step` only, never by a command. -/
inductive Fault where
  /-- BUSY = 0 and CMD is empty: the core has no step until the host pushes a word (R21, R270).
  Raised by step; safe, the hardware stands still too. -/
  | noCommand
  /-- BUSY = 1 and IN is empty: the command waits in pop(IN) until the host pushes (R263, U10).
  Raised by step; safe, the hardware stands still too. -/
  | waitingForInput
  /-- BUSY = 1 while OP names no command that takes input: no rule describes such a state and no run reaches it.
  Raised by step; safe. -/
  | busyWithoutInput
  deriving DecidableEq, Repr

/-- Why an instruction has no meaning. Every instruction has one, so none of these is ever answered. -/
inductive Refusal where
  /-- Raised by no arm of exec: kept for an instruction without a meaning. Safe. -/
  | notModelled (mnemonic : String)
  deriving DecidableEq, Repr

/-- The empty mapping (R32, R52, R111). -/
def Mapping.empty : Mapping :=
  { valid := false, fwd := Vector.replicate 256 none, rev := [], nsym := 0#9, total := 0#32, maxlen := 0#8 }

/-- The scratch state this model names for reset, where R52 says "unspecified": zero (log 1). -/
def Scratch.reset : Scratch :=
  { freq := Vector.replicate 256 0#32, seen := Vector.replicate 256 false, order := Vector.replicate 256 0#8
    k := 0#9, cnt := 0#32, ovf := false
    node := Vector.replicate 511 (.leaf 0#8 0#32), inq := Vector.replicate 511 false, nnode := 0#9, root := 0#9
    stack := Vector.replicate 256 ⟨0#9, ⟨0#8, 0#255⟩⟩, sp := 0#9 }

/-- The engine state this model names for reset, where R52 says "unspecified": zero (log 2). -/
def Engine.reset : Engine :=
  { buf := 0#255, buflen := 0#8, poison := false, start := 0#32, pos := 0#32, failed := false
    heldInfo := 0#32, heldPos := 0#32 }

/-- Status state after reset: BUSY, OP, ERR, ERRINFO, ERRPOS all 0 (R52). -/
def Status.reset : Status :=
  { busy := false, op := 0#8, err := .ok, errInfo := 0#32, errPos := 0#32 }

/-- The machine right after reset (R52, R250). -/
def State.reset : State :=
  { cmd := [], inp := [], out := [], mapping := Mapping.empty, scratch := Scratch.reset, engine := Engine.reset
    status := Status.reset, draws := 0 }

end Sys2Proof.Machine
end

