-- ==== Sys2Proof/Machine/Operands.lean ====
section
/-! DEFINITION. The operand and result forms of 30_encoding.md (R88 to R91), the codes of 00_scope.md rule R10,
and the lookups in FWD and REV (20_memory.md rules R61, R65). -/

namespace Sys2Proof.Machine

/-- The symbol an item of BUILD or ENCODE carries: all 8 bits of its data, no extension, no scaling (R89). -/
def symbolOf (d : Byte) : Symbol := d

/-- The entry of a symbol table that belongs to s; every symbol value is a legal index (R61). -/
def symIdx (s : Symbol) : Fin 256 := ⟨s.toNat, s.isLt⟩

/-- The bit an item of DECODE carries, none when it is neither '0' nor '1' (R67, R90). -/
def charBit (d : Byte) : Option Bool :=
  if d = Config.ch0 then some false
  else if d = Config.ch1 then some true
  else none

/-- The character of a bit: `chr` of R67. -/
def chr (b : Bool) : Byte := if b then Config.ch1 else Config.ch0

/-- The empty code, text "" (R10). -/
def Code.empty : Code := ⟨0#8, 0#255⟩

/-- Label j of a code (R10). -/
def codeBit (c : Code) (j : Nat) : Bool := c.bits.getLsbD j

/-- The labels of a code, the one nearest the root first (R10, R66). -/
def codeLabels (c : Code) : List Bool := (List.range c.len.toNat).map (codeBit c)

/-- The characters of a code in the order they are sent, p[0] first (R66). -/
def codeChars (c : Code) : List Byte := (codeLabels c).map chr

/-- The code one label longer: (l + 1, p with p[l] set to b), where p[l] is 0 before (R152, R185). -/
def codeSnoc (c : Code) (b : Bool) : Code :=
  ⟨c.len + 1#8, if b then c.bits ||| (1#255 <<< c.len.toNat) else c.bits⟩

/-- Code x is a prefix of code y (R10). -/
def codeIsPrefix (x y : Code) : Bool :=
  decide (x.len.toNat ≤ y.len.toNat) && (List.range x.len.toNat).all fun j => codeBit x j == codeBit y j

/-- FWD[s]: the code of a symbol, none when it is not present (R30). -/
def fwdLookup (m : Mapping) (s : Symbol) : Option Code := m.fwd.get (symIdx s)

/-- FWD[s] <- c (R154). -/
def fwdWrite (m : Mapping) (s : Symbol) (c : Code) : Mapping :=
  { m with fwd := m.fwd.set s.toNat (some c) s.isLt }

/-- The symbol stored under exactly the key c, in entries of REV (R65). -/
def revFind (c : Code) : List RevEntry → Option Symbol
  | [] => none
  | e :: rest => if e.key = c then some e.sym else revFind c rest

/-- REV(l, p): exact-key lookup, none for a key that is not stored (R31, R65). -/
def revLookup (m : Mapping) (c : Code) : Option Symbol := revFind c m.rev

/-- REV(l, p) <- s in a list of entries: the value under the key is replaced, a new key is added last (R154). -/
def revPut (c : Code) (s : Symbol) : List RevEntry → List RevEntry
  | [] => [⟨c, s⟩]
  | e :: rest => if e.key = c then ⟨c, s⟩ :: rest else e :: revPut c s rest

/-- REV(l, p) <- s (R154). -/
def revWrite (m : Mapping) (c : Code) (s : Symbol) : Mapping :=
  { m with rev := revPut c s m.rev }

/-- The record CODES sends for a present symbol: symbol, length, characters (R206). -/
def codeRecord (s : Symbol) (c : Code) : List Byte := s :: c.len :: codeChars c

/-- The records of the present entries in a tail of FWD that starts at symbol i, ascending (R205, R207). -/
def recordsFrom (i : Nat) : List (Option Code) → List Byte
  | [] => []
  | none :: rest => recordsFrom (i + 1) rest
  | some c :: rest => codeRecord (BitVec.ofNat 8 i) c ++ recordsFrom (i + 1) rest

/-- The items of CODES: a record per present symbol, ascending symbol value (R205 to R207). -/
def codesItems (m : Mapping) : List Byte := recordsFrom 0 m.fwd.toList

/-- The first frame in a list of beats, up to its end-of-sequence beat, and the beats behind it (R88).
None when no end-of-sequence beat has been pushed yet (R263). -/
def takeFrame : List Beat → Option (List Byte × List Beat)
  | [] => none
  | b :: rest =>
    if b.eos then some ([], rest)
    else (takeFrame rest).map fun p => (b.data :: p.1, p.2)

end Sys2Proof.Machine
end

