-- ==== Sys2Proof/Machine/Ops.lean ====
section
/-! DEFINITION. The named operations over the state: the groups, the channels (00_scope.md rule R12, 20_memory.md
rule R63), starting and ending a command (R82, R223, R224), the input loop, and what a command forgets (R51). -/

namespace Sys2Proof.Machine

/-- Writes the mapping state. -/
def State.setMapping (m : Mapping) (s : State) : State := { s with mapping := m }

/-- Writes the scratch state. -/
def State.setScratch (x : Scratch) (s : State) : State := { s with scratch := x }

/-- Writes the engine state. -/
def State.setEngine (e : Engine) (s : State) : State := { s with engine := e }

/-- Writes the status state. -/
def State.setStatus (t : Status) (s : State) : State := { s with status := t }

/-- Leaves these beats in IN: what pop(IN) has not taken. -/
def State.setInp (bs : List Beat) (s : State) : State := { s with inp := bs }

/-- Leaves these words in CMD: what pop(CMD) has not taken. -/
def State.setCmd (ws : List CmdWord) (s : State) : State := { s with cmd := ws }

/-- push(OUT, ·) for each beat in turn, behind what is there (R12, R63). -/
def State.pushOut (bs : List Beat) (s : State) : State := { s with out := s.out ++ bs }

/-- item(d) for each d in turn (R12). -/
def State.pushItems (ds : List Byte) (s : State) : State := s.pushOut (ds.map itemBeat)

/-- R82, R36: a word has been popped off CMD: BUSY <- 1, OP <- w[7:0]. -/
def State.acceptWord (w : CmdWord) (rest : List CmdWord) (s : State) : State :=
  (s.setCmd rest).setStatus { s.status with busy := true, op := wordOpc w }

/-- The end of every command: ERR, ERRINFO, ERRPOS are written and BUSY cleared, then the response beat is pushed
(R36, R87, R223, R224). -/
def State.endCommand (c : ResultCode) (info : RegWord) (pos : RegWord) (s : State) : State :=
  (s.setStatus { s.status with busy := false, err := c, errInfo := info, errPos := pos }).pushOut [responseBeat c]

/-- `respond OK` (R223). -/
def State.respondOk (s : State) : State := s.endCommand .ok 0#32 0#32

/-- Taking an exception, `raise E(info, pos)` (R224): no mode, vector, stack or saved address exists, the command is
over and the core goes on to the next word. There is no return to model (R233). -/
def State.raise (e : ResultCode) (info : RegWord) (pos : RegWord) (s : State) : State := s.endCommand e info pos

/-- One more free value has been drawn (log 12). -/
def State.draw (s : State) : State := { s with draws := s.draws + 1 }

/-- R51 (b): once a BUILD has ended, its scratch state has no specified value (log 3). -/
def State.forgetScratch (s : State) : State := (s.setScratch (Config.freeValue Scratch s.draws)).draw

/-- R51 (c): once an ENCODE or DECODE has ended, its engine state has no specified value (log 4). -/
def State.forgetEngine (s : State) : State := (s.setEngine (Config.freeValue Engine s.draws)).draw

/-- The input loop of BUILD, ENCODE and DECODE: pop(IN) until the end-of-sequence beat, the body run on each item's
data. Answers whether the end-of-sequence beat has been popped; when IN runs empty first, the command waits and what
it has done so far stands (R12, R63, R88, R263, log 7). The data of the end-of-sequence beat is ignored (R85). -/
def runFrame (body : Byte → State → State) : List Beat → State → Bool × State
  | [], s => (false, s.setInp [])
  | b :: rest, s =>
    if b.eos then (true, s.setInp rest) else runFrame body rest (body b.data s)

/-- `drain(IN)` looks at no item (R12). -/
def ignoreItem (_ : Byte) (s : State) : State := s

/-- Runs an input loop over what IN holds; the command ends with `finish` when its frame is complete, and otherwise
waits with BUSY = 1 (R263). -/
def overFrame (body : Byte → State → State) (finish : State → State) (s : State) : Host.Outcome State Fault Refusal :=
  let r := runFrame body s.inp s
  .next (if r.1 then finish r.2 else r.2)

end Sys2Proof.Machine
end

