-- ==== Sys2Proof/Machine/FrequencyCounter.lean ====
section
/-! DEFINITION. The Frequency Counter, phase 1 of BUILD (40_build.md rules R112, R113). -/

namespace Sys2Proof.Machine

/-- The first two lines of `count_frequencies()`: SEEN cleared, K, CNT and OVF 0 (R113). -/
def startCount (x : Scratch) : Scratch :=
  { x with seen := Vector.replicate 256 false, k := 0#9, cnt := 0#32, ovf := false }

/-- A symbol not seen before: SEEN, FREQ, ORDER and K (R113). -/
def countNew (s : Symbol) (x : Scratch) : Scratch :=
  { x with
    seen := x.seen.set s.toNat true s.isLt
    freq := x.freq.set s.toNat 1#32 s.isLt
    order := x.order.setIfInBounds x.k.toNat s
    k := x.k + 1#9 }

/-- A symbol seen before: its count goes up by one (R113). -/
def countAgain (s : Symbol) (x : Scratch) : Scratch :=
  { x with freq := x.freq.set s.toNat (x.freq.get (symIdx s) + 1#32) s.isLt }

/-- CNT <- CNT + 1 (R113). -/
def countOne (x : Scratch) : Scratch := { x with cnt := x.cnt + 1#32 }

/-- One item of the BUILD input: ignored once OVF is set, sets OVF when CNT = N_MAX, counted otherwise (R113). -/
def countItem (d : Byte) (x : Scratch) : Scratch :=
  if x.ovf then x
  else if x.cnt = BitVec.ofNat 32 Config.nMax then { x with ovf := true }
  else if x.seen.get (symIdx (symbolOf d)) then countOne (countAgain (symbolOf d) x)
  else countOne (countNew (symbolOf d) x)

/-- `count_frequencies()` over a whole sequence (R113). -/
def countFrequencies (items : List Byte) (x : Scratch) : Scratch :=
  items.foldl (fun y d => countItem d y) (startCount x)

end Sys2Proof.Machine
end

