-- ==== Sys2Proof/Machine/TreeBuilder.lean ====
section
/-! DEFINITION. The Tree Builder, phase 2 of BUILD (41_tree_builder.md). A read of a table at an index the same BUILD has
not written cannot happen (R62, R142); such a read is given a free value, never a value of the model's (log 14). -/

namespace Sys2Proof.Machine

/-- The weight of a node, either kind (R14, R27). -/
def Node.weight : Node → Weight
  | .leaf _ w => w
  | .internal w _ _ => w

/-- NODE[i] (R27, R62). -/
def nodeAt (x : Scratch) (i : NodeId) : Node := (x.node[i.toNat]?).getD (Config.freeValue Node i.toNat)

/-- w(n) = NODE[n].weight (R14). -/
def weightAt (x : Scratch) (i : NodeId) : Weight := (nodeAt x i).weight

/-- ORDER[i] (R25). -/
def orderAt (x : Scratch) (i : Nat) : Symbol := (x.order[i]?).getD (Config.freeValue Symbol i)

/-- key(a) < key(b): the lesser weight, and among equal weights the lesser id, both unsigned (R14). -/
def keyLt (x : Scratch) (a b : NodeId) : Bool :=
  decide (weightAt x a < weightAt x b) || (weightAt x a == weightAt x b && decide (a < b))

/-- The ids whose INQ bit is set, in a tail of INQ that starts at id i. -/
def membersFrom (i : Nat) : List Bool → List NodeId
  | [] => []
  | b :: rest => if b then BitVec.ofNat 9 i :: membersFrom (i + 1) rest else membersFrom (i + 1) rest

/-- PQ, the set of ids i with INQ[i] = 1, listed in the order of the ids (R132). -/
def members (x : Scratch) : List NodeId := membersFrom 0 x.inq.toList

/-- INQ[i] <- b (R28). -/
def setInq (i : NodeId) (b : Bool) (x : Scratch) : Scratch := { x with inq := x.inq.setIfInBounds i.toNat b }

/-- NODE[i] <- n (R27). -/
def setNode (i : NodeId) (n : Node) (x : Scratch) : Scratch := { x with node := x.node.setIfInBounds i.toNat n }

/-- Of a member and a list of members, the one with the least key (R133). -/
def leastOf (x : Scratch) : NodeId → List NodeId → NodeId
  | m, [] => m
  | m, a :: rest => leastOf x (if keyLt x a m then a else m) rest

/-- The member of PQ with the least key, none when PQ is empty (R133, R143). -/
def leastMember (x : Scratch) : Option NodeId :=
  match members x with
  | [] => none
  | m :: rest => some (leastOf x m rest)

/-- `extract_min()` (R133): the least member, and the state with its INQ bit cleared. -/
def extractMin (x : Scratch) : Option (NodeId × Scratch) :=
  (leastMember x).map fun m => (m, setInq m false x)

/-- A node takes id NNODE and enters PQ; NNODE counts it (R131, R135). -/
def insertNode (n : Node) (x : Scratch) : Scratch :=
  let y := setInq x.nnode true (setNode x.nnode n x)
  { y with nnode := y.nnode + 1#9 }

/-- One pass of the merge loop: two extractions, the first the left child, the second the right (R134 to R136).
None when PQ holds fewer than two members. -/
def mergeOnce (x : Scratch) : Option Scratch :=
  (extractMin x).bind fun a =>
    (extractMin a.2).map fun b =>
      insertNode (.internal (weightAt x a.1 + weightAt x b.1) a.1 b.1) b.2

/-- `while |PQ| > 1` of R134, for at most `n` passes. -/
def mergeLoop : Nat → Scratch → Scratch
  | 0, x => x
  | n + 1, x =>
    match mergeOnce x with
    | none => x
    | some y => mergeLoop n y

/-- The leaf of the i-th distinct symbol (R131). -/
def leafAt (x : Scratch) (i : Nat) : Node := .leaf (orderAt x i) (x.freq.get (symIdx (orderAt x i)))

/-- Leaf creation for the ids i, i + 1, ..., i + n - 1 (R131). -/
def insertLeaves : Nat → Nat → Scratch → Scratch
  | 0, _, x => x
  | n + 1, i, x => insertLeaves n (i + 1) (insertNode (leafAt x i) x)

/-- `build_tree()` (R134): INQ cleared, the leaves, the merges, and the one member left as ROOT (R137).
K - 1 passes suffice, so K_MAX - 1 always do (R134, log 14). -/
def buildTree (x : Scratch) : Scratch :=
  let cleared := { x with inq := Vector.replicate 511 false, nnode := 0#9 }
  let merged := mergeLoop (Config.kMax - 1) (insertLeaves x.k.toNat 0 cleared)
  match leastMember merged with
  | none => merged
  | some r => { merged with root := r }

end Sys2Proof.Machine
end

