-- ==== Sys2Proof/Machine/CodeGenerator.lean ====
section
/-! DEFINITION. The Code Generator, phase 3 of BUILD (42_code_generator.md). -/

namespace Sys2Proof.Machine

/-- The code "0" of a leaf at the root: (l, p) = (1, 0) (R153). -/
def loneCode : Code := ⟨1#8, 0#255⟩

/-- `assign(s, l, p)`: FWD, REV and MAXLEN (R154). -/
def assignCode (s : Symbol) (c : Code) (m : Mapping) : Mapping :=
  let w := revWrite (fwdWrite m s c) c s
  if m.maxlen < c.len then { w with maxlen := c.len } else w

/-- `push_stack(n, l, p)` (R152). -/
def pushStack (e : StackEntry) (x : Scratch) : Scratch :=
  { x with stack := x.stack.setIfInBounds x.sp.toNat e, sp := x.sp + 1#9 }

/-- The entry under SP, what `pop_stack()` returns (R152). -/
def topEntry (x : Scratch) : StackEntry :=
  (x.stack[(x.sp - 1#9).toNat]?).getD (Config.freeValue StackEntry x.sp.toNat)

/-- `pop_stack()`: SP <- SP - 1 (R152). -/
def popStack (x : Scratch) : Scratch := { x with sp := x.sp - 1#9 }

/-- One visit: a leaf is assigned its path, an internal node's children are pushed, right first (R151, R152). -/
def visitTop (x : Scratch) (m : Mapping) : Scratch × Mapping :=
  let e := topEntry x
  let y := popStack x
  match nodeAt x e.node with
  | .leaf s _ => (y, assignCode s e.path m)
  | .internal _ l r => (pushStack ⟨l, codeSnoc e.path false⟩ (pushStack ⟨r, codeSnoc e.path true⟩ y), m)

/-- `while SP > 0` of R152, for at most `n` visits. -/
def visitLoop : Nat → Scratch → Mapping → Scratch × Mapping
  | 0, x, m => (x, m)
  | n + 1, x, m =>
    if x.sp = 0#9 then (x, m)
    else
      let r := visitTop x m
      visitLoop n r.1 r.2

/-- `generate_codes()` (R152): every node is visited once, so NODE_MAX visits suffice (R142, R268, log 14). -/
def generateCodes (x : Scratch) (m : Mapping) : Scratch × Mapping :=
  let cleared := { m with maxlen := 0#8 }
  match nodeAt x x.root with
  | .leaf s _ => (x, assignCode s loneCode cleared)
  | .internal _ _ _ =>
    visitLoop Config.nodeMax (pushStack ⟨x.root, Code.empty⟩ { x with sp := 0#9 }) cleared

end Sys2Proof.Machine
end

