-- ==== Sys2Proof/Machine/Build.lean ====
section
/-! DEFINITION. BUILD (40_build.md rule R110). -/

namespace Sys2Proof.Machine

/-- `commit()`: NSYM <- K, TOTAL <- NODE[ROOT].weight, VALID <- 1 (R116). -/
def commitMapping (x : Scratch) (m : Mapping) : Mapping :=
  { m with nsym := x.k, total := weightAt x x.root, valid := true }

/-- Phases 2 and 3 and the commit, after a count that is neither empty nor too long (R110). -/
def buildMapping (s : State) : State :=
  let tree := buildTree s.scratch
  let r := generateCodes tree s.mapping
  (s.setScratch r.1).setMapping (commitMapping r.1 r.2)

/-- R110 from the end of the count on: CapacityError (R114), EmptyInputError (R115), or the mapping and OK. -/
def endBuild (s : State) : State :=
  if s.scratch.ovf then s.raise .capacity 0#32 0#32
  else if s.scratch.cnt = 0#32 then s.raise .emptyInput 0#32 0#32
  else (buildMapping s).respondOk

/-- One item of BUILD's frame (R113). -/
def buildItem (d : Byte) (s : State) : State := s.setScratch (countItem d s.scratch)

/-- The end of BUILD, after which the scratch state has no value (R51). -/
def finishBuild (s : State) : State := (endBuild s).forgetScratch

/-- BUILD from its input loop on: where a waiting BUILD goes on, too (R113, R263). -/
def continueBuild (s : State) : Host.Outcome State Fault Refusal := overFrame buildItem finishBuild s

/-- The start of BUILD: `clear_mapping()` (R111) and the first lines of the count (R113). -/
def startBuild (s : State) : State := (s.setMapping Mapping.empty).setScratch (startCount s.scratch)

/-- BUILD (R110). -/
def execBuild (s : State) : Host.Outcome State Fault Refusal := continueBuild (startBuild s)

end Sys2Proof.Machine
end

