-- ==== Sys2Proof/Machine/Codes.lean ====
section
/-! DEFINITION. CODES (45_codes.md rule R205) and the illegal command word (30_encoding.md rule R83). -/

namespace Sys2Proof.Machine

/-- CODES: the records of the mapping, then OK; always, also for the empty mapping (R205, R208). -/
def execCodes (s : State) : Host.Outcome State Fault Refusal :=
  .next (s.pushItems (codesItems s.mapping)).respondOk

/-- An illegal word w: pops nothing, pushes no item, IllegalCommandError(w, 0) (R83, R226). -/
def execIllegal (w : CmdWord) (s : State) : Host.Outcome State Fault Refusal :=
  .next (s.raise .illegalCommand w 0#32)

end Sys2Proof.Machine
end

