-- ==== Sys2Proof/Machine/Encode.lean ====
section
/-! DEFINITION. ENCODE (43_encode.md rule R170). -/

namespace Sys2Proof.Machine

/-- POS <- POS + 1, modulo 2^32 (R35, R176). -/
def advancePos (s : State) : State := s.setEngine { s.engine with pos := s.engine.pos + 1#32 }

/-- The first absent symbol: FAILED, and the symbol and its index held for the raise (R173). -/
def noteAbsent (sym : Symbol) (s : State) : State :=
  s.setEngine { s.engine with failed := true, heldInfo := sym.setWidth 32, heldPos := s.engine.pos }

/-- What ENCODE does with a symbol before POS advances (R170): nothing once it has failed, the characters of its code
when it is present, the failure when it is absent. -/
def encodeSymbol (sym : Symbol) (s : State) : State :=
  if s.engine.failed then s
  else match fwdLookup s.mapping sym with
    | none => noteAbsent sym s
    | some c => s.pushItems (codeChars c)

/-- One item of ENCODE's frame (R170). -/
def encodeItem (d : Byte) (s : State) : State := advancePos (encodeSymbol (symbolOf d) s)

/-- The result of ENCODE once its frame is complete: LookupError or OK (R170, R173). -/
def endEncode (s : State) : State :=
  if s.engine.failed then s.raise .lookup s.engine.heldInfo s.engine.heldPos else s.respondOk

/-- The end of ENCODE, after which the engine state has no value (R51). -/
def finishEncode (s : State) : State := (endEncode s).forgetEngine

/-- The refusal of ENCODE and DECODE without a mapping (R172, R187). -/
def refuseEmpty (s : State) : State := s.raise .emptyInput 0#32 0#32

/-- ENCODE from its input loop on: where a waiting ENCODE goes on, too (R170, R172, R263). -/
def continueEncode (s : State) : Host.Outcome State Fault Refusal :=
  if s.mapping.valid then overFrame encodeItem finishEncode s
  else overFrame ignoreItem refuseEmpty s

/-- POS <- 0, FAILED <- 0, unless ENCODE refuses (R170). -/
def startEncode (s : State) : State :=
  if s.mapping.valid then s.setEngine { s.engine with pos := 0#32, failed := false } else s

/-- ENCODE (R170). -/
def execEncode (s : State) : Host.Outcome State Fault Refusal := continueEncode (startEncode s)

end Sys2Proof.Machine
end

