-- ==== Sys2Proof/Machine/DecodeCommand.lean ====
section
/-! DEFINITION. DECODE (44_decode.md rule R185). -/

namespace Sys2Proof.Machine

/-- The candidate: the pair (BUFLEN, BUF) as a code (R34). -/
def candidate (e : Engine) : Code := ⟨e.buflen, e.buf⟩

/-- Writes the candidate (R34). -/
def setCandidate (c : Code) (e : Engine) : Engine := { e with buflen := c.len, buf := c.bits }

/-- POISON <- 1 (R190, R191). -/
def setPoison (s : State) : State := s.setEngine { s.engine with poison := true }

/-- A hit: the symbol is pushed, the buffer emptied, START <- POS + 1 (R185, R188). -/
def emitMatch (sym : Symbol) (s : State) : State :=
  (s.pushItems [sym]).setEngine
    { setCandidate Code.empty s.engine with start := s.engine.pos + 1#32 }

/-- A bit is appended and the whole candidate looked up with its exact length (R188). -/
def appendBit (b : Bool) (s : State) : State :=
  let t := s.setEngine (setCandidate (codeSnoc (candidate s.engine) b) s.engine)
  match revLookup t.mapping (candidate t.engine) with
  | none => t
  | some sym => emitMatch sym t

/-- What DECODE does with a character before POS advances (R185): nothing once poisoned, poison on a character that
is no bit (R190) or a bit beyond the longest code (R191), otherwise the append. -/
def decodeChar (d : Byte) (s : State) : State :=
  if s.engine.poison then s
  else match charBit d with
    | none => setPoison s
    | some b => if s.engine.buflen = s.mapping.maxlen then setPoison s else appendBit b s

/-- One item of DECODE's frame (R185). -/
def decodeItem (d : Byte) (s : State) : State := advancePos (decodeChar d s)

/-- The result of DECODE once its frame is complete: MalformedInputError at START, or OK (R185, R189). -/
def endDecode (s : State) : State :=
  if s.engine.poison || s.engine.buflen != 0#8 then s.raise .malformedInput 0#32 s.engine.start else s.respondOk

/-- The end of DECODE, after which the engine state has no value (R51). -/
def finishDecode (s : State) : State := (endDecode s).forgetEngine

/-- DECODE from its input loop on: where a waiting DECODE goes on, too (R185, R187, R263). -/
def continueDecode (s : State) : Host.Outcome State Fault Refusal :=
  if s.mapping.valid then overFrame decodeItem finishDecode s
  else overFrame ignoreItem refuseEmpty s

/-- BUFLEN, BUF, POISON, START and POS <- 0, unless DECODE refuses (R185). -/
def startDecode (s : State) : State :=
  if s.mapping.valid then
    s.setEngine { s.engine with buf := 0#255, buflen := 0#8, poison := false, start := 0#32, pos := 0#32 }
  else s

/-- DECODE (R185). -/
def execDecode (s : State) : Host.Outcome State Fault Refusal := continueDecode (startDecode s)

end Sys2Proof.Machine
end

