-- ==== Sys2Proof/Machine/Sequencer.lean ====
section
/-! DEFINITION. The sequencer of 10_state.md rule R21: taking the next command word, and going on with a command that
waits for input. Step.lean only calls it. -/

namespace Sys2Proof.Machine

/-- R82: a popped word is one of the four commands, or illegal (R83). -/
def runWord (w : CmdWord) (s : State) : Host.Outcome State Fault Refusal :=
  match decode w with
  | .ok i => exec i s
  | .error _ => execIllegal w s

/-- R21: with BUSY = 0 the oldest word is popped and run; with none there the core stands still. -/
def startNext (s : State) : Host.Outcome State Fault Refusal :=
  match s.cmd with
  | [] => .fault .noCommand
  | w :: rest => runWord w (s.acceptWord w rest)

/-- Goes on with the command that OP names and that waits in pop(IN) (R21, R263). CODES never waits. -/
def continueCommand (s : State) : Host.Outcome State Fault Refusal :=
  match opcodeInstr s.status.op with
  | some .build => continueBuild s
  | some .encode => continueEncode s
  | some .decode => continueDecode s
  | some .codes => .fault .busyWithoutInput
  | none => .fault .busyWithoutInput

/-- R263: with BUSY = 1 the command waits until IN holds a beat. -/
def resume (s : State) : Host.Outcome State Fault Refusal :=
  match s.inp with
  | [] => .fault .waitingForInput
  | _ :: _ => continueCommand s

/-- The core's move (R21). -/
def coreStep (s : State) : Host.Outcome State Fault Refusal :=
  if s.status.busy then resume s else startNext s

end Sys2Proof.Machine
end

