-- ==== Sys2Proof/Machine/Step.lean ====
section
/-! DEFINITION. One step of the core, and the placing of a command word where the next step takes it from. -/

namespace Sys2Proof.Machine

/-- One step of the core: it takes the next command word and runs its command as far as IN allows (00_scope.md R7,
10_state.md R21), or goes on with the command that waits for input (R263). -/
def step : State → Host.Outcome State Fault Refusal := coreStep

/-- The state with a word of spec/opcode_table.json first in CMD and BUSY = 0, so that the very next step takes it.
The core fetches from no memory (R21): this stands for the host's push on CMD (log 10). -/
def State.withFetchWord (s : State) (nbits w : Nat) : State :=
  { s with cmd := tableWord nbits w :: s.cmd, status := { s.status with busy := false } }

end Sys2Proof.Machine
end

