-- ==== Sys2Proof/Machine/Flags.lean ====
section
/-! DEFINITION. The flags and the register words built from them (10_state.md rules R22, R40 to R48).
The block has no arithmetic condition code (R22). -/

namespace Sys2Proof.Machine

/-- STATUS: BUSY in bit 0, VALID in bit 1, ERR in bits 11:8, OP in bits 23:16, every other bit 0 (R43). -/
def statusWord (busy valid : Bool) (err : BitVec 4) (op : BitVec 8) : RegWord :=
  0#8 ++ op ++ 0#4 ++ err ++ 0#6 ++ BitVec.ofBool valid ++ BitVec.ofBool busy

/-- PARAM: SYM_W in bits 7:0, CNT_W in bits 15:8, K_MAX in bits 31:16 (R42). -/
def paramWord : RegWord :=
  BitVec.ofNat 16 Config.kMax ++ BitVec.ofNat 8 Config.cntW ++ BitVec.ofNat 8 Config.symW

/-- NSYM: bits 8:0, the rest 0 (R46). -/
def nsymWord (n : BitVec 9) : RegWord := 0#23 ++ n

/-- MAXLEN: bits 7:0, the rest 0 (R48). -/
def maxlenWord (l : CodeLen) : RegWord := 0#24 ++ l

/-- While a command runs a register field other than BUSY and OP reads as any value (R260); otherwise it reads as it is. -/
def whileIdle {α : Type} [Inhabited α] (s : State) (value : α) : α :=
  if s.status.busy then Config.freeValue α s.draws else value

/-- `RegRead(n)` (R40 to R48, R260). It changes no state; the number has 3 bits, so there is no other register (R49). -/
def regRead (n : BitVec 3) (s : State) : RegWord :=
  if n = 0#3 then Config.idWord
  else if n = 1#3 then paramWord
  else if n = 2#3 then
    statusWord s.status.busy (whileIdle s s.mapping.valid) (whileIdle s s.status.err.code) s.status.op
  else if n = 3#3 then whileIdle s s.status.errInfo
  else if n = 4#3 then whileIdle s s.status.errPos
  else if n = 5#3 then nsymWord (whileIdle s s.mapping.nsym)
  else if n = 6#3 then whileIdle s s.mapping.total
  else maxlenWord (whileIdle s s.mapping.maxlen)

end Sys2Proof.Machine
end

