-- ==== Sys2Proof/Machine/HostPort.lean ====
section
/-! DEFINITION. What the host can do to the block between two steps of the core (70_reset_and_hazards.md rule R270). -/

namespace Sys2Proof.Machine

/-- The host pushes a command word on CMD (R50, R63). -/
def State.pushCmd (w : CmdWord) (s : State) : State := s.setCmd (s.cmd ++ [w])

/-- The host pushes beats on IN, the first one first (R50, R63). -/
def State.pushIn (bs : List Beat) (s : State) : State := s.setInp (s.inp ++ bs)

/-- The host pops the oldest beat off OUT; none when OUT is empty, and then it has to wait (R63). -/
def State.popOut (s : State) : Option (Beat × State) :=
  match s.out with
  | [] => none
  | b :: rest => some (b, { s with out := rest })

/-- The host reads register n: the value of R40 to R48, a fresh draw for each read made while BUSY = 1 (R260, U4).
No piece of the block's state changes (R40, R70). -/
def State.hostRead (n : BitVec 3) (s : State) : RegWord × State :=
  (regRead n s, if s.status.busy then s.draw else s)

/-- The host asserts reset, at any time: a command in progress is abandoned without a response beat and the contents
of the channels are lost (R250, R252). Draws already made are not made again (log 16). -/
def State.assertReset (s : State) : State := { State.reset with draws := s.draws }

/-- The host pushes one line of a script: its word on CMD and its frame on IN (R94). -/
def State.pushLine (l : ScriptLine) (s : State) : State := (s.pushCmd l.cmdWord).pushIn l.beats

/-- The end of a run (R269): CMD and IN are empty, BUSY = 0, and the host has popped the response beat of every word it
pushed, so OUT, whose last beat is a response, is empty. -/
def State.runEnded (s : State) : Bool :=
  s.cmd.isEmpty && s.inp.isEmpty && s.out.isEmpty && !s.status.busy

end Sys2Proof.Machine
end

