-- ==== Sys2Proof/Machine/Reference.lean ====
section
/-! DEFINITION. The same results said without tables, ids or a stack, as R112, R130, R150 and R155 word them: counts of a
sequence, a Huffman tree as a tree, codes as paths. Claims compare the machine with these; the machine never calls them. -/

namespace Sys2Proof.Machine

/-- The distinct symbols of a sequence in first-occurrence order, those already seen left out (R112). -/
def newSymbols (seen : List Symbol) : List Symbol → List Symbol
  | [] => []
  | s :: rest => if s ∈ seen then newSymbols seen rest else s :: newSymbols (s :: seen) rest

/-- The distinct symbols of a sequence in first-occurrence order (R112). -/
def distinctSymbols (items : List Symbol) : List Symbol := newSymbols [] items

/-- A Huffman tree: its leaves are symbols with their counts (R130). -/
inductive HuffTree where
  | leaf (sym : Symbol) (count : Nat)
  | node (left right : HuffTree)
  deriving DecidableEq, Repr

/-- A leaf weighs its count, a node the sum of its children (R141). -/
def HuffTree.weight : HuffTree → Nat
  | .leaf _ n => n
  | .node l r => l.weight + r.weight

/-- A tree waiting to be merged, with its insertion index (R131, R135). -/
structure Ranked where
  index : Nat
  tree  : HuffTree
  deriving DecidableEq, Repr

/-- Ordered by weight, then by insertion index (R14). -/
def Ranked.before (a b : Ranked) : Bool :=
  decide (a.tree.weight < b.tree.weight) || (a.tree.weight == b.tree.weight && decide (a.index < b.index))

/-- A tree put in its place in a list in key order (R132). -/
def insertRanked (t : Ranked) : List Ranked → List Ranked
  | [] => [t]
  | a :: rest => if t.before a then t :: a :: rest else a :: insertRanked t rest

/-- Merging the first two of a list in key order, the first one left, until one tree is left (R130).
`next` is the insertion index of the next merged tree (R135); `n` bounds the passes. -/
def mergeRanked : Nat → Nat → List Ranked → List Ranked
  | n + 1, next, a :: b :: rest => mergeRanked n (next + 1) (insertRanked ⟨next, .node a.tree b.tree⟩ rest)
  | _, _, ts => ts

/-- One leaf per distinct symbol, its weight the symbol's count, in key order (R131). -/
def rankedLeaves (items : List Symbol) : List Ranked :=
  (distinctSymbols items).zipIdx.foldl (fun ts p => insertRanked ⟨p.2, .leaf p.1 (items.count p.1)⟩ ts) []

/-- The Huffman tree of a sequence, none for the empty one (R130, R139). -/
def huffTree (items : List Symbol) : Option HuffTree :=
  let k := (distinctSymbols items).length
  (mergeRanked k k (rankedLeaves items)).head?.map Ranked.tree

/-- The leaves below a tree, each with its path: left is 0, right is 1 (R151, R155). -/
def HuffTree.paths (path : List Bool) : HuffTree → List (Symbol × List Bool)
  | .leaf s _ => [(s, path)]
  | .node l r => l.paths (path ++ [false]) ++ r.paths (path ++ [true])

/-- The codes of a tree: the paths from the root, and "0" for a leaf at the root (R150, R153, R155). -/
def HuffTree.codes : HuffTree → List (Symbol × List Bool)
  | .leaf s _ => [(s, [false])]
  | .node l r => (HuffTree.node l r).paths []

/-- The codes of a sequence (R150). -/
def huffCodes (items : List Symbol) : List (Symbol × List Bool) :=
  match huffTree items with
  | none => []
  | some t => t.codes

/-- The labels of the code a mapping gives a symbol (R10, R30). -/
def fwdLabels (m : Mapping) (s : Symbol) : Option (List Bool) := (fwdLookup m s).map codeLabels

/-- The characters of the code a mapping gives a symbol; none of them when it has no code (R170). -/
def symbolChars (m : Mapping) (s : Symbol) : List Byte := ((fwdLookup m s).map codeChars).getD []

/-- The concatenation of the codes of a sequence, in sequence order (R170). -/
def encodedChars (m : Mapping) (items : List Symbol) : List Byte := items.flatMap (symbolChars m)

/-- All symbols in ascending order (R207). -/
def allSymbols : List Symbol := (List.range 256).map (BitVec.ofNat 8)

/-- The symbols that have a code, ascending (R33, R207). -/
def presentSymbols (m : Mapping) : List Symbol := allSymbols.filter fun s => (fwdLookup m s).isSome

end Sys2Proof.Machine
end

