-- ==== Sys2Proof/Safety.lean ====
section
/-! DEFINITION. The invariants claims rest on: the mapping invariant of 10_state.md rule R32, what a waiting command
holds, what OUT holds; the states that can be reached; and when two states look the same to every later command. -/

namespace Sys2Proof.Machine

/-- R32, R33: FWD and REV are exact inverses, the codes are prefix-free and not empty, VALID = 0 exactly when the mapping
is empty, NSYM counts the present entries, MAXLEN is the greatest length, and all three are 0 when VALID = 0. -/
structure MappingOk (m : Mapping) : Prop where
  codesWellFormed : ∀ s c, fwdLookup m s = some c → Code.wellFormed c = true
  inverse : ∀ s c, revLookup m c = some s ↔ fwdLookup m s = some c
  prefixFree : ∀ s t c d, fwdLookup m s = some c → fwdLookup m t = some d → s ≠ t → codeIsPrefix c d = false
  validIffPresent : m.valid = true ↔ ∃ s, (fwdLookup m s).isSome = true
  nsymCounts : m.nsym.toNat = (presentSymbols m).length
  revSize : m.rev.length = m.nsym.toNat
  maxlenBounds : ∀ s c, fwdLookup m s = some c → c.len ≤ m.maxlen
  maxlenReached : m.valid = true → ∃ s c, fwdLookup m s = some c ∧ c.len = m.maxlen
  zeroWhenInvalid : m.valid = false → m.nsym = 0#9 ∧ m.total = 0#32 ∧ m.maxlen = 0#8

/-- A BUILD that waits has cleared the mapping (R111) and counted the items popped so far (R113). -/
def BuildWaits (s : State) : Prop :=
  s.status.op = 0x01#8 ∧ s.mapping = Mapping.empty ∧ ∃ items x, s.scratch = countFrequencies items x

/-- A DECODE that waits holds a candidate no longer than MAXLEN, with no bit at or above BUFLEN (R34, R191). -/
def DecodeWaits (s : State) : Prop :=
  s.status.op = 0x03#8 ∧ (s.mapping.valid = true →
    s.engine.buflen ≤ s.mapping.maxlen ∧ s.engine.buf >>> s.engine.buflen.toNat = 0#255)

/-- BUSY = 1 between two steps means that BUILD, ENCODE or DECODE waits for input (R263). -/
def WaitOk (s : State) : Prop :=
  s.status.busy = true → BuildWaits s ∨ s.status.op = 0x02#8 ∨ DecodeWaits s

/-- Every end-of-sequence beat in OUT is a response beat with one of the six codes (R87, U15). -/
def OutOk (s : State) : Prop := ∀ b ∈ s.out, b.eos = true → b.wellFormedResponse = true

/-- The invariant of the machine. -/
structure Inv (s : State) : Prop where
  mapping : MappingOk s.mapping
  waiting : WaitOk s
  output : OutOk s

/-- The next step of s is one of command i: it takes a word that decodes to i (R21, R82), or goes on with an i that waits
for input (R263). A step of an illegal word is one of no command (R83). -/
def Runs (i : Instr) (s : State) : Prop :=
  (s.status.busy = false ∧ ∃ w rest, s.cmd = w :: rest ∧ decode w = .ok i) ∨
  (s.status.busy = true ∧ s.status.op = instrOpc i)

/-- The states a run from reset can reach, whatever the host does between the core's steps (R15, R270). -/
inductive Reachable : State → Prop where
  | reset : Reachable State.reset
  | step {s t : State} : Reachable s → step s = .next t → Reachable t
  | pushCmd {s : State} (w : CmdWord) : Reachable s → Reachable (s.pushCmd w)
  | pushIn {s : State} (bs : List Beat) : Reachable s → Reachable (s.pushIn bs)
  | popOut {s t : State} {b : Beat} : Reachable s → s.popOut = some (b, t) → Reachable t
  | hostRead {s : State} (n : BitVec 3) : Reachable s → Reachable (s.hostRead n).2
  | assertReset {s : State} : Reachable s → Reachable s.assertReset

/-- Two counts agree on everything R113 has given a value: SEEN, K, CNT, OVF, FREQ where seen, ORDER below K. -/
def CountAgrees (x y : Scratch) : Prop :=
  x.seen = y.seen ∧ x.k = y.k ∧ x.cnt = y.cnt ∧ x.ovf = y.ovf ∧
  (∀ s, x.seen.get (symIdx s) = true → x.freq.get (symIdx s) = y.freq.get (symIdx s)) ∧
  (∀ i, i < x.k.toNat → x.order[i]? = y.order[i]?)

/-- Two engines agree on what a waiting ENCODE has given a value (R35, R170). -/
def EncoderAgrees (e f : Engine) : Prop :=
  e.pos = f.pos ∧ e.failed = f.failed ∧ (e.failed = true → e.heldInfo = f.heldInfo ∧ e.heldPos = f.heldPos)

/-- Two engines agree on what a waiting DECODE has given a value (R34, R35). -/
def DecoderAgrees (e f : Engine) : Prop :=
  e.buf = f.buf ∧ e.buflen = f.buflen ∧ e.poison = f.poison ∧ e.start = f.start ∧ e.pos = f.pos

/-- Two states look the same to the host and to every later command: the channels, the mapping and the status state are
equal, and so is what a waiting command has written; the rest of the scratch and engine state and the draws are not
compared (R51). -/
structure SameView (s t : State) : Prop where
  cmd : s.cmd = t.cmd
  inp : s.inp = t.inp
  out : s.out = t.out
  mapping : s.mapping = t.mapping
  status : s.status = t.status
  build : s.status.busy = true → s.status.op = 0x01#8 → CountAgrees s.scratch t.scratch
  encode : s.status.busy = true → s.status.op = 0x02#8 → s.mapping.valid = true → EncoderAgrees s.engine t.engine
  decode : s.status.busy = true → s.status.op = 0x03#8 → s.mapping.valid = true → DecoderAgrees s.engine t.engine

/-- Two outcomes that look the same: next states with the same view, or the same stop. -/
def SameOutcome : Host.Outcome State Fault Refusal → Host.Outcome State Fault Refusal → Prop
  | .next s, .next t => SameView s t
  | .fault f, .fault g => f = g
  | .refused a, .refused b => a = b
  | _, _ => False

end Sys2Proof.Machine
end

