-- ==== Sys2Proof/Certificates/Slice0/Obligations.lean ====
section
/-! DEFINITION. The statements about HUFFCORE, one `def Obligations.<Name> : Prop` each. None is proved here.
`takeFrame s.inp = some (items, rest)` says that IN begins with a complete frame of these items (R88). -/

open Sys2Proof Sys2Proof.Machine

/-! ### Words and beats -/

/-- R81: the four words, each matched whole, and every other word illegal. -/
def Obligations.DecodeMatchesWholeWord : Prop :=
  encode .build = 0x00000001#32 ∧ encode .encode = 0x00000002#32 ∧
  encode .decode = 0x00000003#32 ∧ encode .codes = 0x00000004#32 ∧
  (∀ (w : CmdWord) (i : Instr), decode w = .ok i ↔ w = encode i) ∧
  (∀ w : CmdWord, (∀ i, w ≠ encode i) → ∃ e, decode w = .error e)

/-- R81, R82: the decoder reads OPC and RSVD as the table's mask and match values do, on every word. -/
def Obligations.DecodeAgreesWithOpcodeTable : Prop :=
  ∀ w : CmdWord, (lookupRow w).map OpcodeRow.instr = (decode w).toOption

/-- R82: a word is illegal because RSVD is not 0, or because OPC is none of the four. -/
def Obligations.IllegalWordSaysWhy : Prop :=
  ∀ w : CmdWord,
    (decode w = .error .reservedBitsSet ↔ w.extractLsb' 8 24 ≠ 0#24) ∧
    (decode w = .error .unknownOpcode ↔ w.extractLsb' 8 24 = 0#24 ∧ w.extractLsb' 0 8 ≠ 1#8 ∧
      w.extractLsb' 0 8 ≠ 2#8 ∧ w.extractLsb' 0 8 ≠ 3#8 ∧ w.extractLsb' 0 8 ≠ 4#8)

/-- R80, R81, R83: words written out bit by bit, RSVD above OPC. -/
def Obligations.SampleWordsDecode : Prop :=
  decode (0b000000000000000000000000#24 ++ 0b00000001#8) = .ok .build ∧
  decode (0b000000000000000000000000#24 ++ 0b00000010#8) = .ok .encode ∧
  decode (0b000000000000000000000000#24 ++ 0b00000011#8) = .ok .decode ∧
  decode (0b000000000000000000000000#24 ++ 0b00000100#8) = .ok .codes ∧
  decode (0b000000000000000000000001#24 ++ 0b00000001#8) = .error .reservedBitsSet ∧
  decode (0b000000000000000000000000#24 ++ 0b00000000#8) = .error .unknownOpcode

/-- R85, R86: a beat is 9 bits, eos in bit 8 and data in bits 7:0, and every 9 bits are a beat. -/
def Obligations.BeatIsNineBits : Prop :=
  (∀ b : Beat, b.toBits.getLsbD 8 = b.eos ∧ b.toBits.extractLsb' 0 8 = b.data ∧ Beat.ofBits b.toBits = b) ∧
  (∀ v : BitVec 9, (Beat.ofBits v).toBits = v)

/-- R6: the constraints between the parameters. -/
def Obligations.ParametersKeepConstraints : Prop :=
  Config.kMax = 2 ^ Config.symW ∧ Config.nodeMax = 2 * Config.kMax - 1 ∧ Config.nodeMax ≤ 2 ^ Config.nidW ∧
  Config.lenMax = max 1 (Config.kMax - 1) ∧ Config.lenMax + 1 ≤ 2 ^ Config.lenW ∧
  Config.lenMax ≤ 2 ^ Config.dataW - 1 ∧ Config.nMax = 2 ^ Config.cntW - 1 ∧ Config.symW ≤ Config.dataW ∧
  Config.charW ≤ Config.dataW ∧ Config.ch0 ≠ Config.ch1

/-! ### The step -/

/-- R21, R82: with BUSY = 0 a step pops the oldest word, sets BUSY and OP, and is exec of the command of that word;
all else is as before the pop. -/
def Obligations.StepRunsDecodedCommand : Prop :=
  ∀ (s : State) (w : CmdWord) (rest : List CmdWord) (i : Instr),
    s.status.busy = false → s.cmd = w :: rest → decode w = .ok i →
    step s = exec i { s with cmd := rest, status := { s.status with busy := true, op := w.extractLsb' 0 8 } }

/-- R83: an illegal word pops nothing from IN, pushes no item, changes only CMD and the status state, and raises
IllegalCommandError(w, 0). -/
def Obligations.IllegalWordRaises : Prop :=
  ∀ (s : State) (w : CmdWord) (rest : List CmdWord),
    s.status.busy = false → s.cmd = w :: rest → (∀ i, w ≠ encode i) →
    step s = .next { s with
      cmd := rest
      out := s.out ++ [⟨true, 0x04#8⟩]
      status := { busy := false, op := w.extractLsb' 0 8, err := .illegalCommand, errInfo := w, errPos := 0#32 } }

/-- R21, R263, R270, U10: where step stops, for each of its three faults, and that it answers a next state everywhere else
and never a refusal; under the invariant it stops only with no word or no beat to pop. That it answers a fault there is the
model's way to say stuck (log 8); the third fault is for states no rule describes (log 9); that a full OUT, which U10 names
too, is no stop rests on the unbounded OUT (log 6). -/
def Obligations.CoreStandsStillExactlyWhen : Prop :=
  ∀ s : State,
    (step s = .fault .noCommand ↔ s.status.busy = false ∧ s.cmd = []) ∧
    (step s = .fault .waitingForInput ↔ s.status.busy = true ∧ s.inp = []) ∧
    (step s = .fault .busyWithoutInput ↔ s.status.busy = true ∧ s.inp ≠ [] ∧
      s.status.op ≠ 0x01#8 ∧ s.status.op ≠ 0x02#8 ∧ s.status.op ≠ 0x03#8) ∧
    ((∃ t, step s = .next t) ∨ ∃ f, step s = .fault f) ∧
    (Inv s → ((∃ t, step s = .next t) ↔
      ¬(s.status.busy = false ∧ s.cmd = []) ∧ ¬(s.status.busy = true ∧ s.inp = [])))

/-- R233: from a state that meets the invariant the core moves on, unless there is no word to pop or no beat to pop. -/
def Obligations.NoLockUp : Prop :=
  ∀ s : State, Inv s →
    (s.status.busy = false → s.cmd ≠ [] → ∃ t, step s = .next t) ∧
    (s.status.busy = true → s.inp ≠ [] → ∃ t, step s = .next t)

/-- R263: BUILD, ENCODE or DECODE over an incomplete frame takes what IN holds and waits: no status changes, no
response beat, CMD untouched. That one step takes all that IN holds is the model's reading of the wait (log 7). -/
def Obligations.IncompleteFrameWaits : Prop :=
  ∀ (i : Instr) (s : State), i ≠ .codes → takeFrame s.inp = none →
    ∃ (t : State) (items : List Byte), exec i s = .next t ∧ t.inp = [] ∧ t.cmd = s.cmd ∧ t.status = s.status ∧
      t.out = s.out ++ items.map itemBeat

/-- R63, R263: a wait changes no value. A command that finds its frame incomplete, waits, and goes on when the host has
pushed more, ends in the very state it would have reached with all beats there from the start (the wait as a state between
two steps: log 7). -/
def Obligations.WaitingChangesNoValue : Prop :=
  ∀ (s : State) (w : CmdWord) (rest : List CmdWord) (i : Instr) (more : List Beat),
    s.status.busy = false → s.cmd = w :: rest → decode w = .ok i → i ≠ .codes → takeFrame s.inp = none → more ≠ [] →
    ∃ t, step s = .next t ∧ t.status.busy = true ∧ t.inp = [] ∧ step (t.pushIn more) = step (s.pushIn more)

/-- R87, R88: over a complete frame BUILD, ENCODE and DECODE pop exactly that frame, clear BUSY, and push their items and
then one response beat that carries the result code, which ERR holds. -/
def Obligations.FrameCommandEndsWithResponse : Prop :=
  ∀ (i : Instr) (s : State) (items : List Byte) (rest : List Beat),
    i ≠ .codes → takeFrame s.inp = some (items, rest) →
    ∃ (t : State) (pushed : List Byte) (c : ResultCode), exec i s = .next t ∧ t.inp = rest ∧ t.status.busy = false ∧ t.status.err = c ∧
      t.out = s.out ++ pushed.map itemBeat ++ [⟨true, 0#4 ++ c.code⟩]

/-- R22, R87: a step pushes at most one response beat, exactly when it leaves BUSY = 0, and pushes it last. -/
def Obligations.ResponseExactlyWhenDone : Prop :=
  ∀ s t : State, step s = .next t →
    ∃ items : List Byte, (t.status.busy = true → t.out = s.out ++ items.map itemBeat) ∧
      (t.status.busy = false → t.out = s.out ++ items.map itemBeat ++ [responseBeat t.status.err])

/-- R21, R63, R72: the core only pops CMD and IN at their old end and only pushes OUT behind; it takes one word when
BUSY = 0 and none while a command waits. -/
def Obligations.ChannelsAreQueues : Prop :=
  ∀ s t : State, step s = .next t →
    s.out <+: t.out ∧ t.inp <:+ s.inp ∧
    (s.status.busy = false → ∃ w, s.cmd = w :: t.cmd) ∧ (s.status.busy = true → t.cmd = s.cmd)

/-- R51: a step that changes mapping or scratch state is one of BUILD, a step that changes engine state is one of ENCODE
or DECODE: it took a word that decodes to that command or went on with that command waiting, and OP names it afterwards.
So an illegal word changes none of them, also one whose low byte is a command's. -/
def Obligations.OnlyTheOwnerWrites : Prop :=
  ∀ s t : State, step s = .next t →
    (t.mapping ≠ s.mapping ∨ t.scratch ≠ s.scratch → Runs .build s ∧ t.status.op = 0x01#8) ∧
    (t.engine ≠ s.engine →
      Runs .encode s ∧ t.status.op = 0x02#8 ∨ Runs .decode s ∧ t.status.op = 0x03#8)

/-- R94, R269: a script line pushed into an idle block with empty CMD and IN is one step to its response, with CMD and IN
empty again and BUSY = 0. A raw word that is BUILD, ENCODE or DECODE brings no frame and would wait (R263). -/
def Obligations.ScriptLineIsOneStep : Prop :=
  ∀ (s : State) (l : ScriptLine), s.status.busy = false → s.cmd = [] → s.inp = [] →
    (∀ w, l = .word w → w ≠ encode .build ∧ w ≠ encode .encode ∧ w ≠ encode .decode) →
    ∃ (t : State) (items : List Byte), step (s.pushLine l) = .next t ∧ t.cmd = [] ∧ t.inp = [] ∧
      t.status.busy = false ∧ t.out = s.out ++ items.map itemBeat ++ [responseBeat t.status.err]

/-! ### BUILD -/

/-- R115: the empty frame. -/
def Obligations.BuildEmptyInput : Prop :=
  ∀ (s : State) (rest : List Beat), takeFrame s.inp = some ([], rest) →
    ∃ t, exec .build s = .next t ∧ t.inp = rest ∧ t.out = s.out ++ [⟨true, 0x01#8⟩] ∧ t.mapping = Mapping.empty ∧
      t.status = { s.status with busy := false, err := .emptyInput, errInfo := 0#32, errPos := 0#32 } ∧
      t.cmd = s.cmd ∧ t.engine = s.engine

/-- R114: a frame of more than N_MAX items. -/
def Obligations.BuildTooLong : Prop :=
  ∀ (s : State) (items : List Byte) (rest : List Beat), takeFrame s.inp = some (items, rest) →
    Config.nMax < items.length →
    ∃ t, exec .build s = .next t ∧ t.inp = rest ∧ t.out = s.out ++ [⟨true, 0x05#8⟩] ∧ t.mapping = Mapping.empty ∧
      t.status = { s.status with busy := false, err := .capacity, errInfo := 0#32, errPos := 0#32 } ∧
      t.cmd = s.cmd ∧ t.engine = s.engine

/-- R116: a frame of 1 to N_MAX items gives a mapping of exactly its symbols. What is popped, pushed and left alone is as
R110 and R117 say. -/
def Obligations.BuildSucceeds : Prop :=
  ∀ (s : State) (items : List Byte) (rest : List Beat), takeFrame s.inp = some (items, rest) →
    items ≠ [] → items.length ≤ Config.nMax →
    ∃ t, exec .build s = .next t ∧ t.inp = rest ∧ t.out = s.out ++ [⟨true, 0x00#8⟩] ∧
      t.status = { s.status with busy := false, err := .ok, errInfo := 0#32, errPos := 0#32 } ∧
      t.cmd = s.cmd ∧ t.engine = s.engine ∧ t.mapping.valid = true ∧
      t.mapping.nsym.toNat = (distinctSymbols items).length ∧ t.mapping.total.toNat = items.length ∧
      (∀ x : Symbol, (fwdLookup t.mapping x).isSome = true ↔ x ∈ items) ∧
      1 ≤ t.mapping.maxlen.toNat ∧ t.mapping.maxlen.toNat ≤ Config.lenMax ∧ MappingOk t.mapping

/-- R130, R150, R155: the code of every symbol is the path to its leaf in the Huffman tree of the input, the tree built by
merging the two least trees by weight and insertion index. -/
def Obligations.BuildGivesPathCodes : Prop :=
  ∀ (s : State) (items : List Byte) (rest : List Beat), takeFrame s.inp = some (items, rest) →
    items ≠ [] → items.length ≤ Config.nMax →
    ∃ t, exec .build s = .next t ∧ ∀ x : Symbol, fwdLabels t.mapping x = (huffCodes items).lookup x

/-- R157: after a successful BUILD no code is a prefix of another, FWD and REV are exact inverses, no code is empty, and
with two or more symbols every bit vector of length MAXLEN begins with exactly one code. -/
def Obligations.BuildCodesPrefixFreeAndComplete : Prop :=
  ∀ (s : State) (items : List Byte) (rest : List Beat), takeFrame s.inp = some (items, rest) →
    items ≠ [] → items.length ≤ Config.nMax →
    ∃ t, exec .build s = .next t ∧
      (∀ x y c d, fwdLookup t.mapping x = some c → fwdLookup t.mapping y = some d → x ≠ y → ¬ codeLabels c <+: codeLabels d) ∧
      (∀ x c, revLookup t.mapping c = some x ↔ fwdLookup t.mapping x = some c) ∧
      (∀ x c, fwdLookup t.mapping x = some c → codeLabels c ≠ []) ∧
      (2 ≤ (distinctSymbols items).length → ∀ v : List Bool, v.length = t.mapping.maxlen.toNat →
        ∃! x, ∃ c, fwdLookup t.mapping x = some c ∧ codeLabels c <+: v)

/-- R153: one distinct symbol gets the code "0". -/
def Obligations.BuildLoneSymbol : Prop :=
  ∀ (s : State) (a : Symbol) (n : Nat) (rest : List Beat), takeFrame s.inp = some (List.replicate (n + 1) a, rest) →
    n + 1 ≤ Config.nMax →
    ∃ t, exec .build s = .next t ∧ t.mapping.valid = true ∧ t.mapping.maxlen = 1#8 ∧
      ∀ x, fwdLookup t.mapping x = if x = a then some ⟨1#8, 0#255⟩ else none

/-- R118: the mapping after BUILD is a function of the input sequence alone. -/
def Obligations.BuildDeterministic : Prop :=
  ∀ (s t u v : State) (items : List Byte) (r q : List Beat),
    takeFrame s.inp = some (items, r) → takeFrame t.inp = some (items, q) →
    exec .build s = .next u → exec .build t = .next v → u.mapping = v.mapping

/-- R110, R111, R117: what BUILD leaves alone, whether it ends or waits, and that its mapping is its own frame's:
empty while BUILD waits and whenever VALID = 0, and at the end over any frame without a symbol in FWD or REV that is no
item of that frame. -/
def Obligations.BuildFrame : Prop :=
  ∀ s t : State, exec .build s = .next t →
    t.engine = s.engine ∧ t.cmd = s.cmd ∧ t.status.op = s.status.op ∧ t.inp <:+ s.inp ∧
    (t.out = s.out ∧ t.status = s.status ∨ t.out = s.out ++ [responseBeat t.status.err]) ∧
    (t.mapping.valid = false → t.mapping = Mapping.empty) ∧ (takeFrame s.inp = none → t.mapping = Mapping.empty) ∧
    (∀ items rest, takeFrame s.inp = some (items, rest) → ∀ x : Symbol,
      ((fwdLookup t.mapping x).isSome = true → x ∈ items) ∧ (∀ c, revLookup t.mapping c = some x → x ∈ items))

/-- R112, R113: the Frequency Counter over a sequence of at most N_MAX items. -/
def Obligations.FrequencyCounterCounts : Prop :=
  ∀ (items : List Byte) (x : Scratch), items.length ≤ Config.nMax →
    (countFrequencies items x).ovf = false ∧
    (countFrequencies items x).cnt.toNat = items.length ∧
    (countFrequencies items x).k.toNat = (distinctSymbols items).length ∧
    (∀ i, i < (distinctSymbols items).length → (countFrequencies items x).order[i]? = (distinctSymbols items)[i]?) ∧
    (∀ a, (countFrequencies items x).seen.get (symIdx a) = true ↔ a ∈ items) ∧
    (∀ a, a ∈ items → ((countFrequencies items x).freq.get (symIdx a)).toNat = items.count a)

/-- R113, R114: the count is overrun exactly when the sequence is longer than N_MAX. -/
def Obligations.CounterOverrunsExactlyBeyondCapacity : Prop :=
  ∀ (items : List Byte) (x : Scratch), (countFrequencies items x).ovf = true ↔ Config.nMax < items.length

/-- R133: extract_min removes the member of PQ with the least key, and no other; it answers none only for an empty PQ. -/
def Obligations.ExtractMinTakesLeastKey : Prop :=
  ∀ x : Scratch,
    (extractMin x = none ↔ members x = []) ∧
    (∀ m y, extractMin x = some (m, y) → m ∈ members x ∧ (∀ a ∈ members x, a ≠ m → keyLt x m a = true) ∧
      (∀ a, a ∈ members y ↔ a ∈ members x ∧ a ≠ m) ∧ y.node = x.node)

/-- R135, R137, R141, R142: the tree of a sequence of 1 to N_MAX items: 2K - 1 nodes, the last the root with the input
length as weight, K leaves first, then internal nodes whose children have smaller ids and whose weight is their sum. -/
def Obligations.TreeBuilderKeepsWeights : Prop :=
  ∀ (items : List Byte) (x : Scratch), items ≠ [] → items.length ≤ Config.nMax →
    (buildTree (countFrequencies items x)).nnode.toNat = 2 * (distinctSymbols items).length - 1 ∧
    (buildTree (countFrequencies items x)).root.toNat = 2 * (distinctSymbols items).length - 2 ∧
    (weightAt (buildTree (countFrequencies items x)) (buildTree (countFrequencies items x)).root).toNat = items.length ∧
    (∀ i : NodeId, i.toNat < (distinctSymbols items).length →
      ∃ a, (distinctSymbols items)[i.toNat]? = some a ∧
        nodeAt (buildTree (countFrequencies items x)) i = .leaf a (BitVec.ofNat 32 (items.count a))) ∧
    (∀ i : NodeId, (distinctSymbols items).length ≤ i.toNat → i.toNat < 2 * (distinctSymbols items).length - 1 →
      ∃ w l r, nodeAt (buildTree (countFrequencies items x)) i = .internal w l r ∧ l < i ∧ r < i ∧ l ≠ r ∧
        w.toNat = (weightAt (buildTree (countFrequencies items x)) l).toNat +
          (weightAt (buildTree (countFrequencies items x)) r).toNat)

/-- R138: one distinct symbol: no merge, the root is the one leaf. -/
def Obligations.TreeOfOneSymbol : Prop :=
  ∀ (a : Symbol) (n : Nat) (x : Scratch), n + 1 ≤ Config.nMax →
    (buildTree (countFrequencies (List.replicate (n + 1) a) x)).nnode = 1#9 ∧
    (buildTree (countFrequencies (List.replicate (n + 1) a) x)).root = 0#9 ∧
    nodeAt (buildTree (countFrequencies (List.replicate (n + 1) a) x)) 0#9 = .leaf a (BitVec.ofNat 32 (n + 1))

/-- R156: however many visits the Code Generator has made, the stack holds at most K entries. -/
def Obligations.TraversalStackBounded : Prop :=
  ∀ (items : List Byte) (x : Scratch) (m : Mapping) (n : Nat), items ≠ [] → items.length ≤ Config.nMax →
    (visitLoop n (pushStack ⟨(buildTree (countFrequencies items x)).root, Code.empty⟩
      { buildTree (countFrequencies items x) with sp := 0#9 }) m).1.sp.toNat ≤ (distinctSymbols items).length

/-! ### ENCODE -/

/-- R170, R174: with a mapping and every symbol present, the concatenation of the codes in sequence order, then OK; the
number of characters is the sum of the lengths. -/
def Obligations.EncodeConcatenatesCodes : Prop :=
  ∀ (s : State) (items : List Byte) (rest : List Beat), takeFrame s.inp = some (items, rest) →
    s.mapping.valid = true → (∀ a ∈ items, (fwdLookup s.mapping a).isSome = true) →
    (∃ t, exec .encode s = .next t ∧ t.inp = rest ∧
      t.out = s.out ++ (encodedChars s.mapping items).map itemBeat ++ [⟨true, 0x00#8⟩] ∧
      t.status = { s.status with busy := false, err := .ok, errInfo := 0#32, errPos := 0#32 } ∧
      t.cmd = s.cmd ∧ t.mapping = s.mapping ∧ t.scratch = s.scratch) ∧
    (encodedChars s.mapping items).length =
      (items.map fun a => ((fwdLookup s.mapping a).map fun c => c.len.toNat).getD 0).sum

/-- R173: the first absent symbol ends the output, the rest of the frame is popped unexamined, and LookupError reports
that symbol and its index modulo 2^32. -/
def Obligations.EncodeAbsentSymbol : Prop :=
  ∀ (s : State) (before after : List Byte) (a : Symbol) (rest : List Beat),
    takeFrame s.inp = some (before ++ a :: after, rest) → s.mapping.valid = true →
    (∀ b ∈ before, (fwdLookup s.mapping b).isSome = true) → fwdLookup s.mapping a = none →
    ∃ t, exec .encode s = .next t ∧ t.inp = rest ∧
      t.out = s.out ++ (encodedChars s.mapping before).map itemBeat ++ [⟨true, 0x02#8⟩] ∧
      t.status = { s.status with
        busy := false, err := .lookup
        errInfo := a.setWidth 32, errPos := BitVec.ofNat 32 before.length } ∧
      t.cmd = s.cmd ∧ t.mapping = s.mapping ∧ t.scratch = s.scratch

/-- R172: without a mapping ENCODE drains its frame unlooked at and refuses. That the engine state, to which R51 gives no
value between commands, stands as it was is the model's choice (log 4). -/
def Obligations.EncodeRefusesWithoutMapping : Prop :=
  ∀ (s : State) (items : List Byte) (rest : List Beat), takeFrame s.inp = some (items, rest) →
    s.mapping.valid = false →
    exec .encode s = .next { s with
      inp := rest
      out := s.out ++ [⟨true, 0x01#8⟩]
      status := { s.status with busy := false, err := .emptyInput, errInfo := 0#32, errPos := 0#32 } }

/-- R51, R90, R170: what ENCODE leaves alone, and that it pushes nothing but characters before its response. -/
def Obligations.EncodeFrame : Prop :=
  ∀ s t : State, exec .encode s = .next t →
    t.mapping = s.mapping ∧ t.scratch = s.scratch ∧ t.cmd = s.cmd ∧ t.status.op = s.status.op ∧ t.inp <:+ s.inp ∧
    ∃ pushed : List Beat, (t.out = s.out ++ pushed ∧ t.status = s.status ∨ t.out = s.out ++ pushed ++ [responseBeat t.status.err]) ∧
      ∀ b ∈ pushed, b.wellFormedCharacter = true

/-! ### DECODE -/

/-- R185, R188, R192: a concatenation of codes decodes to its symbols, then OK. -/
def Obligations.DecodeEmitsSymbols : Prop :=
  ∀ (s : State) (syms : List Symbol) (rest : List Beat), MappingOk s.mapping → s.mapping.valid = true →
    (∀ a ∈ syms, (fwdLookup s.mapping a).isSome = true) →
    takeFrame s.inp = some (encodedChars s.mapping syms, rest) →
    ∃ t, exec .decode s = .next t ∧ t.inp = rest ∧ t.out = s.out ++ syms.map itemBeat ++ [⟨true, 0x00#8⟩] ∧
      t.status = { s.status with busy := false, err := .ok, errInfo := 0#32, errPos := 0#32 } ∧
      t.cmd = s.cmd ∧ t.mapping = s.mapping ∧ t.scratch = s.scratch

/-- R189, R190, R191: behind a concatenation of codes, a leftover that begins with no code (it is cut short, or holds a
character that is no bit, or is longer than every code) gives the symbols before it and MalformedInputError at the index
where the leftover begins, modulo 2^32. -/
def Obligations.DecodeReportsLeftover : Prop :=
  ∀ (s : State) (syms : List Symbol) (tail : List Byte) (rest : List Beat),
    MappingOk s.mapping → s.mapping.valid = true → (∀ a ∈ syms, (fwdLookup s.mapping a).isSome = true) →
    tail ≠ [] → (∀ a c, fwdLookup s.mapping a = some c → ¬ codeChars c <+: tail) →
    takeFrame s.inp = some (encodedChars s.mapping syms ++ tail, rest) →
    ∃ t, exec .decode s = .next t ∧ t.inp = rest ∧ t.out = s.out ++ syms.map itemBeat ++ [⟨true, 0x03#8⟩] ∧
      t.status = { s.status with
        busy := false, err := .malformedInput, errInfo := 0#32
        errPos := BitVec.ofNat 32 (encodedChars s.mapping syms).length } ∧
      t.cmd = s.cmd ∧ t.mapping = s.mapping ∧ t.scratch = s.scratch

/-- R188, R189: every input of DECODE is of one of these two shapes, and of one only: codes of present symbols, then
nothing or a leftover that begins with no code. -/
def Obligations.EveryInputSplitsIntoCodesAndLeftover : Prop :=
  ∀ (m : Mapping) (chars : List Byte), MappingOk m →
    ∃! p : List Symbol × List Byte, chars = encodedChars m p.1 ++ p.2 ∧
      (∀ a ∈ p.1, (fwdLookup m a).isSome = true) ∧ (∀ a c, fwdLookup m a = some c → ¬ codeChars c <+: p.2)

/-- R187: without a mapping DECODE drains its frame unlooked at and refuses. That the engine state, to which R51 gives no
value between commands, stands as it was is the model's choice (log 4). -/
def Obligations.DecodeRefusesWithoutMapping : Prop :=
  ∀ (s : State) (items : List Byte) (rest : List Beat), takeFrame s.inp = some (items, rest) →
    s.mapping.valid = false →
    exec .decode s = .next { s with
      inp := rest
      out := s.out ++ [⟨true, 0x01#8⟩]
      status := { s.status with busy := false, err := .emptyInput, errInfo := 0#32, errPos := 0#32 } }

/-- R51, R91, R193: what DECODE leaves alone, and that it pushes at most one item per item popped: at most M over a complete
frame of M items, and at most one per beat of an incomplete one, all of whose beats are items. -/
def Obligations.DecodeFrame : Prop :=
  ∀ s t : State, exec .decode s = .next t →
    t.mapping = s.mapping ∧ t.scratch = s.scratch ∧ t.cmd = s.cmd ∧ t.status.op = s.status.op ∧ t.inp <:+ s.inp ∧
    ∃ syms : List Symbol, syms.length ≤ s.inp.length - t.inp.length ∧
      (∀ items rest, takeFrame s.inp = some (items, rest) → syms.length ≤ items.length) ∧
      (t.out = s.out ++ syms.map itemBeat ∧ t.status = s.status ∨
        t.out = s.out ++ syms.map itemBeat ++ [responseBeat t.status.err])

/-- R195: what DECODE answers is a function of VALID, REV, MAXLEN and its input alone. -/
def Obligations.DecodeIsStateless : Prop :=
  ∀ (s t u v : State) (items : List Byte) (r q : List Beat),
    s.mapping.valid = t.mapping.valid → s.mapping.rev = t.mapping.rev → s.mapping.maxlen = t.mapping.maxlen →
    takeFrame s.inp = some (items, r) → takeFrame t.inp = some (items, q) →
    exec .decode s = .next u → exec .decode t = .next v →
    ∃ pushed : List Beat, u.out = s.out ++ pushed ∧ v.out = t.out ++ pushed ∧ u.status.err = v.status.err ∧
      u.status.errInfo = v.status.errInfo ∧ u.status.errPos = v.status.errPos

/-- R194: the round trip. After BUILD of S, ENCODE of any sequence over the symbols of S ends with OK and items T, and
DECODE of T ends with OK and that sequence. -/
def Obligations.RoundTrip : Prop :=
  ∀ (s : State) (items : List Byte) (rest : List Beat), takeFrame s.inp = some (items, rest) →
    items ≠ [] → items.length ≤ Config.nMax →
    ∃ t, exec .build s = .next t ∧ t.status.err = .ok ∧
      ∀ (u : State) (seq : List Byte) (r : List Beat), u.mapping = t.mapping → (∀ a ∈ seq, a ∈ items) →
        takeFrame u.inp = some (seq, r) →
        ∃ (v : State) (chars : List Byte), exec .encode u = .next v ∧ v.status.err = .ok ∧ v.mapping = t.mapping ∧
          v.out = u.out ++ chars.map itemBeat ++ [responseBeat .ok] ∧
          ∀ (w : State) (q : List Beat), w.mapping = v.mapping → takeFrame w.inp = some (chars, q) →
            ∃ z, exec .decode w = .next z ∧ z.status.err = .ok ∧
              z.out = w.out ++ seq.map itemBeat ++ [responseBeat .ok]

/-! ### CODES -/

/-- R205, R206, R207: one record per present symbol in ascending order, each the symbol, the length and the characters,
then OK; nothing else changes but the status. -/
def Obligations.CodesReadsOutRecords : Prop :=
  ∀ s : State, exec .codes s = .next { s with
    out := s.out ++ ((presentSymbols s.mapping).flatMap fun a =>
        a :: ((fwdLookup s.mapping a).map Code.len).getD 0#8 :: symbolChars s.mapping a).map itemBeat ++ [⟨true, 0x00#8⟩]
    status := { s.status with busy := false, err := .ok, errInfo := 0#32, errPos := 0#32 } }

/-- R208: with VALID = 0 CODES pushes no item and ends with OK. -/
def Obligations.CodesOfEmptyMapping : Prop :=
  ∀ s : State, MappingOk s.mapping → s.mapping.valid = false →
    exec .codes s = .next { s with
      out := s.out ++ [⟨true, 0x00#8⟩]
      status := { s.status with busy := false, err := .ok, errInfo := 0#32, errPos := 0#32 } }

/-- R209: NSYM records; 2*NSYM items and one per label of every code. -/
def Obligations.CodesResultSize : Prop :=
  ∀ s : State, MappingOk s.mapping →
    (presentSymbols s.mapping).length = s.mapping.nsym.toNat ∧
    (codesItems s.mapping).length = 2 * s.mapping.nsym.toNat +
      ((presentSymbols s.mapping).map fun a => ((fwdLookup s.mapping a).map fun c => c.len.toNat).getD 0).sum

/-! ### Errors, registers, reset -/

/-- R223, R224: what ending a command writes, for each of the six codes of R220, and nothing else. -/
def Obligations.RaiseAndRespondWrite : Prop :=
  ∀ (s : State) (info pos : RegWord),
    s.respondOk = { s with
      out := s.out ++ [⟨true, 0x00#8⟩]
      status := { s.status with busy := false, err := .ok, errInfo := 0#32, errPos := 0#32 } } ∧
    ∀ e : ResultCode × Byte,
      e ∈ [(.emptyInput, 0x01#8), (.lookup, 0x02#8), (.malformedInput, 0x03#8), (.illegalCommand, 0x04#8),
        (.capacity, 0x05#8)] →
      s.raise e.1 info pos = { s with
        out := s.out ++ [⟨true, e.2⟩]
        status := { s.status with busy := false, err := e.1, errInfo := info, errPos := pos } }

/-- R41, R42: ID and PARAM read the same in every state. -/
def Obligations.ConstantRegisters : Prop :=
  ∀ s : State, regRead 0#3 s = 0x48554601#32 ∧ regRead 1#3 s = 0x01002008#32

/-- R43, R260: the fields of STATUS. BUSY and OP are exact at all times, VALID and ERR when BUSY = 0, the other bits
read 0 (while BUSY = 1 too: log 5). -/
def Obligations.StatusRegisterFields : Prop :=
  ∀ s : State,
    (regRead 2#3 s).getLsbD 0 = s.status.busy ∧ (regRead 2#3 s).extractLsb' 16 8 = s.status.op ∧
    (regRead 2#3 s).extractLsb' 2 6 = 0#6 ∧ (regRead 2#3 s).extractLsb' 12 4 = 0#4 ∧
    (regRead 2#3 s).extractLsb' 24 8 = 0#8 ∧
    (s.status.busy = false → (regRead 2#3 s).getLsbD 1 = s.mapping.valid ∧
      (regRead 2#3 s).extractLsb' 8 4 = s.status.err.code)

/-- R44 to R48: registers 3 to 7 when BUSY = 0. -/
def Obligations.ValueRegistersWhenIdle : Prop :=
  ∀ s : State, s.status.busy = false →
    regRead 3#3 s = s.status.errInfo ∧ regRead 4#3 s = s.status.errPos ∧
    (regRead 5#3 s).extractLsb' 0 9 = s.mapping.nsym ∧ (regRead 5#3 s).extractLsb' 9 23 = 0#23 ∧
    regRead 6#3 s = s.mapping.total ∧
    (regRead 7#3 s).extractLsb' 0 8 = s.mapping.maxlen ∧ (regRead 7#3 s).extractLsb' 8 24 = 0#24

/-- R40, R70: a register read gives RegRead and changes no piece of the block's state (the model's own count of draws is
none, log 12). -/
def Obligations.RegisterReadHasNoSideEffect : Prop :=
  ∀ (s : State) (n : BitVec 3),
    (s.hostRead n).1 = regRead n s ∧ { (s.hostRead n).2 with draws := s.draws } = s

/-- R40, R52, R250, R252: what reset leaves, from any state, read through the registers and in the channels and the
mapping. The values of scratch and engine state are the model's (logs 1, 2) and are not stated. -/
def Obligations.ResetLeaves : Prop :=
  ∀ s : State,
    s.assertReset.cmd = [] ∧ s.assertReset.inp = [] ∧ s.assertReset.out = [] ∧
    s.assertReset.status.busy = false ∧ s.assertReset.status.op = 0#8 ∧ s.assertReset.status.err = .ok ∧
    s.assertReset.mapping.valid = false ∧
    (∀ a, fwdLookup s.assertReset.mapping a = none) ∧ (∀ c, revLookup s.assertReset.mapping c = none) ∧
    (List.range 8).map (fun n => regRead (BitVec.ofNat 3 n) s.assertReset) =
      [0x48554601#32, 0x01002008#32, 0#32, 0#32, 0#32, 0#32, 0#32, 0#32]

/-! ### Invariants -/

/-- R32, R52: the state after reset meets the invariant. -/
def Obligations.ResetMeetsInvariant : Prop := Inv State.reset

/-- R32: every step of the core keeps the invariant: FWD and REV exact inverses, codes prefix-free and not empty, VALID,
NSYM and MAXLEN in step with the mapping, OUT's response beats well formed, and BUSY = 1 only while a command waits. -/
def Obligations.StepKeepsInvariant : Prop :=
  ∀ s t : State, Inv s → step s = .next t → Inv t

/-- R17, R270: everything the host can do keeps the invariant. -/
def Obligations.HostKeepsInvariant : Prop :=
  ∀ s : State, Inv s →
    (∀ w, Inv (s.pushCmd w)) ∧ (∀ bs, Inv (s.pushIn bs)) ∧ (∀ b t, s.popOut = some (b, t) → Inv t) ∧
    (∀ n, Inv (s.hostRead n).2) ∧ Inv s.assertReset ∧ (∀ l, Inv (s.pushLine l))

/-- R32, R63, R87: in every state a run from reset can reach, whatever the host does, the mapping invariant holds, and
OUT holds no end-of-sequence beat that is not a well formed response. -/
def Obligations.ReachableStatesKeepMapping : Prop :=
  ∀ s : State, Reachable s → MappingOk s.mapping ∧ ∀ b ∈ s.out, b.eos = true → b.wellFormedResponse = true

/-- R51, R52, U1, U2: nothing the spec leaves without a value is ever read: two states that meet the invariant and look
the same step to outcomes that look the same, whatever their scratch and engine state and their draws hold. -/
def Obligations.NoUnspecifiedValueIsRead : Prop :=
  ∀ s t : State, Inv s → Inv t → SameView s t → SameOutcome (step s) (step t)
end

