-- ==== Sys2Proof/Laws/Operands.lean ====
section
/-! SUPPORT. Frames, characters, codes and lookups: one lemma per function of Machine/Operands.lean. -/

namespace Sys2Proof.Machine

/-! ### Frames (R88) -/

@[simp] theorem takeFrame_nil : takeFrame [] = none := rfl

@[simp] theorem takeFrame_item (d : Byte) (bs : List Beat) :
    takeFrame (itemBeat d :: bs) = (takeFrame bs).map fun p => (d :: p.1, p.2) := rfl

@[simp] theorem takeFrame_end (d : Byte) (bs : List Beat) : takeFrame (⟨true, d⟩ :: bs) = some ([], bs) := rfl

/-- A frame is taken whole, and what stands behind it is left. -/
theorem takeFrame_items_end (items : List Byte) (d : Byte) (rest : List Beat) :
    takeFrame (items.map itemBeat ++ ⟨true, d⟩ :: rest) = some (items, rest) := by
  induction items with
  | nil => rfl
  | cons a items ih => simp [ih]

theorem takeFrame_frame (items : List Byte) (rest : List Beat) :
    takeFrame (frame items ++ rest) = some (items, rest) := by
  simpa [frame, endBeat] using takeFrame_items_end items 0#8 rest

/-- What a taken frame looked like. -/
theorem eq_of_takeFrame_some {bs rest : List Beat} {items : List Byte} (h : takeFrame bs = some (items, rest)) :
    ∃ d, bs = items.map itemBeat ++ ⟨true, d⟩ :: rest := by
  induction bs generalizing items with
  | nil => simp at h
  | cons b bs ih =>
    obtain ⟨eos, d⟩ := b
    cases eos with
    | true =>
      obtain ⟨rfl, rfl⟩ : [] = items ∧ bs = rest := by simpa using h
      exact ⟨d, rfl⟩
    | false =>
      have h' : ((takeFrame bs).map fun p => (d :: p.1, p.2)) = some (items, rest) := h
      obtain ⟨⟨items', rest'⟩, hp, heq⟩ := Option.map_eq_some_iff.mp h'
      obtain ⟨rfl, rfl⟩ : d :: items' = items ∧ rest' = rest := by simpa using heq
      obtain ⟨e, rfl⟩ := ih hp
      exact ⟨e, rfl⟩

/-- Beats without an end of sequence are items. -/
theorem eq_of_takeFrame_none {bs : List Beat} (h : takeFrame bs = none) : bs = (bs.map Beat.data).map itemBeat := by
  induction bs with
  | nil => rfl
  | cons b bs ih =>
    obtain ⟨eos, d⟩ := b
    cases eos with
    | true => simp at h
    | false =>
      have h' : ((takeFrame bs).map fun p => (d :: p.1, p.2)) = none := h
      rw [Option.map_eq_none_iff] at h'
      simpa [itemBeat] using ih h'

theorem takeFrame_items (items : List Byte) : takeFrame (items.map itemBeat) = none := by
  induction items with
  | nil => rfl
  | cons a items ih => simp [ih]

/-- Items in front of other beats come first in the frame. -/
theorem takeFrame_items_append (items : List Byte) (bs : List Beat) :
    takeFrame (items.map itemBeat ++ bs) = (takeFrame bs).map fun p => (items ++ p.1, p.2) := by
  induction items with
  | nil => cases h : takeFrame bs <;> simp [h]
  | cons a items ih => simp [ih, Function.comp_def]

theorem takeFrame_rest_suffix {bs rest : List Beat} {items : List Byte} (h : takeFrame bs = some (items, rest)) :
    rest <:+ bs := by
  obtain ⟨d, rfl⟩ := eq_of_takeFrame_some h
  exact ⟨items.map itemBeat ++ [⟨true, d⟩], by simp⟩

/-! ### Characters (R67, R90) -/

@[simp] theorem charBit_chr (b : Bool) : charBit (chr b) = some b := by cases b <;> decide

/-- An item is a bit exactly when it is the bit's character. -/
theorem charBit_eq_some {d : Byte} {b : Bool} : charBit d = some b ↔ d = chr b := by
  refine ⟨fun h => ?_, fun h => by rw [h, charBit_chr]⟩
  unfold charBit at h
  split at h
  · obtain rfl : false = b := by simpa using h
    simpa [chr]
  · split at h
    · obtain rfl : true = b := by simpa using h
      simpa [chr]
    · simp at h

theorem chr_injective : Function.Injective chr := fun a b h => by
  simpa using congrArg charBit h

/-! ### Codes (R10) -/

@[simp] theorem codeLabels_empty : codeLabels Code.empty = [] := rfl

@[simp] theorem length_codeLabels (c : Code) : (codeLabels c).length = c.len.toNat := by simp [codeLabels]

@[simp] theorem length_codeChars (c : Code) : (codeChars c).length = c.len.toNat := by simp [codeChars]

theorem getElem_codeLabels (c : Code) (j : Nat) (h : j < (codeLabels c).length) :
    (codeLabels c)[j] = codeBit c j := by simp [codeLabels]

/-- Bits at and above the length of a code are 0 when the shifted bits are 0 (R10). -/
theorem codeBit_of_le {c : Code} (h : c.bits >>> c.len.toNat = 0#255) {j : Nat} (hj : c.len.toNat ≤ j) :
    codeBit c j = false := by
  have := congrArg (fun v => v.getLsbD (j - c.len.toNat)) h
  simpa [codeBit, Nat.add_sub_cancel' hj] using this

theorem shifted_bits_eq_zero_iff (c : Code) :
    c.bits >>> c.len.toNat = 0#255 ↔ ∀ j, c.len.toNat ≤ j → codeBit c j = false := by
  refine ⟨fun h j hj => codeBit_of_le h hj, fun h => ?_⟩
  ext i hi
  simpa [codeBit] using h (c.len.toNat + i) (Nat.le_add_right _ _)

/-- Two codes with no bit above their length are equal when their labels are. -/
theorem code_eq_of_labels {c d : Code} (hc : c.bits >>> c.len.toNat = 0#255) (hd : d.bits >>> d.len.toNat = 0#255)
    (h : codeLabels c = codeLabels d) : c = d := by
  have hlen : c.len.toNat = d.len.toNat := by simpa using congrArg List.length h
  have hbit : ∀ j, codeBit c j = codeBit d j := fun j => by
    by_cases hj : j < c.len.toNat
    · have := List.getElem_of_eq h (by simpa using hj)
      rwa [getElem_codeLabels, getElem_codeLabels] at this
    · rw [codeBit_of_le hc (by omega), codeBit_of_le hd (by omega)]
  obtain ⟨cl, cb⟩ := c
  obtain ⟨dl, db⟩ := d
  obtain rfl : cl = dl := BitVec.eq_of_toNat_eq hlen
  obtain rfl : cb = db := by
    apply BitVec.eq_of_getLsbD_eq
    exact fun i _ => hbit i
  rfl

theorem codeSnoc_len {c : Code} (h : c.len.toNat < 255) (b : Bool) :
    (codeSnoc c b).len.toNat = c.len.toNat + 1 := by
  simp only [codeSnoc, BitVec.toNat_add, BitVec.toNat_ofNat]
  omega

theorem codeBit_codeSnoc {c : Code} (h : c.len.toNat < 255) (hc : c.bits >>> c.len.toNat = 0#255) (b : Bool) (j : Nat) :
    codeBit (codeSnoc c b) j = if j = c.len.toNat then b else codeBit c j := by
  have hz := codeBit_of_le hc (Nat.le_refl _)
  cases b
  · by_cases hj : j = c.len.toNat
    · subst hj
      simpa [codeSnoc, codeBit] using hz
    · simp [codeSnoc, codeBit, hj]
  · by_cases hj : j = c.len.toNat
    · subst hj
      simp [codeSnoc, codeBit, h]
    · have : c.len.toNat ≤ j → j - c.len.toNat ≠ 0 := by omega
      simp [codeSnoc, codeBit, hj]
      omega

/-- One label more: the labels grow at the end, and no bit stands above the new length (R152, R188). -/
theorem codeLabels_codeSnoc {c : Code} (h : c.len.toNat < 255) (hc : c.bits >>> c.len.toNat = 0#255) (b : Bool) :
    codeLabels (codeSnoc c b) = codeLabels c ++ [b] := by
  refine List.ext_getElem (by simp [codeSnoc_len h]) fun j h₁ h₂ => ?_
  rw [getElem_codeLabels, codeBit_codeSnoc h hc]
  rw [length_codeLabels, codeSnoc_len h] at h₁
  by_cases hj : j = c.len.toNat
  · simp [hj]
  · rw [if_neg hj, List.getElem_append_left (by simp; omega), getElem_codeLabels]

theorem codeSnoc_shifted {c : Code} (h : c.len.toNat < 255) (hc : c.bits >>> c.len.toNat = 0#255) (b : Bool) :
    (codeSnoc c b).bits >>> (codeSnoc c b).len.toNat = 0#255 := by
  rw [shifted_bits_eq_zero_iff, codeSnoc_len h]
  intro j hj
  rw [codeBit_codeSnoc h hc, if_neg (by omega), codeBit_of_le hc (by omega)]

theorem codeSnoc_wellFormed {c : Code} (h : c.len.toNat < 255) (hc : c.bits >>> c.len.toNat = 0#255) (b : Bool) :
    Code.wellFormed (codeSnoc c b) = true := by
  have h1 := codeSnoc_len h b
  have h2 : (codeSnoc c b).len ≠ 0#8 := fun h0 => by simp [h0] at h1
  simp [Code.wellFormed, h2, codeSnoc_shifted h hc]

theorem wellFormed_iff (c : Code) :
    Code.wellFormed c = true ↔ c.len ≠ 0#8 ∧ c.bits >>> c.len.toNat = 0#255 := by
  simp [Code.wellFormed]

theorem codeLabels_injective {c d : Code} (hc : Code.wellFormed c = true) (hd : Code.wellFormed d = true)
    (h : codeLabels c = codeLabels d) : c = d :=
  code_eq_of_labels ((wellFormed_iff c).mp hc).2 ((wellFormed_iff d).mp hd).2 h

/-- The prefix test of R10 is the prefix relation on the labels. -/
theorem codeIsPrefix_iff (c d : Code) : codeIsPrefix c d = true ↔ codeLabels c <+: codeLabels d := by
  rw [List.prefix_iff_getElem]
  simp only [codeIsPrefix, Bool.and_eq_true, decide_eq_true_eq, List.all_eq_true, List.mem_range, beq_iff_eq,
    length_codeLabels, exists_prop, getElem_codeLabels]

/-! ### FWD and REV (R30, R31, R61, R65) -/

@[simp] theorem fwdLookup_fwdWrite_self (m : Mapping) (s : Symbol) (c : Code) :
    fwdLookup (fwdWrite m s c) s = some c := by
  simp [fwdLookup, fwdWrite, symIdx, Vector.get_eq_getElem]

theorem fwdLookup_fwdWrite_ne (m : Mapping) {s t : Symbol} (c : Code) (h : s ≠ t) :
    fwdLookup (fwdWrite m s c) t = fwdLookup m t := by
  have : s.toNat ≠ t.toNat := fun e => h (BitVec.eq_of_toNat_eq e)
  simp [fwdLookup, fwdWrite, symIdx, Vector.get_eq_getElem, this]

theorem fwdLookup_fwdWrite (m : Mapping) (s t : Symbol) (c : Code) :
    fwdLookup (fwdWrite m s c) t = if t = s then some c else fwdLookup m t := by
  by_cases h : t = s
  · simp [h]
  · rw [fwdLookup_fwdWrite_ne m c (Ne.symm h), if_neg h]

@[simp] theorem fwdLookup_empty (s : Symbol) : fwdLookup Mapping.empty s = none := by
  simp [fwdLookup, Mapping.empty, Vector.get_eq_getElem]

@[simp] theorem revLookup_empty (c : Code) : revLookup Mapping.empty c = none := rfl

@[simp] theorem fwdLookup_revWrite (m : Mapping) (s t : Symbol) (c : Code) :
    fwdLookup (revWrite m c s) t = fwdLookup m t := rfl

@[simp] theorem revLookup_fwdWrite (m : Mapping) (s : Symbol) (c d : Code) :
    revLookup (fwdWrite m s c) d = revLookup m d := rfl

theorem revFind_revPut (c d : Code) (s : Symbol) (es : List RevEntry) :
    revFind d (revPut c s es) = if d = c then some s else revFind d es := by
  induction es with
  | nil =>
    by_cases h : d = c
    · simp [revPut, revFind, h]
    · simp [revPut, revFind, h, Ne.symm h]
  | cons e es ih =>
    by_cases he : e.key = c
    · by_cases h : d = c
      · simp [revPut, revFind, he, h]
      · simp [revPut, revFind, he, h, Ne.symm h]
    · by_cases h : e.key = d
      · have : ¬ d = c := fun x => he (h.trans x)
        simp [revPut, revFind, h, this]
      · simp [revPut, revFind, he, h, ih]

theorem revLookup_revWrite (m : Mapping) (c d : Code) (s : Symbol) :
    revLookup (revWrite m c s) d = if d = c then some s else revLookup m d :=
  revFind_revPut c d s m.rev

/-- A key that is not stored is added behind the others (R154). -/
theorem revPut_of_none {c : Code} {es : List RevEntry} (s : Symbol) (h : revFind c es = none) :
    revPut c s es = es ++ [⟨c, s⟩] := by
  induction es with
  | nil => rfl
  | cons e es ih =>
    by_cases he : e.key = c
    · simp [revFind, he] at h
    · simp only [revFind, if_neg he] at h
      simp [revPut, he, ih h]

end Sys2Proof.Machine
end

