-- ==== Sys2Proof/Laws/State.lean ====
section
/-! SUPPORT. What each update of the state does to each field: true by rfl, so that no proof unfolds a record update. -/

namespace Sys2Proof.Machine

variable (s : State)

@[simp] theorem State.setMapping_cmd (m : Mapping) : (s.setMapping m).cmd = s.cmd := rfl
@[simp] theorem State.setMapping_inp (m : Mapping) : (s.setMapping m).inp = s.inp := rfl
@[simp] theorem State.setMapping_out (m : Mapping) : (s.setMapping m).out = s.out := rfl
@[simp] theorem State.setMapping_mapping (m : Mapping) : (s.setMapping m).mapping = m := rfl
@[simp] theorem State.setMapping_scratch (m : Mapping) : (s.setMapping m).scratch = s.scratch := rfl
@[simp] theorem State.setMapping_engine (m : Mapping) : (s.setMapping m).engine = s.engine := rfl
@[simp] theorem State.setMapping_status (m : Mapping) : (s.setMapping m).status = s.status := rfl
@[simp] theorem State.setMapping_draws (m : Mapping) : (s.setMapping m).draws = s.draws := rfl

@[simp] theorem State.setScratch_cmd (x : Scratch) : (s.setScratch x).cmd = s.cmd := rfl
@[simp] theorem State.setScratch_inp (x : Scratch) : (s.setScratch x).inp = s.inp := rfl
@[simp] theorem State.setScratch_out (x : Scratch) : (s.setScratch x).out = s.out := rfl
@[simp] theorem State.setScratch_mapping (x : Scratch) : (s.setScratch x).mapping = s.mapping := rfl
@[simp] theorem State.setScratch_scratch (x : Scratch) : (s.setScratch x).scratch = x := rfl
@[simp] theorem State.setScratch_engine (x : Scratch) : (s.setScratch x).engine = s.engine := rfl
@[simp] theorem State.setScratch_status (x : Scratch) : (s.setScratch x).status = s.status := rfl
@[simp] theorem State.setScratch_draws (x : Scratch) : (s.setScratch x).draws = s.draws := rfl

@[simp] theorem State.setEngine_cmd (e : Engine) : (s.setEngine e).cmd = s.cmd := rfl
@[simp] theorem State.setEngine_inp (e : Engine) : (s.setEngine e).inp = s.inp := rfl
@[simp] theorem State.setEngine_out (e : Engine) : (s.setEngine e).out = s.out := rfl
@[simp] theorem State.setEngine_mapping (e : Engine) : (s.setEngine e).mapping = s.mapping := rfl
@[simp] theorem State.setEngine_scratch (e : Engine) : (s.setEngine e).scratch = s.scratch := rfl
@[simp] theorem State.setEngine_engine (e : Engine) : (s.setEngine e).engine = e := rfl
@[simp] theorem State.setEngine_status (e : Engine) : (s.setEngine e).status = s.status := rfl
@[simp] theorem State.setEngine_draws (e : Engine) : (s.setEngine e).draws = s.draws := rfl

@[simp] theorem State.setStatus_cmd (t : Status) : (s.setStatus t).cmd = s.cmd := rfl
@[simp] theorem State.setStatus_inp (t : Status) : (s.setStatus t).inp = s.inp := rfl
@[simp] theorem State.setStatus_out (t : Status) : (s.setStatus t).out = s.out := rfl
@[simp] theorem State.setStatus_mapping (t : Status) : (s.setStatus t).mapping = s.mapping := rfl
@[simp] theorem State.setStatus_scratch (t : Status) : (s.setStatus t).scratch = s.scratch := rfl
@[simp] theorem State.setStatus_engine (t : Status) : (s.setStatus t).engine = s.engine := rfl
@[simp] theorem State.setStatus_status (t : Status) : (s.setStatus t).status = t := rfl
@[simp] theorem State.setStatus_draws (t : Status) : (s.setStatus t).draws = s.draws := rfl

@[simp] theorem State.setInp_cmd (bs : List Beat) : (s.setInp bs).cmd = s.cmd := rfl
@[simp] theorem State.setInp_inp (bs : List Beat) : (s.setInp bs).inp = bs := rfl
@[simp] theorem State.setInp_out (bs : List Beat) : (s.setInp bs).out = s.out := rfl
@[simp] theorem State.setInp_mapping (bs : List Beat) : (s.setInp bs).mapping = s.mapping := rfl
@[simp] theorem State.setInp_scratch (bs : List Beat) : (s.setInp bs).scratch = s.scratch := rfl
@[simp] theorem State.setInp_engine (bs : List Beat) : (s.setInp bs).engine = s.engine := rfl
@[simp] theorem State.setInp_status (bs : List Beat) : (s.setInp bs).status = s.status := rfl
@[simp] theorem State.setInp_draws (bs : List Beat) : (s.setInp bs).draws = s.draws := rfl

@[simp] theorem State.setCmd_cmd (ws : List CmdWord) : (s.setCmd ws).cmd = ws := rfl
@[simp] theorem State.setCmd_inp (ws : List CmdWord) : (s.setCmd ws).inp = s.inp := rfl
@[simp] theorem State.setCmd_out (ws : List CmdWord) : (s.setCmd ws).out = s.out := rfl
@[simp] theorem State.setCmd_mapping (ws : List CmdWord) : (s.setCmd ws).mapping = s.mapping := rfl
@[simp] theorem State.setCmd_scratch (ws : List CmdWord) : (s.setCmd ws).scratch = s.scratch := rfl
@[simp] theorem State.setCmd_engine (ws : List CmdWord) : (s.setCmd ws).engine = s.engine := rfl
@[simp] theorem State.setCmd_status (ws : List CmdWord) : (s.setCmd ws).status = s.status := rfl
@[simp] theorem State.setCmd_draws (ws : List CmdWord) : (s.setCmd ws).draws = s.draws := rfl

@[simp] theorem State.pushOut_cmd (bs : List Beat) : (s.pushOut bs).cmd = s.cmd := rfl
@[simp] theorem State.pushOut_inp (bs : List Beat) : (s.pushOut bs).inp = s.inp := rfl
@[simp] theorem State.pushOut_out (bs : List Beat) : (s.pushOut bs).out = s.out ++ bs := rfl
@[simp] theorem State.pushOut_mapping (bs : List Beat) : (s.pushOut bs).mapping = s.mapping := rfl
@[simp] theorem State.pushOut_scratch (bs : List Beat) : (s.pushOut bs).scratch = s.scratch := rfl
@[simp] theorem State.pushOut_engine (bs : List Beat) : (s.pushOut bs).engine = s.engine := rfl
@[simp] theorem State.pushOut_status (bs : List Beat) : (s.pushOut bs).status = s.status := rfl
@[simp] theorem State.pushOut_draws (bs : List Beat) : (s.pushOut bs).draws = s.draws := rfl

@[simp] theorem State.pushItems_cmd (ds : List Byte) : (s.pushItems ds).cmd = s.cmd := rfl
@[simp] theorem State.pushItems_inp (ds : List Byte) : (s.pushItems ds).inp = s.inp := rfl
@[simp] theorem State.pushItems_out (ds : List Byte) : (s.pushItems ds).out = s.out ++ ds.map itemBeat := rfl
@[simp] theorem State.pushItems_mapping (ds : List Byte) : (s.pushItems ds).mapping = s.mapping := rfl
@[simp] theorem State.pushItems_scratch (ds : List Byte) : (s.pushItems ds).scratch = s.scratch := rfl
@[simp] theorem State.pushItems_engine (ds : List Byte) : (s.pushItems ds).engine = s.engine := rfl
@[simp] theorem State.pushItems_status (ds : List Byte) : (s.pushItems ds).status = s.status := rfl
@[simp] theorem State.pushItems_draws (ds : List Byte) : (s.pushItems ds).draws = s.draws := rfl

@[simp] theorem State.acceptWord_cmd (w : CmdWord) (ws : List CmdWord) : (s.acceptWord w ws).cmd = ws := rfl
@[simp] theorem State.acceptWord_inp (w : CmdWord) (ws : List CmdWord) : (s.acceptWord w ws).inp = s.inp := rfl
@[simp] theorem State.acceptWord_out (w : CmdWord) (ws : List CmdWord) : (s.acceptWord w ws).out = s.out := rfl
@[simp] theorem State.acceptWord_mapping (w : CmdWord) (ws : List CmdWord) : (s.acceptWord w ws).mapping = s.mapping := rfl
@[simp] theorem State.acceptWord_scratch (w : CmdWord) (ws : List CmdWord) : (s.acceptWord w ws).scratch = s.scratch := rfl
@[simp] theorem State.acceptWord_engine (w : CmdWord) (ws : List CmdWord) : (s.acceptWord w ws).engine = s.engine := rfl
@[simp] theorem State.acceptWord_status (w : CmdWord) (ws : List CmdWord) : (s.acceptWord w ws).status = { s.status with busy := true, op := wordOpc w } := rfl
@[simp] theorem State.acceptWord_draws (w : CmdWord) (ws : List CmdWord) : (s.acceptWord w ws).draws = s.draws := rfl

@[simp] theorem State.endCommand_cmd (c : ResultCode) (i p : RegWord) : (s.endCommand c i p).cmd = s.cmd := rfl
@[simp] theorem State.endCommand_inp (c : ResultCode) (i p : RegWord) : (s.endCommand c i p).inp = s.inp := rfl
@[simp] theorem State.endCommand_out (c : ResultCode) (i p : RegWord) : (s.endCommand c i p).out = s.out ++ [responseBeat c] := rfl
@[simp] theorem State.endCommand_mapping (c : ResultCode) (i p : RegWord) : (s.endCommand c i p).mapping = s.mapping := rfl
@[simp] theorem State.endCommand_scratch (c : ResultCode) (i p : RegWord) : (s.endCommand c i p).scratch = s.scratch := rfl
@[simp] theorem State.endCommand_engine (c : ResultCode) (i p : RegWord) : (s.endCommand c i p).engine = s.engine := rfl
@[simp] theorem State.endCommand_status (c : ResultCode) (i p : RegWord) : (s.endCommand c i p).status = { s.status with busy := false, err := c, errInfo := i, errPos := p } := rfl
@[simp] theorem State.endCommand_draws (c : ResultCode) (i p : RegWord) : (s.endCommand c i p).draws = s.draws := rfl

@[simp] theorem State.raise_cmd (c : ResultCode) (i p : RegWord) : (s.raise c i p).cmd = s.cmd := rfl
@[simp] theorem State.raise_inp (c : ResultCode) (i p : RegWord) : (s.raise c i p).inp = s.inp := rfl
@[simp] theorem State.raise_out (c : ResultCode) (i p : RegWord) : (s.raise c i p).out = s.out ++ [responseBeat c] := rfl
@[simp] theorem State.raise_mapping (c : ResultCode) (i p : RegWord) : (s.raise c i p).mapping = s.mapping := rfl
@[simp] theorem State.raise_scratch (c : ResultCode) (i p : RegWord) : (s.raise c i p).scratch = s.scratch := rfl
@[simp] theorem State.raise_engine (c : ResultCode) (i p : RegWord) : (s.raise c i p).engine = s.engine := rfl
@[simp] theorem State.raise_status (c : ResultCode) (i p : RegWord) : (s.raise c i p).status = { s.status with busy := false, err := c, errInfo := i, errPos := p } := rfl
@[simp] theorem State.raise_draws (c : ResultCode) (i p : RegWord) : (s.raise c i p).draws = s.draws := rfl

@[simp] theorem State.respondOk_cmd : (s.respondOk).cmd = s.cmd := rfl
@[simp] theorem State.respondOk_inp : (s.respondOk).inp = s.inp := rfl
@[simp] theorem State.respondOk_out : (s.respondOk).out = s.out ++ [responseBeat .ok] := rfl
@[simp] theorem State.respondOk_mapping : (s.respondOk).mapping = s.mapping := rfl
@[simp] theorem State.respondOk_scratch : (s.respondOk).scratch = s.scratch := rfl
@[simp] theorem State.respondOk_engine : (s.respondOk).engine = s.engine := rfl
@[simp] theorem State.respondOk_status : (s.respondOk).status = { s.status with busy := false, err := .ok, errInfo := 0#32, errPos := 0#32 } := rfl
@[simp] theorem State.respondOk_draws : (s.respondOk).draws = s.draws := rfl

@[simp] theorem State.draw_cmd : (s.draw).cmd = s.cmd := rfl
@[simp] theorem State.draw_inp : (s.draw).inp = s.inp := rfl
@[simp] theorem State.draw_out : (s.draw).out = s.out := rfl
@[simp] theorem State.draw_mapping : (s.draw).mapping = s.mapping := rfl
@[simp] theorem State.draw_scratch : (s.draw).scratch = s.scratch := rfl
@[simp] theorem State.draw_engine : (s.draw).engine = s.engine := rfl
@[simp] theorem State.draw_status : (s.draw).status = s.status := rfl
@[simp] theorem State.draw_draws : (s.draw).draws = s.draws + 1 := rfl

@[simp] theorem State.forgetScratch_cmd : (s.forgetScratch).cmd = s.cmd := rfl
@[simp] theorem State.forgetScratch_inp : (s.forgetScratch).inp = s.inp := rfl
@[simp] theorem State.forgetScratch_out : (s.forgetScratch).out = s.out := rfl
@[simp] theorem State.forgetScratch_mapping : (s.forgetScratch).mapping = s.mapping := rfl
@[simp] theorem State.forgetScratch_scratch : (s.forgetScratch).scratch = Config.freeValue Scratch s.draws := rfl
@[simp] theorem State.forgetScratch_engine : (s.forgetScratch).engine = s.engine := rfl
@[simp] theorem State.forgetScratch_status : (s.forgetScratch).status = s.status := rfl
@[simp] theorem State.forgetScratch_draws : (s.forgetScratch).draws = s.draws + 1 := rfl

@[simp] theorem State.forgetEngine_cmd : (s.forgetEngine).cmd = s.cmd := rfl
@[simp] theorem State.forgetEngine_inp : (s.forgetEngine).inp = s.inp := rfl
@[simp] theorem State.forgetEngine_out : (s.forgetEngine).out = s.out := rfl
@[simp] theorem State.forgetEngine_mapping : (s.forgetEngine).mapping = s.mapping := rfl
@[simp] theorem State.forgetEngine_scratch : (s.forgetEngine).scratch = s.scratch := rfl
@[simp] theorem State.forgetEngine_engine : (s.forgetEngine).engine = Config.freeValue Engine s.draws := rfl
@[simp] theorem State.forgetEngine_status : (s.forgetEngine).status = s.status := rfl
@[simp] theorem State.forgetEngine_draws : (s.forgetEngine).draws = s.draws + 1 := rfl

end Sys2Proof.Machine
end

