-- ==== Sys2Proof/Laws/Frames.lean ====
section
/-! SUPPORT. The input loop over a complete and over an incomplete frame, and what one item of each command leaves alone. -/

namespace Sys2Proof.Machine

/-! ### The input loop -/

/-- Over a complete frame the loop runs its body on every item and leaves what stands behind the frame in IN (R88). -/
theorem runFrame_complete (body : Byte → State → State) {bs rest : List Beat} {items : List Byte} (s : State)
    (h : takeFrame bs = some (items, rest)) :
    runFrame body bs s = (true, (items.foldl (fun t d => body d t) s).setInp rest) := by
  obtain ⟨d, rfl⟩ := eq_of_takeFrame_some h
  clear h
  induction items generalizing s with
  | nil => rfl
  | cons a items ih => exact ih (body a s)

/-- Over an incomplete frame the loop runs its body on every item there is and empties IN (R263). -/
theorem runFrame_incomplete (body : Byte → State → State) {bs : List Beat} (s : State) (h : takeFrame bs = none) :
    runFrame body bs s = (false, ((bs.map Beat.data).foldl (fun t d => body d t) s).setInp []) := by
  have key : ∀ (items : List Byte) (t : State),
      runFrame body (items.map itemBeat) t = (false, (items.foldl (fun t d => body d t) t).setInp []) := by
    intro items
    induction items with
    | nil => intro t; rfl
    | cons a items ih => intro t; exact ih (body a t)
  rw [eq_of_takeFrame_none h, key]
  simp [itemBeat, Function.comp_def]

/-- A command over a complete frame ends. -/
theorem overFrame_complete (body : Byte → State → State) (finish : State → State) {s : State} {items : List Byte}
    {rest : List Beat} (h : takeFrame s.inp = some (items, rest)) :
    overFrame body finish s = .next (finish ((items.foldl (fun t d => body d t) s).setInp rest)) := by
  simp [overFrame, runFrame_complete body s h]

/-- A command over an incomplete frame waits. -/
theorem overFrame_incomplete (body : Byte → State → State) (finish : State → State) {s : State}
    (h : takeFrame s.inp = none) :
    overFrame body finish s = .next (((s.inp.map Beat.data).foldl (fun t d => body d t) s).setInp []) := by
  simp [overFrame, runFrame_incomplete body s h]

/-- What a property of states needs to hold of every outcome of a command over a frame: that every item keeps it and
that popping IN and finishing do. -/
theorem overFrame_induct {P Q : State → Prop} {body : Byte → State → State} {finish : State → State} {s t : State}
    (h : overFrame body finish s = .next t) (h0 : P s) (hbody : ∀ d u, P u → P (body d u))
    (hdone : ∀ u rest, P u → rest <:+ s.inp → Q (finish (u.setInp rest)))
    (hwait : ∀ u, P u → Q (u.setInp [])) : Q t := by
  have fold : ∀ (items : List Byte) (u : State), P u → P (items.foldl (fun t d => body d t) u) := by
    intro items
    induction items with
    | nil => exact fun u hu => hu
    | cons a items ih => exact fun u hu => ih _ (hbody a u hu)
  cases hf : takeFrame s.inp with
  | none =>
    rw [overFrame_incomplete body finish hf] at h
    obtain rfl := Host.Outcome.next.inj h
    exact hwait _ (fold _ _ h0)
  | some p =>
    obtain ⟨items, rest⟩ := p
    rw [overFrame_complete body finish hf] at h
    obtain rfl := Host.Outcome.next.inj h
    exact hdone _ _ (fold _ _ h0) (takeFrame_rest_suffix hf)

/-- An item body that leaves a field alone leaves it alone over a whole sequence. -/
theorem foldl_preserves {α : Type} (f : State → α) {body : Byte → State → State} (h : ∀ d s, f (body d s) = f s)
    (items : List Byte) (s : State) : f (items.foldl (fun t d => body d t) s) = f s := by
  induction items generalizing s with
  | nil => rfl
  | cons a items ih => exact (ih _).trans (h a s)

/-- An item body that does not look at IN may have IN exchanged under it. -/
theorem foldl_setInp {body : Byte → State → State} (h : ∀ d s bs, body d (s.setInp bs) = (body d s).setInp bs)
    (items : List Byte) (s : State) (bs : List Beat) :
    items.foldl (fun t d => body d t) (s.setInp bs) = (items.foldl (fun t d => body d t) s).setInp bs := by
  induction items generalizing s with
  | nil => rfl
  | cons a items ih => simp only [List.foldl_cons, h, ih]

/-! ### Items of BUILD (R113) -/

theorem buildItem_frame (d : Byte) (s : State) :
    (buildItem d s).cmd = s.cmd ∧ (buildItem d s).inp = s.inp ∧ (buildItem d s).out = s.out ∧
    (buildItem d s).mapping = s.mapping ∧ (buildItem d s).engine = s.engine ∧ (buildItem d s).status = s.status ∧
    (buildItem d s).draws = s.draws ∧ (buildItem d s).scratch = countItem d s.scratch :=
  ⟨rfl, rfl, rfl, rfl, rfl, rfl, rfl, rfl⟩

theorem buildItem_setInp (d : Byte) (s : State) (bs : List Beat) :
    buildItem d (s.setInp bs) = (buildItem d s).setInp bs := rfl

/-- A sequence of items counts into the scratch state and does nothing else. -/
theorem foldl_buildItem (items : List Byte) (s : State) :
    items.foldl (fun t d => buildItem d t) s = s.setScratch (items.foldl (fun x d => countItem d x) s.scratch) := by
  induction items generalizing s with
  | nil => rfl
  | cons a items ih => simp only [List.foldl_cons, ih]; rfl

/-- Phases 2 and 3 and the commit write scratch and mapping state only (R110). -/
theorem buildMapping_writes (s : State) : ∃ x m, buildMapping s = (s.setScratch x).setMapping m := ⟨_, _, rfl⟩

/-- What ending a BUILD writes besides mapping, scratch state and draws: BUSY, the result, the response beat. -/
theorem finishBuild_frame (s : State) :
    (finishBuild s).cmd = s.cmd ∧ (finishBuild s).inp = s.inp ∧ (finishBuild s).engine = s.engine ∧
    (finishBuild s).status.op = s.status.op ∧ (finishBuild s).status.busy = false ∧
    (finishBuild s).out = s.out ++ [responseBeat (finishBuild s).status.err] := by
  unfold finishBuild endBuild
  split
  · exact ⟨rfl, rfl, rfl, rfl, rfl, rfl⟩
  · split
    · exact ⟨rfl, rfl, rfl, rfl, rfl, rfl⟩
    · obtain ⟨x, m, h⟩ := buildMapping_writes s
      rw [h]
      exact ⟨rfl, rfl, rfl, rfl, rfl, rfl⟩

/-! ### Items of ENCODE (R170) -/

/-- What ENCODE does with one item, its three cases. -/
theorem encodeItem_cases (d : Byte) (s : State) :
    (s.engine.failed = true ∧ encodeItem d s = advancePos s) ∨
    (s.engine.failed = false ∧ fwdLookup s.mapping d = none ∧ encodeItem d s = advancePos (noteAbsent d s)) ∨
    (∃ c, s.engine.failed = false ∧ fwdLookup s.mapping d = some c ∧
      encodeItem d s = advancePos (s.pushItems (codeChars c))) := by
  cases hf : s.engine.failed with
  | true => exact .inl ⟨rfl, by simp [encodeItem, encodeSymbol, hf]⟩
  | false =>
    cases hl : fwdLookup s.mapping d with
    | none => exact .inr (.inl ⟨rfl, rfl, by simp [encodeItem, encodeSymbol, symbolOf, hf, hl]⟩)
    | some c => exact .inr (.inr ⟨c, rfl, rfl, by simp [encodeItem, encodeSymbol, symbolOf, hf, hl]⟩)

theorem encodeItem_frame (d : Byte) (s : State) :
    (encodeItem d s).cmd = s.cmd ∧ (encodeItem d s).inp = s.inp ∧ (encodeItem d s).mapping = s.mapping ∧
    (encodeItem d s).scratch = s.scratch ∧ (encodeItem d s).status = s.status ∧
    (encodeItem d s).draws = s.draws ∧ (encodeItem d s).engine.pos = s.engine.pos + 1#32 ∧
    ∃ chars : List Byte, (encodeItem d s).out = s.out ++ chars.map itemBeat ∧ ∀ x ∈ chars, ∃ b, x = chr b := by
  obtain ⟨-, h⟩ | ⟨-, -, h⟩ | ⟨c, -, -, h⟩ := encodeItem_cases d s <;> rw [h]
  · exact ⟨rfl, rfl, rfl, rfl, rfl, rfl, rfl, [], by simp [advancePos], by simp⟩
  · exact ⟨rfl, rfl, rfl, rfl, rfl, rfl, rfl, [], by simp [advancePos, noteAbsent], by simp⟩
  · refine ⟨rfl, rfl, rfl, rfl, rfl, rfl, rfl, codeChars c, rfl, fun x hx => ?_⟩
    obtain ⟨b, -, rfl⟩ := List.mem_map.mp hx
    exact ⟨b, rfl⟩

theorem encodeItem_setInp (d : Byte) (s : State) (bs : List Beat) :
    encodeItem d (s.setInp bs) = (encodeItem d s).setInp bs := by
  cases hf : s.engine.failed <;> cases hl : fwdLookup s.mapping (symbolOf d) <;>
    simp only [encodeItem, encodeSymbol, State.setInp_engine, State.setInp_mapping, hf, hl] <;> rfl

/-- What ending an ENCODE writes besides engine state and draws. -/
theorem finishEncode_frame (s : State) :
    (finishEncode s).cmd = s.cmd ∧ (finishEncode s).inp = s.inp ∧ (finishEncode s).mapping = s.mapping ∧
    (finishEncode s).scratch = s.scratch ∧ (finishEncode s).status.op = s.status.op ∧
    (finishEncode s).status.busy = false ∧
    (finishEncode s).out = s.out ++ [responseBeat (finishEncode s).status.err] := by
  unfold finishEncode endEncode
  split <;> exact ⟨rfl, rfl, rfl, rfl, rfl, rfl, rfl⟩

/-! ### Items of DECODE (R185) -/

@[simp] theorem candidate_setCandidate (c : Code) (e : Engine) : candidate (setCandidate c e) = c := rfl

/-- What DECODE does with one item, its cases: ignored once poisoned, poisoned now, appended without a match, matched. -/
theorem decodeItem_cases (d : Byte) (s : State) :
    (s.engine.poison = true ∧ decodeItem d s = advancePos s) ∨
    (s.engine.poison = false ∧ (charBit d = none ∨ s.engine.buflen = s.mapping.maxlen) ∧
      decodeItem d s = advancePos (setPoison s)) ∨
    (∃ b, s.engine.poison = false ∧ charBit d = some b ∧ s.engine.buflen ≠ s.mapping.maxlen ∧
      revLookup s.mapping (codeSnoc (candidate s.engine) b) = none ∧
      decodeItem d s = advancePos (s.setEngine (setCandidate (codeSnoc (candidate s.engine) b) s.engine))) ∨
    (∃ b sym, s.engine.poison = false ∧ charBit d = some b ∧ s.engine.buflen ≠ s.mapping.maxlen ∧
      revLookup s.mapping (codeSnoc (candidate s.engine) b) = some sym ∧
      decodeItem d s = advancePos (emitMatch sym
        (s.setEngine (setCandidate (codeSnoc (candidate s.engine) b) s.engine)))) := by
  cases hp : s.engine.poison with
  | true => exact .inl ⟨rfl, by simp [decodeItem, decodeChar, hp]⟩
  | false =>
    refine .inr ?_
    cases hb : charBit d with
    | none => exact .inl ⟨rfl, .inl rfl, by simp [decodeItem, decodeChar, hp, hb]⟩
    | some b =>
      by_cases hm : s.engine.buflen = s.mapping.maxlen
      · exact .inl ⟨rfl, .inr hm, by simp [decodeItem, decodeChar, hp, hb, hm]⟩
      · refine .inr ?_
        have hitem : decodeItem d s = advancePos (appendBit b s) := by simp [decodeItem, decodeChar, hp, hb, hm]
        cases hr : revLookup s.mapping (codeSnoc (candidate s.engine) b) with
        | none =>
          exact .inl ⟨b, rfl, rfl, hm, hr, hitem.trans (by simp [appendBit, hr])⟩
        | some sym =>
          exact .inr ⟨b, sym, rfl, rfl, hm, hr, hitem.trans (by simp [appendBit, hr])⟩

theorem decodeItem_frame (d : Byte) (s : State) :
    (decodeItem d s).cmd = s.cmd ∧ (decodeItem d s).inp = s.inp ∧ (decodeItem d s).mapping = s.mapping ∧
    (decodeItem d s).scratch = s.scratch ∧ (decodeItem d s).status = s.status ∧
    (decodeItem d s).draws = s.draws ∧ (decodeItem d s).engine.pos = s.engine.pos + 1#32 ∧
    ∃ syms : List Symbol, syms.length ≤ 1 ∧ (decodeItem d s).out = s.out ++ syms.map itemBeat := by
  obtain ⟨-, h⟩ | ⟨-, -, h⟩ | ⟨b, -, -, -, -, h⟩ | ⟨b, sym, -, -, -, -, h⟩ := decodeItem_cases d s <;> rw [h]
  · exact ⟨rfl, rfl, rfl, rfl, rfl, rfl, rfl, [], by simp, by simp [advancePos]⟩
  · exact ⟨rfl, rfl, rfl, rfl, rfl, rfl, rfl, [], by simp, by simp [advancePos, setPoison]⟩
  · exact ⟨rfl, rfl, rfl, rfl, rfl, rfl, rfl, [], by simp, by simp [advancePos]⟩
  · exact ⟨rfl, rfl, rfl, rfl, rfl, rfl, rfl, [sym], by simp, rfl⟩

theorem decodeItem_setInp (d : Byte) (s : State) (bs : List Beat) :
    decodeItem d (s.setInp bs) = (decodeItem d s).setInp bs := by
  cases hp : s.engine.poison with
  | true => simp only [decodeItem, decodeChar, State.setInp_engine, hp]; rfl
  | false =>
    cases hb : charBit d with
    | none => simp only [decodeItem, decodeChar, State.setInp_engine, hp, hb]; rfl
    | some b =>
      by_cases hm : s.engine.buflen = s.mapping.maxlen
      · simp only [decodeItem, decodeChar, State.setInp_engine, State.setInp_mapping, hp, hb, hm]; rfl
      · cases hr : revLookup s.mapping (codeSnoc (candidate s.engine) b) <;>
          simp only [decodeItem, decodeChar, appendBit, State.setInp_engine, State.setInp_mapping,
            State.setEngine_engine, State.setEngine_mapping, candidate_setCandidate, hp, hb, hm, hr] <;> rfl

/-- What ending a DECODE writes besides engine state and draws. -/
theorem finishDecode_frame (s : State) :
    (finishDecode s).cmd = s.cmd ∧ (finishDecode s).inp = s.inp ∧ (finishDecode s).mapping = s.mapping ∧
    (finishDecode s).scratch = s.scratch ∧ (finishDecode s).status.op = s.status.op ∧
    (finishDecode s).status.busy = false ∧
    (finishDecode s).out = s.out ++ [responseBeat (finishDecode s).status.err] := by
  unfold finishDecode endDecode
  split <;> exact ⟨rfl, rfl, rfl, rfl, rfl, rfl, rfl⟩

theorem foldl_ignoreItem (items : List Byte) (s : State) :
    items.foldl (fun t d => ignoreItem d t) s = s := by
  induction items with
  | nil => rfl
  | cons a items ih => exact ih

end Sys2Proof.Machine
end

