-- ==== Sys2Proof/Laws/Step.lean ====
section
/-! SUPPORT. What the decoder, exec and step can do, each said once. -/

namespace Sys2Proof.Machine

/-- A command word is one of the four exactly when its low byte names one and the rest is 0 (R82). -/
theorem decode_eq_ok_iff (w : CmdWord) (i : Instr) :
    decode w = .ok i ↔ wordRsvd w = 0#24 ∧ opcodeInstr (wordOpc w) = some i := by
  unfold decode
  by_cases h : wordRsvd w = 0#24
  · cases ho : opcodeInstr (wordOpc w) <;> simp [h]
  · simp [h]

/-- The operation code a command's word leaves in OP names that command (R36, R81). -/
theorem opcodeInstr_eq_some_iff (b : BitVec 8) (i : Instr) : opcodeInstr b = some i ↔ b = instrOpc i := by
  refine ⟨fun h => ?_, fun h => by subst h; cases i <;> rfl⟩
  unfold opcodeInstr at h
  repeat' split at h
  all_goals first | (simp only [Option.some.injEq] at h; subst h; assumption) | simp at h

/-- The meanings of ENCODE and DECODE once VALID is known (R172, R187). -/
theorem execEncode_valid {s : State} (h : s.mapping.valid = true) :
    exec .encode s = overFrame encodeItem finishEncode
      (s.setEngine { s.engine with pos := 0#32, failed := false }) := by
  simp [exec, execEncode, startEncode, continueEncode, h]

theorem execEncode_invalid {s : State} (h : s.mapping.valid = false) :
    exec .encode s = overFrame ignoreItem refuseEmpty s := by
  simp [exec, execEncode, startEncode, continueEncode, h]

theorem execDecode_valid {s : State} (h : s.mapping.valid = true) :
    exec .decode s = overFrame decodeItem finishDecode
      (s.setEngine { s.engine with buf := 0#255, buflen := 0#8, poison := false, start := 0#32, pos := 0#32 }) := by
  simp [exec, execDecode, startDecode, continueDecode, h]

theorem execDecode_invalid {s : State} (h : s.mapping.valid = false) :
    exec .decode s = overFrame ignoreItem refuseEmpty s := by
  simp [exec, execDecode, startDecode, continueDecode, h]

/-- BUILD over a complete frame: the count of the frame, then the end of BUILD (R110). -/
theorem execBuild_complete {s : State} {items : List Byte} {rest : List Beat}
    (h : takeFrame s.inp = some (items, rest)) :
    exec .build s = .next (finishBuild
      (((s.setMapping Mapping.empty).setScratch (countFrequencies items s.scratch)).setInp rest)) := by
  have h' : takeFrame (startBuild s).inp = some (items, rest) := h
  change overFrame buildItem finishBuild (startBuild s) = _
  rw [overFrame_complete _ _ h', foldl_buildItem]
  rfl

/-- BUILD over an incomplete frame: the count so far (R263). -/
theorem execBuild_incomplete {s : State} (h : takeFrame s.inp = none) :
    exec .build s = .next
      (((s.setMapping Mapping.empty).setScratch (countFrequencies (s.inp.map Beat.data) s.scratch)).setInp []) := by
  have h' : takeFrame (startBuild s).inp = none := h
  change overFrame buildItem finishBuild (startBuild s) = _
  rw [overFrame_incomplete _ _ h', foldl_buildItem]
  rfl

/-- Every step that answers a next state took a word and ran its command, raised for an illegal word, or went on with a
waiting command (R21). -/
theorem step_cases {s t : State} (h : step s = .next t) :
    (∃ w rest i, s.status.busy = false ∧ s.cmd = w :: rest ∧ decode w = .ok i ∧
      exec i (s.acceptWord w rest) = .next t) ∨
    (∃ w rest e, s.status.busy = false ∧ s.cmd = w :: rest ∧ decode w = .error e ∧
      t = (s.acceptWord w rest).raise .illegalCommand w 0#32) ∨
    (s.status.busy = true ∧ s.inp ≠ [] ∧
      ((s.status.op = 0x01#8 ∧ continueBuild s = .next t) ∨ (s.status.op = 0x02#8 ∧ continueEncode s = .next t) ∨
        (s.status.op = 0x03#8 ∧ continueDecode s = .next t))) := by
  unfold step coreStep at h
  cases hb : s.status.busy with
  | true =>
    rw [hb, if_pos rfl] at h
    unfold resume at h
    cases hi : s.inp with
    | nil => simp [hi] at h
    | cons b bs =>
      simp only [hi] at h
      unfold continueCommand at h
      refine .inr (.inr ⟨rfl, by simp, ?_⟩)
      split at h
      · exact .inl ⟨(opcodeInstr_eq_some_iff _ _).mp ‹_›, h⟩
      · exact .inr (.inl ⟨(opcodeInstr_eq_some_iff _ _).mp ‹_›, h⟩)
      · exact .inr (.inr ⟨(opcodeInstr_eq_some_iff _ _).mp ‹_›, h⟩)
      · simp at h
      · simp at h
  | false =>
    rw [hb] at h
    simp only [Bool.false_eq_true, if_false] at h
    unfold startNext at h
    cases hc : s.cmd with
    | nil => simp [hc] at h
    | cons w rest =>
      simp only [hc] at h
      unfold runWord at h
      cases hd : decode w with
      | ok i => exact .inl ⟨w, rest, i, rfl, rfl, hd, by simpa [hd] using h⟩
      | error e =>
        simp only [hd] at h
        exact .inr (.inl ⟨w, rest, e, rfl, rfl, hd, (Host.Outcome.next.inj h).symm⟩)

end Sys2Proof.Machine
end

