-- ==== Sys2Proof/Laws/Mapping.lean ====
section
/-! SUPPORT. The mapping invariant of R32 for the empty mapping and for a mapping of one symbol, and the states made of
them: what the witnesses of the statements are built from. -/

namespace Sys2Proof.Machine

theorem mem_allSymbols (s : Symbol) : s ∈ allSymbols := by
  refine List.mem_map.mpr ⟨s.toNat, List.mem_range.mpr s.isLt, ?_⟩
  simp

theorem mem_presentSymbols (m : Mapping) (s : Symbol) : s ∈ presentSymbols m ↔ (fwdLookup m s).isSome = true := by
  simp [presentSymbols, mem_allSymbols]

/-- The empty mapping meets R32. -/
theorem mappingOk_empty : MappingOk Mapping.empty where
  codesWellFormed := by simp
  inverse := by simp
  prefixFree := by simp
  validIffPresent := by simp [Mapping.empty, fwdLookup, Vector.get_eq_getElem]
  nsymCounts := by simp [presentSymbols]; rfl
  revSize := rfl
  maxlenBounds := by simp
  maxlenReached := fun h => absurd h (by simp [Mapping.empty])
  zeroWhenInvalid := fun _ => ⟨rfl, rfl, rfl⟩

/-- The mapping of one symbol: its code is "0" (R153). -/
def loneMapping (a : Symbol) (n : Weight) : Mapping :=
  { revWrite (fwdWrite Mapping.empty a loneCode) loneCode a with
    valid := true, nsym := 1#9, total := n, maxlen := 1#8 }

theorem fwdLookup_loneMapping (a s : Symbol) (n : Weight) :
    fwdLookup (loneMapping a n) s = if s = a then some loneCode else none := by
  have h : fwdLookup (loneMapping a n) s = fwdLookup (fwdWrite Mapping.empty a loneCode) s := rfl
  rw [h, fwdLookup_fwdWrite, fwdLookup_empty]

theorem revLookup_loneMapping (a : Symbol) (n : Weight) (c : Code) :
    revLookup (loneMapping a n) c = if c = loneCode then some a else none := by
  have h : revLookup (loneMapping a n) c = revLookup (revWrite (fwdWrite Mapping.empty a loneCode) loneCode a) c := rfl
  rw [h, revLookup_revWrite, revLookup_fwdWrite, revLookup_empty]

/-- The symbols present in a mapping of one symbol: that one. -/
theorem presentSymbols_loneMapping (a : Symbol) (n : Weight) : presentSymbols (loneMapping a n) = [a] := by
  have h : presentSymbols (loneMapping a n) = allSymbols.filter (fun s => s == a) := by
    refine List.filter_congr fun s _ => ?_
    rw [fwdLookup_loneMapping]
    by_cases hs : s = a <;> simp [hs]
  have hnd : allSymbols.Nodup := by
    refine List.Nodup.map_on (fun x hx y hy hxy => ?_) List.nodup_range
    have := congrArg BitVec.toNat hxy
    simp only [BitVec.toNat_ofNat, List.mem_range] at this hx hy
    omega
  rw [h, List.filter_beq, List.count_eq_one_of_mem hnd (mem_allSymbols a)]
  rfl

/-- A mapping of one symbol meets R32. -/
theorem mappingOk_loneMapping (a : Symbol) (n : Weight) : MappingOk (loneMapping a n) where
  codesWellFormed s c h := by
    rw [fwdLookup_loneMapping] at h
    split at h
    · obtain rfl := Option.some.inj h; decide
    · cases h
  inverse s c := by
    rw [fwdLookup_loneMapping, revLookup_loneMapping]
    by_cases hc : c = loneCode
    · by_cases hs : s = a
      · simp [hc, hs]
      · simp [hc, hs, Ne.symm hs]
    · by_cases hs : s = a
      · simp [hc, hs, Ne.symm hc]
      · simp [hc, hs]
  prefixFree s t c d hs ht hne := by
    rw [fwdLookup_loneMapping] at hs ht
    split at hs
    · split at ht
      · exact absurd (‹s = a›.trans ‹t = a›.symm) hne
      · cases ht
    · cases hs
  validIffPresent := ⟨fun _ => ⟨a, by simp [fwdLookup_loneMapping]⟩, fun _ => rfl⟩
  nsymCounts := by rw [presentSymbols_loneMapping]; rfl
  revSize := rfl
  maxlenBounds s c h := by
    rw [fwdLookup_loneMapping] at h
    split at h
    · obtain rfl := Option.some.inj h; exact (by decide : loneCode.len ≤ 1#8)
    · cases h
  maxlenReached _ := ⟨a, loneCode, by simp [fwdLookup_loneMapping], rfl⟩
  zeroWhenInvalid h := by cases h

/-- An idle state with nothing in OUT meets the invariant when its mapping does. -/
theorem inv_of_idle {s : State} (hm : MappingOk s.mapping) (hb : s.status.busy = false) (ho : s.out = []) : Inv s where
  mapping := hm
  waiting h := absurd h (by simp [hb])
  output b h := absurd h (by simp [ho])

/-- A BUILD that has just begun to wait meets the invariant. -/
theorem inv_of_buildWaits {s : State} (h : BuildWaits s) (ho : s.out = []) : Inv s where
  mapping := h.2.1 ▸ mappingOk_empty
  waiting _ := .inl h
  output b hb := absurd hb (by simp [ho])

end Sys2Proof.Machine
end

