-- ==== Sys2Proof/Laws/PerInstr.lean ====
section
/-! SUPPORT. What holds of every command as syntax: it is well formed, and so is its word (R80, R81, R92). -/

namespace Sys2Proof.Laws

/-- A command and its word are well formed, and the word's low byte is the command's operation code. -/
def EncodedWord.Statement (i : Instr) : Prop :=
  i.wellFormed = true ∧ CmdWord.wellFormed (encode i) = true ∧ wordOpc (encode i) = instrOpc i

theorem EncodedWord.build : EncodedWord.Statement .build := ⟨rfl, by decide, by decide⟩
theorem EncodedWord.encode : EncodedWord.Statement .encode := ⟨rfl, by decide, by decide⟩
theorem EncodedWord.decode : EncodedWord.Statement .decode := ⟨rfl, by decide, by decide⟩
theorem EncodedWord.codes : EncodedWord.Statement .codes := ⟨rfl, by decide, by decide⟩

end Sys2Proof.Laws
end

