-- ==== Sys2Proof/Tests/Slice0.lean ====
section
/-! SUPPORT. Tests against the worked examples and vectors of the spec, ill-formed terms that the checks refuse, and a
witness for the hypotheses of every statement that has some. -/

namespace Sys2Proof.Machine

/-! ### Well-formedness: an ill-formed term for each check -/

/-- R80: RSVD is not 0. -/
theorem test_word_refused_reserved : CmdWord.wellFormed 0x00000101#32 = false := by decide
/-- R81: OPC 0x00 and 0x05 name no command. -/
theorem test_word_refused_opcode :
    CmdWord.wellFormed 0x00000000#32 = false ∧ CmdWord.wellFormed 0x00000005#32 = false := by decide
/-- R87: eos = 0, bits 7:4 not 0, and a code above 5 each make no response beat. -/
theorem test_response_refused :
    Beat.wellFormedResponse ⟨false, 0x00#8⟩ = false ∧ Beat.wellFormedResponse ⟨true, 0x10#8⟩ = false ∧
    Beat.wellFormedResponse ⟨true, 0x06#8⟩ = false := by decide
/-- R90: an end-of-sequence beat and a character that is no bit are no character of a result. -/
theorem test_character_refused :
    Beat.wellFormedCharacter ⟨true, 0x30#8⟩ = false ∧ Beat.wellFormedCharacter ⟨false, 0x32#8⟩ = false := by decide
/-- R10: the empty code, and a bit above the length. -/
theorem test_code_refused :
    Code.wellFormed ⟨0#8, 0#255⟩ = false ∧ Code.wellFormed ⟨1#8, 2#255⟩ = false := by decide
theorem test_instr_wellFormed : Instr.wellFormed .build = true ∧ Instr.wellFormed .codes = true := by decide

/-! ### Decoding: the words of R81 and of V-ILL, bit by bit -/

theorem test_decode_build : decode 0b00000000000000000000000000000001#32 = .ok .build := by decide
theorem test_decode_encode : decode 0b00000000000000000000000000000010#32 = .ok .encode := by decide
theorem test_decode_decode : decode 0b00000000000000000000000000000011#32 = .ok .decode := by decide
theorem test_decode_codes : decode 0b00000000000000000000000000000100#32 = .ok .codes := by decide
/-- IL4: a legal OPC under a set RSVD bit. -/
theorem test_decode_reserved : decode 0b10000000000000000000000000000010#32 = .error .reservedBitsSet := by decide
/-- IL6. -/
theorem test_decode_unknown : decode 0x000000FF#32 = .error .unknownOpcode := by decide
/-- The table's numbering: bit 0 is the least significant bit of the word. -/
theorem test_table_word : decodeTableWord 32 3 = some .decode ∧ decodeTableWord 32 0x103 = none := by decide

/-! ### One step of each command -/

/-- The state after one step that answers a next state, and the state itself otherwise. -/
def stepped (s : State) : State :=
  match step s with
  | .next t => t
  | _ => s

/-- One line of a script, its result alone on OUT. -/
def ranLine (l : ScriptLine) (s : State) : State := stepped ({ s with out := [] }.pushLine l)

/-- The state after BUILD from reset. -/
def built (items : List Byte) : State := ranLine (.build items) State.reset

/-- "abc" and "aaaa" (R9, G1). -/
def abc : List Byte := [0x61#8, 0x62#8, 0x63#8]
def aaaa : List Byte := [0x61#8, 0x61#8, 0x61#8, 0x61#8]

/-- BU1, P3 step 2: the empty BUILD. -/
theorem test_build_empty :
    (built []).out = [⟨true, 0x01#8⟩] ∧ regRead 2#3 (built []) = 0x00010100#32 := by decide
/-- V-CODE "abc" and P3 step 5: c = "0", a = "10", b = "11"; NSYM, TOTAL, MAXLEN 3, 3, 2; OUT EOS(00). -/
theorem test_build_abc :
    fwdLabels (built abc).mapping 0x63#8 = some [false] ∧ fwdLabels (built abc).mapping 0x61#8 = some [true, false] ∧
    fwdLabels (built abc).mapping 0x62#8 = some [true, true] ∧
    (List.range 8).map (fun n => regRead (BitVec.ofNat 3 n) (built abc)) =
      [0x48554601#32, 0x01002008#32, 0x00010002#32, 0#32, 0#32, 3#32, 3#32, 2#32] := by decide +kernel
/-- V-TREE "aabc": leaf 0 (weight 2) goes before internal node 3 (weight 2), so 4 = I{4, 0, 3} in the vector's notation. -/
theorem test_tree_leaf_before_internal :
    nodeAt (buildTree (countFrequencies [0x61#8, 0x61#8, 0x62#8, 0x63#8] Scratch.reset)) 4#9 = .internal 4#32 0#9 3#9 := by
  decide +kernel
/-- V-FREQ [0x00, 0xFF, 0x00, 0x00] and its tree in V-TREE: 2 = I{4, 1, 0}, the lower weight left although seen later. -/
theorem test_tree_lower_weight_left :
    nodeAt (buildTree (countFrequencies [0x00#8, 0xFF#8, 0x00#8, 0x00#8] Scratch.reset)) 2#9 = .internal 4#32 1#9 0#9 := by
  decide +kernel
/-- R114: a BUILD that has counted N_MAX items and waits meets one more item, then the end of its frame. -/
theorem test_build_capacity :
    (stepped { State.reset with
      inp := [⟨false, 0x61#8⟩, ⟨true, 0x00#8⟩]
      status := { Status.reset with busy := true, op := 0x01#8 }
      scratch := { Scratch.reset with k := 1#9, cnt := 0xFFFFFFFF#32 } }).out = [⟨true, 0x05#8⟩] := by decide
/-- R263: BUILD from reset with an empty IN waits with BUSY = 1, OP = 1 and no response beat. -/
theorem test_build_waits :
    (stepped (State.reset.pushCmd 1#32)).status.busy = true ∧ (stepped (State.reset.pushCmd 1#32)).status.op = 1#8 ∧
    (stepped (State.reset.pushCmd 1#32)).out = [] := by decide

/-- EN8, S7: 10110, then LookupError with 'd' and index 3. -/
theorem test_encode_absent :
    (ranLine (.encode [0x61#8, 0x62#8, 0x63#8, 0x64#8]) (built abc)).out =
      [⟨false, 0x31#8⟩, ⟨false, 0x30#8⟩, ⟨false, 0x31#8⟩, ⟨false, 0x31#8⟩, ⟨false, 0x30#8⟩, ⟨true, 0x02#8⟩] ∧
    regRead 3#3 (ranLine (.encode [0x61#8, 0x62#8, 0x63#8, 0x64#8]) (built abc)) = 0x64#32 ∧
    regRead 4#3 (ranLine (.encode [0x61#8, 0x62#8, 0x63#8, 0x64#8]) (built abc)) = 3#32 := by decide +kernel
/-- EN22: refused without a mapping even when the frame is empty. -/
theorem test_encode_refuses : (ranLine (.encode []) State.reset).out = [⟨true, 0x01#8⟩] := by decide

/-- DE11, S6: "0101" gives "ca", then MalformedInputError at 3. -/
theorem test_decode_truncated :
    (ranLine (.decode [0x30#8, 0x31#8, 0x30#8, 0x31#8]) (built abc)).out =
      [⟨false, 0x63#8⟩, ⟨false, 0x61#8⟩, ⟨true, 0x03#8⟩] ∧
    regRead 4#3 (ranLine (.decode [0x30#8, 0x31#8, 0x30#8, 0x31#8]) (built abc)) = 3#32 := by decide +kernel
/-- DE21: a candidate longer than every code; the last '0' is not matched. -/
theorem test_decode_overlong :
    (ranLine (.decode [0x30#8, 0x30#8, 0x30#8, 0x31#8, 0x30#8]) (built aaaa)).out =
      [⟨false, 0x61#8⟩, ⟨false, 0x61#8⟩, ⟨false, 0x61#8⟩, ⟨true, 0x03#8⟩] ∧
    regRead 4#3 (ranLine (.decode [0x30#8, 0x30#8, 0x30#8, 0x31#8, 0x30#8]) (built aaaa)) = 3#32 := by decide +kernel

/-- CO5: the eleven items of the mapping of "abc". -/
theorem test_codes_abc :
    (ranLine .codes (built abc)).out = ([0x61#8, 0x02#8, 0x31#8, 0x30#8, 0x62#8, 0x02#8, 0x31#8, 0x31#8, 0x63#8, 0x01#8,
      0x30#8].map itemBeat) ++ [⟨true, 0x00#8⟩] := by decide +kernel
/-- CO1: nothing but the response. -/
theorem test_codes_empty : (ranLine .codes State.reset).out = [⟨true, 0x00#8⟩] := by decide +kernel

/-- IL3, P4 step 3: STATUS 0x00010400, ERRINFO the word, IN untouched. -/
theorem test_illegal_word :
    regRead 2#3 (stepped ({ State.reset with inp := [endBeat] }.pushCmd 0x00000101#32)) = 0x00010400#32 ∧
    regRead 3#3 (stepped ({ State.reset with inp := [endBeat] }.pushCmd 0x00000101#32)) = 0x00000101#32 ∧
    (stepped ({ State.reset with inp := [endBeat] }.pushCmd 0x00000101#32)).inp = [endBeat] := by decide

/-- R269: a run has ended when the host has popped the response, and not before. -/
theorem test_run_ended :
    (ranLine .codes State.reset).runEnded = false ∧
    ((ranLine .codes State.reset).popOut.map fun p => (p.1, p.2.runEnded)) = some (⟨true, 0x00#8⟩, true) := by
  decide +kernel

/-- RG1: the registers after reset. -/
theorem test_registers_after_reset :
    (List.range 8).map (fun n => regRead (BitVec.ofNat 3 n) State.reset) =
      [0x48554601#32, 0x01002008#32, 0#32, 0#32, 0#32, 0#32, 0#32, 0#32] := by decide
/-- The first command after reset runs when it is placed where the next step takes it from. -/
theorem test_first_command :
    (stepped (State.reset.withFetchWord 32 4)).out = [⟨true, 0x00#8⟩] := by decide +kernel

/-- The clear wording of the tree gives the codes of V-CODE "abcc". -/
theorem test_reference_codes :
    huffCodes [0x61#8, 0x62#8, 0x63#8, 0x63#8] =
      [(0x63#8, [false]), (0x61#8, [true, false]), (0x62#8, [true, true])] := by decide +kernel

/-! ### Witnesses: states and operands that meet the hypotheses of a statement together -/

/-- Reset with these beats in IN. -/
def withInp (bs : List Beat) : State := { State.reset with inp := bs }

/-- Reset with the mapping of one symbol 'a' and these beats in IN. -/
def withLone (bs : List Beat) : State := { State.reset with mapping := loneMapping 0x61#8 4#32, inp := bs }

theorem takeFrame_withInp (items : List Byte) (rest : List Beat) :
    takeFrame (withInp (frame items ++ rest)).inp = some (items, rest) := takeFrame_frame items rest

theorem takeFrame_withLone (items : List Byte) (rest : List Beat) :
    takeFrame (withLone (frame items ++ rest)).inp = some (items, rest) := takeFrame_frame items rest

theorem fwdLookup_withLone (bs : List Beat) (a : Symbol) :
    fwdLookup (withLone bs).mapping a = if a = 0x61#8 then some loneCode else none := fwdLookup_loneMapping _ _ _

theorem encodedChars_withLone (bs : List Beat) :
    encodedChars (withLone bs).mapping [0x61#8, 0x61#8] = [0x30#8, 0x30#8] :=
  (by decide +kernel : encodedChars (loneMapping 0x61#8 4#32) [0x61#8, 0x61#8] = [0x30#8, 0x30#8])

/-- No code of the mapping of 'a' begins a sequence that does not begin with '0'. -/
theorem no_code_begins (bs : List Beat) {d : Byte} {tail : List Byte} (h : d ≠ 0x30#8) (a : Symbol) (c : Code)
    (hc : fwdLookup (withLone bs).mapping a = some c) : ¬ codeChars c <+: d :: tail := by
  rw [fwdLookup_withLone] at hc
  split at hc
  · obtain rfl := Option.some.inj hc
    rintro ⟨t, ht⟩
    exact h (List.cons.inj ht).1.symm
  · cases hc

theorem witness_DecodeMatchesWholeWord : ∃ w : CmdWord, ∀ i, w ≠ encode i := ⟨0#32, by intro i; cases i <;> decide⟩

theorem witness_StepRunsDecodedCommand : ∃ (s : State) (w : CmdWord) (rest : List CmdWord) (i : Instr),
    s.status.busy = false ∧ s.cmd = w :: rest ∧ decode w = .ok i :=
  ⟨{ State.reset with cmd := [3#32, 9#32] }, 3#32, [9#32], .decode, rfl, rfl, by decide⟩

theorem witness_IllegalWordRaises : ∃ (s : State) (w : CmdWord) (rest : List CmdWord),
    s.status.busy = false ∧ s.cmd = w :: rest ∧ ∀ i, w ≠ encode i :=
  ⟨{ State.reset with cmd := [0x101#32] }, 0x101#32, [], rfl, rfl, by intro i; cases i <;> decide⟩

theorem buildWaits_withBusy (bs : List Beat) : BuildWaits { State.reset with
    inp := bs
    status := { Status.reset with busy := true, op := 1#8 }
    scratch := countFrequencies [] Scratch.reset } := ⟨rfl, rfl, [], Scratch.reset, rfl⟩

/-- Both clauses: an idle core with a word, and a waiting BUILD with a beat. -/
theorem witness_NoLockUp :
    (∃ s : State, Inv s ∧ s.status.busy = false ∧ s.cmd ≠ []) ∧
    (∃ s : State, Inv s ∧ s.status.busy = true ∧ s.inp ≠ []) :=
  ⟨⟨{ State.reset with cmd := [1#32] }, inv_of_idle mappingOk_empty rfl rfl, rfl, by simp⟩,
    ⟨_, inv_of_buildWaits (buildWaits_withBusy [endBeat]) rfl, rfl, by simp⟩⟩

/-- Each fault of CoreStandsStillExactlyWhen; witness_NoLockUp gives the states of its clause under Inv. -/
theorem witness_CoreStandsStillExactlyWhen :
    (∃ s : State, s.status.busy = false ∧ s.cmd = []) ∧ (∃ s : State, s.status.busy = true ∧ s.inp = []) ∧
    (∃ s : State, s.status.busy = true ∧ s.inp ≠ [] ∧ s.status.op = 0x04#8) :=
  ⟨⟨State.reset, rfl, rfl⟩, ⟨{ State.reset with status := { Status.reset with busy := true } }, rfl, rfl⟩,
    ⟨{ withInp [endBeat] with status := { Status.reset with busy := true, op := 4#8 } }, rfl, by decide, rfl⟩⟩

theorem witness_IncompleteFrameWaits : ∃ (i : Instr) (s : State), i ≠ .codes ∧ takeFrame s.inp = none :=
  ⟨.encode, withInp [itemBeat 0x61#8], by decide, by decide⟩

theorem witness_WaitingChangesNoValue :
    ∃ (s : State) (w : CmdWord) (rest : List CmdWord) (i : Instr) (more : List Beat),
      s.status.busy = false ∧ s.cmd = w :: rest ∧ decode w = .ok i ∧ i ≠ .codes ∧ takeFrame s.inp = none ∧ more ≠ [] :=
  ⟨{ withInp [itemBeat 0x61#8] with cmd := [1#32] }, 1#32, [], .build, [endBeat], rfl, rfl, by decide, by decide,
    by decide, by decide⟩

theorem witness_FrameCommandEndsWithResponse :
    ∃ (i : Instr) (s : State) (items : List Byte) (rest : List Beat),
      i ≠ .codes ∧ takeFrame s.inp = some (items, rest) :=
  ⟨.decode, withInp (frame [0x30#8] ++ [endBeat]), [0x30#8], [endBeat], by decide, by decide⟩

/-- A step that answers a next state: one that ends a command, and one after which BUILD waits. -/
theorem witness_steps :
    (∃ s t : State, step s = .next t ∧ s.status.busy = false ∧ t.status.busy = false) ∧
    (∃ s t : State, step s = .next t ∧ t.status.busy = true) ∧
    (∃ s t : State, step s = .next t ∧ s.status.busy = true) :=
  ⟨⟨State.reset.pushCmd 0#32, _, rfl, rfl, rfl⟩, ⟨State.reset.pushCmd 2#32 |> fun s => { s with mapping := loneMapping 0 1 },
    _, rfl, rfl⟩, ⟨{ withInp [endBeat] with status := { Status.reset with busy := true, op := 2#8 } }, _, rfl, rfl⟩⟩

theorem witness_ScriptLineIsOneStep : ∃ (s : State) (l : ScriptLine), s.status.busy = false ∧ s.cmd = [] ∧ s.inp = [] ∧
    ∀ w, l = .word w → w ≠ encode .build ∧ w ≠ encode .encode ∧ w ≠ encode .decode :=
  ⟨State.reset, .word 9#32, rfl, rfl, rfl, fun w h => by obtain rfl := ScriptLine.word.inj h; decide⟩

/-- Each clause of OnlyTheOwnerWrites: a step that changes the mapping, the scratch state, the engine state. -/
theorem witness_OnlyTheOwnerWrites :
    (∃ s t : State, step s = .next t ∧ t.mapping ≠ s.mapping ∧ t.scratch ≠ s.scratch) ∧
    (∃ s t : State, step s = .next t ∧ t.engine ≠ s.engine) := by
  refine ⟨⟨{ withLone [] with cmd := [1#32], scratch := { Scratch.reset with k := 1#9 } }, _, rfl, fun h => ?_, fun h => ?_⟩,
    ⟨{ withLone [itemBeat 0x61#8] with cmd := [2#32] }, _, rfl, fun h => ?_⟩⟩
  · exact absurd (congrArg Mapping.valid h) (by decide)
  · exact absurd (congrArg Scratch.k h) (by decide)
  · exact absurd (congrArg Engine.pos h) (by decide +kernel)

theorem witness_BuildEmptyInput : ∃ (s : State) (rest : List Beat), takeFrame s.inp = some ([], rest) :=
  ⟨withInp (frame [] ++ []), [], takeFrame_withInp _ _⟩

/-- The least length that is too long. -/
theorem witness_BuildTooLong : ∃ (s : State) (items : List Byte) (rest : List Beat),
    takeFrame s.inp = some (items, rest) ∧ Config.nMax < items.length :=
  ⟨_, List.replicate (Config.nMax + 1) 0x61#8, [], takeFrame_withInp _ _,
    lt_of_lt_of_eq (Nat.lt_succ_self _) List.length_replicate.symm⟩

/-- The least and the greatest length BUILD takes: for BuildSucceeds, BuildGivesPathCodes,
BuildCodesPrefixFreeAndComplete and RoundTrip. -/
theorem witness_BuildSucceeds :
    (∃ (s : State) (items : List Byte) (rest : List Beat), takeFrame s.inp = some (items, rest) ∧ items ≠ [] ∧
      items.length ≤ Config.nMax ∧ items.length = 1) ∧
    (∃ (s : State) (items : List Byte) (rest : List Beat), takeFrame s.inp = some (items, rest) ∧ items ≠ [] ∧
      items.length ≤ Config.nMax ∧ items.length = Config.nMax) :=
  ⟨⟨_, [0x61#8], [], takeFrame_withInp _ _, by decide, by decide, rfl⟩,
    ⟨_, List.replicate Config.nMax 0x61#8, [], takeFrame_withInp _ _,
      List.ne_nil_of_length_pos (lt_of_lt_of_eq (by decide) List.length_replicate.symm),
      le_of_eq List.length_replicate, List.length_replicate⟩⟩

/-- Two distinct symbols: the completeness clause of BuildCodesPrefixFreeAndComplete and its vectors. -/
theorem witness_BuildCodesComplete : ∃ (s : State) (items : List Byte) (rest : List Beat),
    takeFrame s.inp = some (items, rest) ∧ items ≠ [] ∧ items.length ≤ Config.nMax ∧
      2 ≤ (distinctSymbols items).length :=
  ⟨_, abc, [], takeFrame_withInp _ _, by decide, by decide, by decide⟩

/-- One occurrence. -/
theorem witness_BuildLoneSymbol : ∃ (s : State) (a : Symbol) (n : Nat) (rest : List Beat),
    takeFrame s.inp = some (List.replicate (n + 1) a, rest) ∧ n + 1 ≤ Config.nMax ∧ n = 0 :=
  ⟨_, 0x61#8, 0, [], takeFrame_withInp _ _, by decide, rfl⟩

/-- Any number of occurrences, so N_MAX of them too (witness_TreeOfOneSymbol names that n). -/
theorem witness_BuildLoneSymbol_any (n : Nat) : ∃ (s : State) (a : Symbol) (rest : List Beat),
    takeFrame s.inp = some (List.replicate (n + 1) a, rest) :=
  ⟨_, 0x61#8, [], takeFrame_withInp _ _⟩

theorem witness_BuildDeterministic : ∃ (s t u v : State) (items : List Byte) (r q : List Beat),
    takeFrame s.inp = some (items, r) ∧ takeFrame t.inp = some (items, q) ∧ exec .build s = .next u ∧
      exec .build t = .next v ∧ s.mapping ≠ t.mapping :=
  ⟨withInp (frame abc ++ []), withLone (frame abc ++ [endBeat]), _, _, abc, [], [endBeat], takeFrame_withInp _ _,
    takeFrame_withLone _ _, execBuild_complete (takeFrame_withInp _ _), execBuild_complete (takeFrame_withLone _ _),
    fun h => absurd (congrArg Mapping.valid h) (by decide)⟩

/-- A BUILD that waits and a BUILD that ends, both with VALID = 0 afterwards. -/
theorem witness_BuildFrame :
    (∃ s t : State, exec .build s = .next t ∧ t.mapping.valid = false ∧ t.out = s.out) ∧
    (∃ s t : State, exec .build s = .next t ∧ t.mapping.valid = false ∧ t.out ≠ s.out) :=
  ⟨⟨withLone [], _, execBuild_incomplete rfl, rfl, rfl⟩,
    ⟨withLone (frame [] ++ []), _, execBuild_complete (takeFrame_withLone _ _), rfl, by decide⟩⟩

/-- The clause over a complete frame: BUILD of "abc" over an older mapping, a symbol in FWD and in REV afterwards. -/
theorem witness_BuildFrame_complete : ∃ (s t : State) (items : List Byte) (rest : List Beat) (c : Code),
    exec .build s = .next t ∧ takeFrame s.inp = some (items, rest) ∧ s.mapping.valid = true ∧
      (fwdLookup t.mapping 0x63#8).isSome = true ∧ revLookup t.mapping c = some 0x63#8 :=
  ⟨withLone (frame abc ++ []), _, abc, [], loneCode, execBuild_complete (takeFrame_withLone _ _), takeFrame_withLone _ _,
    rfl, by decide +kernel, by decide +kernel⟩

/-- For FrequencyCounterCounts and TreeBuilderKeepsWeights: the length N_MAX, and an i of each range of ids. -/
theorem witness_FrequencyCounterCounts :
    (∃ items : List Byte, items.length ≤ Config.nMax ∧ items.length = Config.nMax) ∧
    (∃ items : List Byte, items.length ≤ Config.nMax ∧ 0x61#8 ∈ items ∧ 1 < (distinctSymbols items).length) :=
  ⟨⟨List.replicate Config.nMax 0x61#8, le_of_eq List.length_replicate, List.length_replicate⟩,
    ⟨abc, by decide, by decide, by decide⟩⟩

theorem witness_ExtractMinTakesLeastKey :
    (∃ x m y, extractMin x = some (m, y) ∧ 3#9 ∈ members x) ∧ (∃ x, members x = []) :=
  have h : members (setInq 3#9 true Scratch.reset) = [3#9] := by decide +kernel
  ⟨⟨setInq 3#9 true Scratch.reset, 3#9, setInq 3#9 false (setInq 3#9 true Scratch.reset),
    by simp [extractMin, leastMember, leastOf, h], by simp [h]⟩, ⟨Scratch.reset, by decide +kernel⟩⟩

/-- The last leaf, the first internal node and the root of a tree of three symbols. -/
theorem witness_TreeBuilderKeepsWeights : ∃ items : List Byte, items ≠ [] ∧ items.length ≤ Config.nMax ∧
    (2#9).toNat < (distinctSymbols items).length ∧ (distinctSymbols items).length ≤ (3#9).toNat ∧
    (4#9).toNat < 2 * (distinctSymbols items).length - 1 :=
  ⟨abc, by decide, by decide, by decide, by decide, by decide⟩

theorem witness_TreeOfOneSymbol : ∃ n : Nat, n + 1 ≤ Config.nMax ∧ n + 1 = Config.nMax := ⟨Config.nMax - 1, by decide, by decide⟩

theorem witness_EncodeConcatenatesCodes :
    (∃ (s : State) (items : List Byte) (rest : List Beat), takeFrame s.inp = some (items, rest) ∧
      s.mapping.valid = true ∧ (∀ a ∈ items, (fwdLookup s.mapping a).isSome = true) ∧ items = []) ∧
    (∃ (s : State) (items : List Byte) (rest : List Beat), takeFrame s.inp = some (items, rest) ∧
      s.mapping.valid = true ∧ (∀ a ∈ items, (fwdLookup s.mapping a).isSome = true) ∧ items ≠ []) :=
  ⟨⟨withLone (frame [] ++ []), [], [], takeFrame_withLone _ _, rfl, by simp, rfl⟩,
    ⟨withLone (frame [0x61#8] ++ []), [0x61#8], [], takeFrame_withLone _ _, rfl,
      by simp [fwdLookup_withLone], by decide⟩⟩

/-- An absent symbol at index 0 and one behind a present one. -/
theorem witness_EncodeAbsentSymbol :
    (∃ (s : State) (before after : List Byte) (a : Symbol) (rest : List Beat),
      takeFrame s.inp = some (before ++ a :: after, rest) ∧ s.mapping.valid = true ∧
      (∀ b ∈ before, (fwdLookup s.mapping b).isSome = true) ∧ fwdLookup s.mapping a = none ∧ before = []) ∧
    (∃ (s : State) (before after : List Byte) (a : Symbol) (rest : List Beat),
      takeFrame s.inp = some (before ++ a :: after, rest) ∧ s.mapping.valid = true ∧
      (∀ b ∈ before, (fwdLookup s.mapping b).isSome = true) ∧ fwdLookup s.mapping a = none ∧ before ≠ []) :=
  ⟨⟨withLone (frame [0x62#8] ++ []), [], [], 0x62#8, [], takeFrame_withLone _ _, rfl, by simp,
      by simp [fwdLookup_withLone], rfl⟩,
    ⟨withLone (frame [0x61#8, 0x62#8, 0x63#8] ++ []), [0x61#8], [0x63#8], 0x62#8, [], takeFrame_withLone _ _, rfl,
      by simp [fwdLookup_withLone], by simp [fwdLookup_withLone], by decide⟩⟩

/-- For EncodeRefusesWithoutMapping and DecodeRefusesWithoutMapping: an empty frame and one that is not. -/
theorem witness_RefusesWithoutMapping :
    (∃ (s : State) (items : List Byte) (rest : List Beat), takeFrame s.inp = some (items, rest) ∧
      s.mapping.valid = false ∧ items = []) ∧
    (∃ (s : State) (items : List Byte) (rest : List Beat), takeFrame s.inp = some (items, rest) ∧
      s.mapping.valid = false ∧ items ≠ []) :=
  ⟨⟨withInp (frame [] ++ []), [], [], takeFrame_withInp _ _, rfl, rfl⟩,
    ⟨withInp (frame abc ++ [endBeat]), abc, [endBeat], takeFrame_withInp _ _, rfl, by decide⟩⟩

/-- For EncodeFrame and DecodeFrame: each with an outcome that waits; and a DECODE that pushes as many items as its complete
frame has, the bound of DecodeFrame. -/
theorem witness_EncodeAndDecodeFrame :
    (∃ s t : State, exec .encode s = .next t ∧ s.mapping.valid = true) ∧
    (∃ s t : State, exec .decode s = .next t ∧ s.mapping.valid = true) ∧
    (∃ s t : State, exec .decode s = .next t ∧ takeFrame s.inp = some ([0x30#8], []) ∧
      t.out = [itemBeat 0x61#8, responseBeat .ok]) :=
  ⟨⟨withLone [itemBeat 0x61#8], _, rfl, rfl⟩, ⟨withLone [itemBeat 0x30#8], _, rfl, rfl⟩,
    ⟨withLone (frame [0x30#8] ++ []), _, rfl, takeFrame_withLone _ _, by decide +kernel⟩⟩

theorem witness_DecodeEmitsSymbols : ∃ (s : State) (syms : List Symbol) (rest : List Beat),
    MappingOk s.mapping ∧ s.mapping.valid = true ∧ (∀ a ∈ syms, (fwdLookup s.mapping a).isSome = true) ∧
      takeFrame s.inp = some (encodedChars s.mapping syms, rest) ∧ syms ≠ [] :=
  ⟨withLone (frame [0x30#8, 0x30#8] ++ []), [0x61#8, 0x61#8], [], mappingOk_loneMapping _ _, rfl,
    by simp [fwdLookup_withLone], by rw [encodedChars_withLone]; exact takeFrame_withLone _ _, by decide⟩

/-- The three ways a leftover comes about: cut short (DE20), a character that is no bit (DE22), too long (DE19). -/
theorem witness_DecodeReportsLeftover : ∀ tail ∈ [[0x31#8], [0x20#8], [0x31#8, 0x31#8]],
    ∃ (s : State) (syms : List Symbol) (rest : List Beat), MappingOk s.mapping ∧ s.mapping.valid = true ∧
      (∀ a ∈ syms, (fwdLookup s.mapping a).isSome = true) ∧ tail ≠ [] ∧
      (∀ a c, fwdLookup s.mapping a = some c → ¬ codeChars c <+: tail) ∧
      takeFrame s.inp = some (encodedChars s.mapping syms ++ tail, rest) := by
  intro tail ht
  refine ⟨withLone (frame ([0x30#8, 0x30#8] ++ tail) ++ []), [0x61#8, 0x61#8], [], mappingOk_loneMapping _ _, rfl,
    by simp [fwdLookup_withLone], ?_, ?_, by rw [encodedChars_withLone]; exact takeFrame_withLone _ _⟩
  · rintro rfl
    simp at ht
  · simp only [List.mem_cons, List.not_mem_nil, or_false] at ht
    obtain rfl | rfl | rfl := ht <;> exact no_code_begins _ (by decide)

/-- For EveryInputSplitsIntoCodesAndLeftover and CodesResultSize: a mapping with a code, and the empty one. -/
theorem witness_MappingOk : (∃ m, MappingOk m ∧ m.valid = true) ∧ (∃ m, MappingOk m ∧ m.valid = false) :=
  ⟨⟨_, mappingOk_loneMapping 0x61#8 4#32, rfl⟩, ⟨_, mappingOk_empty, rfl⟩⟩

theorem witness_DecodeIsStateless : ∃ (s t u v : State) (items : List Byte) (r q : List Beat),
    s.mapping.valid = t.mapping.valid ∧ s.mapping.rev = t.mapping.rev ∧ s.mapping.maxlen = t.mapping.maxlen ∧
      takeFrame s.inp = some (items, r) ∧ takeFrame t.inp = some (items, q) ∧ exec .decode s = .next u ∧
      exec .decode t = .next v ∧ s.engine ≠ t.engine :=
  ⟨withLone (frame [0x31#8] ++ []),
    { withLone (frame [0x31#8] ++ [endBeat]) with engine := { Engine.reset with poison := true } }, _, _, [0x31#8], [],
    [endBeat], rfl, rfl, rfl, takeFrame_withLone _ _, takeFrame_frame _ _, rfl, rfl, by decide⟩

/-- A sequence over the symbols of the BUILD input, for RoundTrip: not the input itself. -/
theorem witness_RoundTrip : ∃ (u : State) (seq items : List Byte) (r : List Beat),
    takeFrame u.inp = some (seq, r) ∧ (∀ a ∈ seq, a ∈ items) ∧ seq ≠ items ∧ items ≠ [] :=
  ⟨withInp (frame [0x63#8, 0x63#8] ++ []), [0x63#8, 0x63#8], abc, [], takeFrame_withInp _ _, by decide, by decide, by decide⟩

theorem witness_CodesOfEmptyMapping : ∃ s : State, MappingOk s.mapping ∧ s.mapping.valid = false :=
  ⟨State.reset, mappingOk_empty, rfl⟩

/-- For StatusRegisterFields and ValueRegistersWhenIdle. -/
theorem witness_idle : ∃ s : State, s.status.busy = false ∧ s.mapping.valid = true := ⟨withLone [], rfl, rfl⟩

/-- A step from a state that meets the invariant: a command that ends, and a BUILD that goes on waiting. -/
theorem witness_StepKeepsInvariant :
    (∃ s t : State, Inv s ∧ step s = .next t ∧ s.mapping.valid = true) ∧
    (∃ s t : State, Inv s ∧ step s = .next t ∧ s.status.busy = true) :=
  ⟨⟨{ withLone [] with cmd := [4#32] }, _, inv_of_idle (mappingOk_loneMapping _ _) rfl rfl, rfl, rfl⟩,
    ⟨_, _, inv_of_buildWaits (buildWaits_withBusy [itemBeat 0x61#8]) rfl, rfl, rfl⟩⟩

/-- A state that meets the invariant with a beat in OUT for the host to pop. -/
theorem witness_HostKeepsInvariant : ∃ (s t : State) (b : Beat), Inv s ∧ s.popOut = some (b, t) :=
  ⟨{ withLone [] with out := [responseBeat .ok] }, _, _,
    { mapping := mappingOk_loneMapping _ _
      waiting := fun h => absurd h (by decide)
      output := fun b hb _ => by
        obtain rfl : b = responseBeat .ok := by simpa using hb
        decide }, rfl⟩

theorem witness_ReachableStatesKeepMapping : ∃ s t : State, Reachable s ∧ step s = .next t ∧ Reachable t :=
  have h : step (State.reset.pushCmd 4#32) = .next (stepped (State.reset.pushCmd 4#32)) := rfl
  ⟨State.reset.pushCmd 4#32, _, .pushCmd _ .reset, h, .step (.pushCmd _ .reset) h⟩

/-- Two states that look the same and differ in what the spec leaves open: an idle pair, and a pair with DECODE waiting. -/
theorem witness_NoUnspecifiedValueIsRead :
    (∃ s t : State, Inv s ∧ Inv t ∧ SameView s t ∧ s.scratch ≠ t.scratch ∧ s.engine ≠ t.engine ∧ s.draws ≠ t.draws) ∧
    (∃ s t : State, Inv s ∧ Inv t ∧ SameView s t ∧ s.scratch ≠ t.scratch ∧ s.status.busy = true) := by
  have hx : Scratch.reset ≠ { Scratch.reset with k := 5#9 } := fun h => absurd (congrArg Scratch.k h) (by decide)
  refine ⟨⟨State.reset, { State.reset with scratch := { Scratch.reset with k := 5#9 }, engine := { Engine.reset with pos := 7#32 }, draws := 3 },
    inv_of_idle mappingOk_empty rfl rfl, inv_of_idle mappingOk_empty rfl rfl, ?_, hx, by decide, by decide⟩,
    ⟨{ withLone [] with status := { Status.reset with busy := true, op := 3#8 } },
      { withLone [] with status := { Status.reset with busy := true, op := 3#8 }, scratch := { Scratch.reset with k := 5#9 } },
      ?_, ?_, ?_, hx, rfl⟩⟩
  · exact ⟨rfl, rfl, rfl, rfl, rfl, fun h => absurd h (by decide), fun h => absurd h (by decide), fun h => absurd h (by decide)⟩
  · exact ⟨mappingOk_loneMapping _ _, fun _ => .inr (.inr ⟨rfl, fun _ => ⟨by decide, by decide⟩⟩), fun b h => absurd h (by simp [withLone, State.reset])⟩
  · exact ⟨mappingOk_loneMapping _ _, fun _ => .inr (.inr ⟨rfl, fun _ => ⟨by decide, by decide⟩⟩), fun b h => absurd h (by simp [withLone, State.reset])⟩
  · exact ⟨rfl, rfl, rfl, rfl, rfl, fun _ h => absurd h (by decide), fun _ h => absurd h (by decide), fun _ _ _ => ⟨rfl, rfl, rfl, rfl, rfl⟩⟩

end Sys2Proof.Machine
end

section
/-! PROOFS. The family 00_scope.md: the parameters (R6), the wait over an incomplete frame (R263), and what the host's
actions keep (R270). -/

namespace Sys2Proof.Machine

/-! ### The wait over an incomplete frame -/

/-- What the input loops of BUILD, ENCODE and DECODE may do to the channels and the status state before the frame is
complete: push items, and nothing else. -/
structure PushesItemsOnly (s t : State) : Prop where
  cmd : t.cmd = s.cmd
  status : t.status = s.status
  out : ∃ items : List Byte, t.out = s.out ++ items.map itemBeat

/-- A state with the same CMD, status state and OUT: no item has been pushed. -/
theorem PushesItemsOnly.of_eq {s t : State} (hcmd : t.cmd = s.cmd) (hstatus : t.status = s.status)
    (hout : t.out = s.out) : PushesItemsOnly s t :=
  ⟨hcmd, hstatus, [], by simp [hout]⟩

theorem PushesItemsOnly.trans {s t u : State} (hst : PushesItemsOnly s t) (htu : PushesItemsOnly t u) :
    PushesItemsOnly s u := by
  obtain ⟨first, hfirst⟩ := hst.out
  obtain ⟨second, hsecond⟩ := htu.out
  exact ⟨htu.cmd.trans hst.cmd, htu.status.trans hst.status, first ++ second, by simp [hsecond, hfirst]⟩

theorem encodeItem_pushesItemsOnly (d : Byte) (s : State) : PushesItemsOnly s (encodeItem d s) := by
  obtain ⟨hcmd, -, -, -, hstatus, -, -, chars, hout, -⟩ := encodeItem_frame d s
  exact ⟨hcmd, hstatus, chars, hout⟩

theorem decodeItem_pushesItemsOnly (d : Byte) (s : State) : PushesItemsOnly s (decodeItem d s) := by
  obtain ⟨hcmd, -, -, -, hstatus, -, -, syms, -, hout⟩ := decodeItem_frame d s
  exact ⟨hcmd, hstatus, syms, hout⟩

theorem ignoreItem_pushesItemsOnly (d : Byte) (s : State) : PushesItemsOnly s (ignoreItem d s) :=
  .of_eq rfl rfl rfl

/-- An item body that only pushes items does no more than that over a whole sequence. -/
theorem foldl_pushesItemsOnly {body : Byte → State → State} (hbody : ∀ d s, PushesItemsOnly s (body d s))
    (items : List Byte) (s : State) : PushesItemsOnly s (items.foldl (fun t d => body d t) s) := by
  induction items generalizing s with
  | nil => exact .of_eq rfl rfl rfl
  | cons d items ih => exact (hbody d s).trans (ih (body d s))

/-- A command whose start `u` and item body only push items, over an incomplete frame: IN is emptied and the command
waits (R263). -/
theorem overFrame_waits {body : Byte → State → State} (finish : State → State) {s u : State}
    (hstart : PushesItemsOnly s u) (hbody : ∀ d v, PushesItemsOnly v (body d v)) (h : takeFrame u.inp = none) :
    ∃ t, overFrame body finish u = .next t ∧ t.inp = [] ∧ PushesItemsOnly s t :=
  ⟨_, overFrame_incomplete body finish h, rfl,
    hstart.trans ((foldl_pushesItemsOnly hbody _ u).trans (.of_eq rfl rfl rfl))⟩

/-- BUILD, ENCODE and DECODE over an incomplete frame: BUILD pushes nothing, ENCODE and DECODE push at most items, with
a mapping or without one (R172, R187). -/
theorem exec_waits {i : Instr} {s : State} (hi : i ≠ .codes) (h : takeFrame s.inp = none) :
    ∃ t, exec i s = .next t ∧ t.inp = [] ∧ PushesItemsOnly s t := by
  cases i with
  | build => exact ⟨_, execBuild_incomplete h, rfl, .of_eq rfl rfl rfl⟩
  | encode =>
    cases hv : s.mapping.valid with
    | true =>
      rw [execEncode_valid hv]
      exact overFrame_waits finishEncode (.of_eq rfl rfl rfl) encodeItem_pushesItemsOnly h
    | false =>
      rw [execEncode_invalid hv]
      exact overFrame_waits refuseEmpty (.of_eq rfl rfl rfl) ignoreItem_pushesItemsOnly h
  | decode =>
    cases hv : s.mapping.valid with
    | true =>
      rw [execDecode_valid hv]
      exact overFrame_waits finishDecode (.of_eq rfl rfl rfl) decodeItem_pushesItemsOnly h
    | false =>
      rw [execDecode_invalid hv]
      exact overFrame_waits refuseEmpty (.of_eq rfl rfl rfl) ignoreItem_pushesItemsOnly h
  | codes => exact absurd rfl hi

/-! ### What the host's actions keep -/

/-- What a waiting command holds is no matter of the channels and the draws. -/
theorem WaitOk.of_eq {s t : State} (hs : WaitOk s) (hmapping : t.mapping = s.mapping) (hscratch : t.scratch = s.scratch)
    (hengine : t.engine = s.engine) (hstatus : t.status = s.status) : WaitOk t := by
  simpa only [WaitOk, BuildWaits, DecodeWaits, hmapping, hscratch, hengine, hstatus] using hs

/-- The invariant says nothing of CMD, IN and the draws, and holds of every part of OUT. -/
theorem Inv.of_eq_of_out_subset {s t : State} (hs : Inv s) (hmapping : t.mapping = s.mapping)
    (hscratch : t.scratch = s.scratch) (hengine : t.engine = s.engine) (hstatus : t.status = s.status)
    (hout : t.out ⊆ s.out) : Inv t where
  mapping := hmapping ▸ hs.mapping
  waiting := hs.waiting.of_eq hmapping hscratch hengine hstatus
  output b hb := hs.output b (hout hb)

theorem Inv.pushCmd {s : State} (hs : Inv s) (w : CmdWord) : Inv (s.pushCmd w) :=
  hs.of_eq_of_out_subset rfl rfl rfl rfl (List.Subset.refl _)

theorem Inv.pushIn {s : State} (hs : Inv s) (bs : List Beat) : Inv (s.pushIn bs) :=
  hs.of_eq_of_out_subset rfl rfl rfl rfl (List.Subset.refl _)

theorem Inv.pushLine {s : State} (hs : Inv s) (l : ScriptLine) : Inv (s.pushLine l) :=
  (hs.pushCmd l.cmdWord).pushIn l.beats

/-- Popping OUT takes its oldest beat and changes nothing else (R63). -/
theorem State.popOut_eq_some_iff {s t : State} {b : Beat} :
    s.popOut = some (b, t) ↔ ∃ rest, s.out = b :: rest ∧ t = { s with out := rest } := by
  cases h : s.out with
  | nil => simp [State.popOut, h]
  | cons a rest => simp [State.popOut, h, eq_comm, and_assoc]

theorem Inv.popOut {s t : State} {b : Beat} (hs : Inv s) (h : s.popOut = some (b, t)) : Inv t := by
  obtain ⟨rest, hout, rfl⟩ := State.popOut_eq_some_iff.mp h
  exact hs.of_eq_of_out_subset rfl rfl rfl rfl (hout ▸ List.subset_cons_self b rest)

/-- A register read draws a free value while BUSY = 1 and changes nothing otherwise (R40, R260). -/
theorem Inv.hostRead {s : State} (hs : Inv s) (n : BitVec 3) : Inv (s.hostRead n).2 := by
  cases hbusy : s.status.busy with
  | true =>
    have hdraw : (s.hostRead n).2 = s.draw := by simp [State.hostRead, hbusy]
    exact hdraw ▸ hs.of_eq_of_out_subset rfl rfl rfl rfl (List.Subset.refl _)
  | false =>
    have hsame : (s.hostRead n).2 = s := by simp [State.hostRead, hbusy]
    exact hsame.symm ▸ hs

/-- Reset leaves the block idle with the empty mapping and nothing in OUT, whatever it did before (R252). -/
theorem inv_assertReset (s : State) : Inv s.assertReset := inv_of_idle mappingOk_empty rfl rfl

/-! ### The obligations -/

/-- Settles O11: the four commands by cases, each over the input loop that stops at the end of IN (`exec_waits`). -/
theorem incompleteFrameWaits : Obligations.IncompleteFrameWaits := by
  intro i s hi h
  obtain ⟨t, hnext, hinp, hpush⟩ := exec_waits hi h
  obtain ⟨items, hout⟩ := hpush.out
  exact ⟨t, items, hnext, hinp, hpush.cmd, hpush.status, hout⟩

/-- Settles O54: each action of the host leaves alone what the invariant speaks of, takes beats from OUT, or resets. -/
theorem hostKeepsInvariant : Obligations.HostKeepsInvariant := fun s hs =>
  ⟨hs.pushCmd, hs.pushIn, fun _ _ => hs.popOut, hs.hostRead, inv_assertReset s, hs.pushLine⟩

/-- Settles O6: R6 speaks of the fixed values of R5, which are compared as numbers. -/
theorem parametersKeepConstraints : Obligations.ParametersKeepConstraints := by
  unfold Obligations.ParametersKeepConstraints
  decide

end Sys2Proof.Machine
end

section
/-! PROOFS. The distinct symbols of a sequence in first-occurrence order (R112), and what the Frequency Counter holds
after any sequence (R113, R114). -/

namespace Sys2Proof.Machine

/-! ### Distinct symbols -/

theorem mem_newSymbols {a : Symbol} {items seen : List Symbol} : a ∈ newSymbols seen items ↔ a ∈ items ∧ a ∉ seen := by
  induction items generalizing seen with
  | nil => simp [newSymbols]
  | cons b items ih =>
    by_cases hb : b ∈ seen
    · have : a = b → a ∈ seen := fun h => h ▸ hb
      simp only [newSymbols, if_pos hb, ih, List.mem_cons]
      tauto
    · have : a = b → a ∉ seen := fun h => h ▸ hb
      simp only [newSymbols, if_neg hb, ih, List.mem_cons]
      tauto

theorem nodup_newSymbols (items seen : List Symbol) : (newSymbols seen items).Nodup := by
  induction items generalizing seen with
  | nil => exact List.nodup_nil
  | cons b items ih =>
    by_cases hb : b ∈ seen
    · simpa only [newSymbols, if_pos hb] using ih seen
    · have : b ∉ newSymbols (b :: seen) items := by simp [mem_newSymbols]
      simpa only [newSymbols, if_neg hb] using List.nodup_cons.mpr ⟨this, ih _⟩

/-- One item more adds its symbol behind the others when it is new, and nothing otherwise. -/
theorem newSymbols_concat (items seen : List Symbol) (a : Symbol) :
    newSymbols seen (items ++ [a]) =
      if a ∈ seen ∨ a ∈ items then newSymbols seen items else newSymbols seen items ++ [a] := by
  induction items generalizing seen with
  | nil => by_cases ha : a ∈ seen <;> simp [newSymbols, ha]
  | cons b items ih =>
    by_cases hb : b ∈ seen
    · have : a = b → a ∈ seen := fun h => h ▸ hb
      have hiff : (a ∈ seen ∨ a ∈ items) ↔ (a ∈ seen ∨ a ∈ b :: items) := by
        simp only [List.mem_cons]
        tauto
      simp only [List.cons_append, newSymbols, if_pos hb, ih, hiff]
    · have hiff : (a ∈ b :: seen ∨ a ∈ items) ↔ (a ∈ seen ∨ a ∈ b :: items) := by
        simp only [List.mem_cons]
        tauto
      simp only [List.cons_append, newSymbols, if_neg hb, ih, hiff]
      split <;> rfl

@[simp] theorem mem_distinctSymbols {a : Symbol} {items : List Symbol} : a ∈ distinctSymbols items ↔ a ∈ items := by
  simp [distinctSymbols, mem_newSymbols]

theorem nodup_distinctSymbols (items : List Symbol) : (distinctSymbols items).Nodup := nodup_newSymbols items []

theorem distinctSymbols_concat_of_mem {items : List Symbol} {a : Symbol} (h : a ∈ items) :
    distinctSymbols (items ++ [a]) = distinctSymbols items := by
  simp [distinctSymbols, newSymbols_concat, h]

theorem distinctSymbols_concat_of_notMem {items : List Symbol} {a : Symbol} (h : a ∉ items) :
    distinctSymbols (items ++ [a]) = distinctSymbols items ++ [a] := by
  simp [distinctSymbols, newSymbols_concat, h]

/-- There are 256 symbols, so a list without repetition has no more (R5). -/
theorem length_le_of_nodup {l : List Symbol} (h : l.Nodup) : l.length ≤ 256 := by
  have h' : (l.map BitVec.toFin).Nodup := h.map fun a b e => BitVec.eq_of_toFin_eq e
  have hcard : l.length ≤ Fintype.card (Fin (2 ^ 8)) := by simpa only [List.length_map] using h'.length_le_card
  rwa [Fintype.card_fin] at hcard

theorem distinctSymbols_ne_nil {items : List Symbol} (h : items ≠ []) : distinctSymbols items ≠ [] := by
  obtain ⟨a, ha⟩ := List.exists_mem_of_ne_nil items h
  exact List.ne_nil_of_mem (mem_distinctSymbols.mpr ha)

/-! ### The count -/

/-- The four cases of an item (R113): the count is overrun, it is full, the symbol has been seen, the symbol is new. -/
theorem countItem_of_ovf {x : Scratch} (h : x.ovf = true) (d : Byte) : countItem d x = x := by simp [countItem, h]

theorem countItem_of_full {x : Scratch} (h : x.ovf = false) (hfull : x.cnt = BitVec.ofNat 32 Config.nMax) (d : Byte) :
    countItem d x = { x with ovf := true } := by simp [countItem, h, hfull]

theorem countItem_of_seen {x : Scratch} (h : x.ovf = false) (hroom : x.cnt ≠ BitVec.ofNat 32 Config.nMax) {d : Byte}
    (hseen : x.seen.get (symIdx d) = true) : countItem d x = countOne (countAgain d x) := by
  simp [countItem, symbolOf, h, hroom, hseen]

theorem countItem_of_new {x : Scratch} (h : x.ovf = false) (hroom : x.cnt ≠ BitVec.ofNat 32 Config.nMax) {d : Byte}
    (hseen : x.seen.get (symIdx d) = false) : countItem d x = countOne (countNew d x) := by
  simp [countItem, symbolOf, h, hroom, hseen]

/-- What the Frequency Counter holds after a sequence that fits (R113): its length, its distinct symbols in
first-occurrence order and how often each occurs. -/
structure Counted (items : List Symbol) (x : Scratch) : Prop where
  ovf : x.ovf = false
  cnt : x.cnt.toNat = items.length
  k : x.k.toNat = (distinctSymbols items).length
  order : ∀ i, i < (distinctSymbols items).length → x.order[i]? = (distinctSymbols items)[i]?
  seen : ∀ a, x.seen.get (symIdx a) = true ↔ a ∈ items
  freq : ∀ a ∈ items, x.freq.get (symIdx a) = BitVec.ofNat 32 (items.count a)

theorem get_set_symIdx {α : Type} (v : Vector α 256) (a b : Symbol) (y : α) :
    (v.set a.toNat y a.isLt).get (symIdx b) = if b = a then y else v.get (symIdx b) := by
  by_cases h : b = a
  · simp [h, symIdx, Vector.get_eq_getElem]
  · have : a.toNat ≠ b.toNat := fun e => h (BitVec.eq_of_toNat_eq e.symm)
    simp [h, this, symIdx, Vector.get_eq_getElem]

theorem counted_startCount (x : Scratch) : Counted [] (startCount x) where
  ovf := rfl
  cnt := rfl
  k := rfl
  order i h := absurd h (by simp [distinctSymbols, newSymbols])
  seen a := by simp [startCount, Vector.get_eq_getElem]
  freq a h := absurd h (by simp)

/-- A symbol seen before (R113). -/
theorem Counted.again {items : List Symbol} {x : Scratch} (h : Counted items x) (hlen : items.length < Config.nMax)
    {a : Symbol} (ha : a ∈ items) : Counted (items ++ [a]) (countOne (countAgain a x)) where
  ovf := h.ovf
  cnt := by
    have := h.cnt
    simp only [Config.nMax] at hlen
    simp only [countOne, countAgain, BitVec.toNat_add, BitVec.toNat_ofNat, List.length_append, List.length_singleton]
    omega
  k := by rw [distinctSymbols_concat_of_mem ha]; exact h.k
  order := by rw [distinctSymbols_concat_of_mem ha]; exact h.order
  seen b := by
    have : b = a → b ∈ items := fun e => e ▸ ha
    simp only [List.mem_append, List.mem_singleton]
    exact (h.seen b).trans (by tauto)
  freq b hb := by
    refine (get_set_symIdx x.freq a b _).trans ?_
    by_cases hba : b = a
    · subst hba
      simp [h.freq b ha, BitVec.ofNat_add]
    · have hmem : b ∈ items := by simpa [hba] using hb
      simp [hba, Ne.symm hba, h.freq b hmem]

/-- A symbol not seen before (R113). -/
theorem Counted.new {items : List Symbol} {x : Scratch} (h : Counted items x) (hlen : items.length < Config.nMax)
    {a : Symbol} (ha : a ∉ items) : Counted (items ++ [a]) (countOne (countNew a x)) where
  ovf := h.ovf
  cnt := by
    have := h.cnt
    simp only [Config.nMax] at hlen
    simp only [countOne, countNew, BitVec.toNat_add, BitVec.toNat_ofNat, List.length_append, List.length_singleton]
    omega
  k := by
    have hk := h.k
    have := length_le_of_nodup (nodup_distinctSymbols items)
    rw [distinctSymbols_concat_of_notMem ha]
    simp only [countOne, countNew, BitVec.toNat_add, BitVec.toNat_ofNat, List.length_append, List.length_singleton]
    omega
  order i hi := by
    have hnodup := nodup_distinctSymbols (items ++ [a])
    have hle := length_le_of_nodup hnodup
    rw [distinctSymbols_concat_of_notMem ha] at hi hle ⊢
    rw [List.length_append, List.length_singleton] at hi hle
    have hk := h.k
    change (x.order.setIfInBounds x.k.toNat a)[i]? = _
    rw [Vector.getElem?_setIfInBounds, hk]
    by_cases hi' : (distinctSymbols items).length = i
    · subst hi'
      have : (distinctSymbols items).length < 256 := by omega
      simp [this]
    · rw [if_neg hi', h.order i (by omega), List.getElem?_append_left (by omega)]
  seen b := by
    change (x.seen.set a.toNat true a.isLt).get (symIdx b) = true ↔ _
    rw [get_set_symIdx]
    by_cases hba : b = a
    · simp [hba]
    · simp [hba, h.seen b]
  freq b hb := by
    refine (get_set_symIdx x.freq a b _).trans ?_
    by_cases hba : b = a
    · simp [hba, List.count_eq_zero_of_not_mem ha]
    · have hmem : b ∈ items := by simpa [hba] using hb
      simp [hba, Ne.symm hba, h.freq b hmem]

theorem Counted.concat {items : List Symbol} {x : Scratch} (h : Counted items x)
    (hlen : items.length < Config.nMax) (a : Symbol) : Counted (items ++ [a]) (countItem a x) := by
  have hcnt : x.cnt ≠ BitVec.ofNat 32 Config.nMax := fun e => by
    have : Config.nMax = items.length := by rw [← h.cnt, e]; rfl
    omega
  by_cases ha : a ∈ items
  · rw [countItem_of_seen h.ovf hcnt ((h.seen a).mpr ha)]
    exact h.again hlen ha
  · have hseen : x.seen.get (symIdx a) = false := Bool.eq_false_iff.mpr (mt (h.seen a).mp ha)
    rw [countItem_of_new h.ovf hcnt hseen]
    exact h.new hlen ha

/-- Counting in two parts is counting at once (R63). -/
theorem countFrequencies_append (items more : List Byte) (x : Scratch) :
    countFrequencies (items ++ more) x = more.foldl (fun y d => countItem d y) (countFrequencies items x) :=
  List.foldl_append

theorem countFrequencies_counted {items : List Byte} (x : Scratch) (h : items.length ≤ Config.nMax) :
    Counted items (countFrequencies items x) := by
  induction items using List.reverseRecOn with
  | nil => exact counted_startCount x
  | append_singleton items a ih =>
    rw [List.length_append, List.length_singleton] at h
    rw [countFrequencies_append]
    exact (ih (by omega)).concat h a

/-- Once the count is overrun it stays so, and no item is looked at any more (R113). -/
theorem foldl_countItem_of_ovf {x : Scratch} (h : x.ovf = true) (items : List Byte) :
    items.foldl (fun y d => countItem d y) x = x := by
  induction items with
  | nil => rfl
  | cons a items ih => rw [List.foldl_cons, countItem_of_ovf h, ih]

/-- The count is overrun exactly by more than N_MAX items (R114). -/
theorem countFrequencies_ovf_iff (items : List Byte) (x : Scratch) :
    (countFrequencies items x).ovf = true ↔ Config.nMax < items.length := by
  refine ⟨fun h => ?_, fun h => ?_⟩
  · by_contra hle
    exact absurd h (by simp [(countFrequencies_counted x (Nat.le_of_not_lt hle)).ovf])
  · obtain ⟨full, a, rest, rfl, hfull⟩ : ∃ full a rest, items = full ++ a :: rest ∧ full.length = Config.nMax :=
      ⟨items.take Config.nMax, items[Config.nMax], items.drop (Config.nMax + 1),
        by rw [← List.drop_eq_getElem_cons h, List.take_append_drop], List.length_take_of_le (Nat.le_of_lt h)⟩
    have hc := countFrequencies_counted x (Nat.le_of_eq hfull)
    have hcnt : (countFrequencies full x).cnt = BitVec.ofNat 32 Config.nMax :=
      BitVec.eq_of_toNat_eq (hc.cnt.trans hfull)
    have hovf : (countItem a (countFrequencies full x)).ovf = true := by
      rw [countItem_of_full hc.ovf hcnt]
    rw [countFrequencies_append, List.foldl_cons, foldl_countItem_of_ovf hovf]
    exact hovf

/-- No item has been counted exactly when the frame is empty, unless the count is overrun (R115). -/
theorem Counted.cnt_eq_zero_iff {items : List Symbol} {x : Scratch} (h : Counted items x) :
    x.cnt = 0#32 ↔ items = [] := by
  rw [← List.length_eq_zero_iff, ← h.cnt]
  exact ⟨fun e => by simp [e], fun e => BitVec.eq_of_toNat_eq e⟩

end Sys2Proof.Machine
end

section
/-! PROOFS. The Huffman tree of a sequence as Machine/Reference.lean words it (R130, R131, R150, R155): which symbols its
leaves hold, and that no path to one begins the path to another or is longer than the codes allow. -/

namespace Sys2Proof.Machine

/-! ### Leaves and paths of a tree -/

/-- The symbols of the leaves, left to right. -/
def HuffTree.symbols : HuffTree → List Symbol
  | .leaf s _ => [s]
  | .node l r => l.symbols ++ r.symbols

theorem HuffTree.length_symbols_pos (t : HuffTree) : 0 < t.symbols.length := by
  induction t with
  | leaf s n => exact Nat.one_pos
  | node l r ihl ihr => simp only [HuffTree.symbols, List.length_append]; omega

/-- The path of every leaf begins with the path to the tree, and has at most as many labels more as there are other
leaves. -/
theorem HuffTree.prefix_of_mem_paths {t : HuffTree} {path : List Bool} {q : Symbol × List Bool}
    (h : q ∈ t.paths path) : path <+: q.2 ∧ q.2.length + 1 ≤ path.length + t.symbols.length := by
  induction t generalizing path with
  | leaf s n =>
    obtain rfl : q = (s, path) := by simpa [HuffTree.paths] using h
    simp [HuffTree.symbols]
  | node l r ihl ihr =>
    have hl := l.length_symbols_pos
    have hr := r.length_symbols_pos
    obtain h | h := List.mem_append.mp h
    · obtain ⟨hpre, hlen⟩ := ihl h
      refine ⟨(List.prefix_append path [false]).trans hpre, ?_⟩
      simp only [HuffTree.symbols, List.length_append, List.length_singleton] at hlen ⊢
      omega
    · obtain ⟨hpre, hlen⟩ := ihr h
      refine ⟨(List.prefix_append path [true]).trans hpre, ?_⟩
      simp only [HuffTree.symbols, List.length_append, List.length_singleton] at hlen ⊢
      omega

theorem HuffTree.map_fst_paths (t : HuffTree) (path : List Bool) : (t.paths path).map Prod.fst = t.symbols := by
  induction t generalizing path with
  | leaf s n => rfl
  | node l r ihl ihr => simp [HuffTree.paths, HuffTree.symbols, ihl, ihr]

/-- Neither of two paths begins with the other. -/
def Apart (p q : Symbol × List Bool) : Prop := ¬ p.2 <+: q.2 ∧ ¬ q.2 <+: p.2

theorem Apart.symm {p q : Symbol × List Bool} (h : Apart p q) : Apart q p := ⟨h.2, h.1⟩

/-- Two paths that part at the same place are apart. -/
theorem apart_of_prefix_append {path : List Bool} {b c : Bool} {p q : Symbol × List Bool} (hbc : b ≠ c)
    (hp : path ++ [b] <+: p.2) (hq : path ++ [c] <+: q.2) : Apart p q := by
  have parted : ∀ v, path ++ [b] <+: v → ¬ path ++ [c] <+: v := fun v hb hc => by
    have := (List.prefix_of_prefix_length_le hb hc (by simp)).eq_of_length (by simp)
    exact hbc (by simpa using this)
  exact ⟨fun h => parted _ (hp.trans h) hq, fun h => parted _ hp (hq.trans h)⟩

/-- No path of a tree begins with another (R155). -/
theorem HuffTree.pairwise_apart_paths (t : HuffTree) (path : List Bool) : (t.paths path).Pairwise Apart := by
  induction t generalizing path with
  | leaf s n => exact List.pairwise_singleton _ _
  | node l r ihl ihr =>
    exact List.pairwise_append.mpr ⟨ihl _, ihr _, fun p hp q hq =>
      apart_of_prefix_append Bool.false_ne_true (prefix_of_mem_paths hp).1 (prefix_of_mem_paths hq).1⟩

theorem HuffTree.map_fst_codes (t : HuffTree) : t.codes.map Prod.fst = t.symbols := by
  cases t with
  | leaf s n => rfl
  | node l r => exact map_fst_paths _ _

theorem HuffTree.length_codes (t : HuffTree) : t.codes.length = t.symbols.length := by
  rw [← t.map_fst_codes, List.length_map]

theorem HuffTree.pairwise_apart_codes (t : HuffTree) : t.codes.Pairwise Apart := by
  cases t with
  | leaf s n => exact List.pairwise_singleton _ _
  | node l r => exact pairwise_apart_paths _ _

theorem HuffTree.codes_ne_nil (t : HuffTree) : t.codes ≠ [] := by
  rw [← List.length_pos_iff_ne_nil, t.length_codes]
  exact t.length_symbols_pos

/-- A code is not empty, and shorter than the number of leaves unless there is one leaf only (R153). -/
theorem HuffTree.length_of_mem_codes {t : HuffTree} {q : Symbol × List Bool} (h : q ∈ t.codes) :
    1 ≤ q.2.length ∧ (q.2.length = 1 ∨ q.2.length < t.symbols.length) := by
  cases t with
  | leaf s n =>
    obtain rfl : q = (s, [false]) := by simpa [HuffTree.codes] using h
    simp
  | node l r =>
    have hlen := (prefix_of_mem_paths (show q ∈ (HuffTree.node l r).paths [] from h)).2
    refine ⟨?_, .inr (by simpa using hlen)⟩
    obtain h | h := List.mem_append.mp (show q ∈ l.paths [false] ++ r.paths [true] from h)
    · exact (prefix_of_mem_paths h).1.length_le
    · exact (prefix_of_mem_paths h).1.length_le

/-! ### Lists of trees in key order -/

/-- `Ranked.before` compares weights and, among equal weights, insertion indices (R14). -/
theorem Ranked.before_iff (a b : Ranked) :
    a.before b = true ↔ a.tree.weight < b.tree.weight ∨ a.tree.weight = b.tree.weight ∧ a.index < b.index := by
  simp [Ranked.before]

theorem insertRanked_perm (t : Ranked) (ts : List Ranked) : (insertRanked t ts).Perm (t :: ts) := by
  induction ts with
  | nil => exact List.Perm.refl _
  | cons a ts ih =>
    rw [insertRanked]
    split
    · exact List.Perm.refl _
    · exact (ih.cons a).trans (List.Perm.swap t a ts)

theorem mem_insertRanked {t r : Ranked} {ts : List Ranked} : r ∈ insertRanked t ts ↔ r = t ∨ r ∈ ts := by
  simpa using (insertRanked_perm t ts).mem_iff

/-- Putting a tree with an index of its own in its place keeps the list in key order. -/
theorem insertRanked_sorted {t : Ranked} {ts : List Ranked} (h : ts.Pairwise fun a b => a.before b = true)
    (hnew : ∀ r ∈ ts, r.index ≠ t.index) : (insertRanked t ts).Pairwise fun a b => a.before b = true := by
  have trans : ∀ {a b c : Ranked}, a.before b = true → b.before c = true → a.before c = true := fun hab hbc => by
    rw [Ranked.before_iff] at *
    omega
  induction ts with
  | nil => exact List.pairwise_singleton _ _
  | cons a ts ih =>
    obtain ⟨ha, hts⟩ := List.pairwise_cons.mp h
    rw [insertRanked]
    split
    · next hta => exact List.pairwise_cons.mpr ⟨fun r hr => (List.mem_cons.mp hr).elim (fun e => e ▸ hta)
        fun hr => trans hta (ha r hr), h⟩
    · next hta =>
      have hat : a.before t = true := by
        have := hnew a List.mem_cons_self
        rw [Ranked.before_iff] at *
        omega
      exact List.pairwise_cons.mpr ⟨fun r hr => (mem_insertRanked.mp hr).elim (fun e => e ▸ hat) (ha r),
        ih hts fun r hr => hnew r (List.mem_cons_of_mem a hr)⟩

/-- The symbols of all trees of a list. -/
def forestSymbols (ts : List Ranked) : List Symbol := ts.flatMap fun r => r.tree.symbols

/-- The weights of all trees of a list together. -/
def forestWeight (ts : List Ranked) : Nat := (ts.map fun r => r.tree.weight).sum

theorem forestSymbols_insertRanked (t : Ranked) (ts : List Ranked) :
    (forestSymbols (insertRanked t ts)).Perm (t.tree.symbols ++ forestSymbols ts) :=
  (insertRanked_perm t ts).flatMap_right _

theorem forestWeight_insertRanked (t : Ranked) (ts : List Ranked) :
    forestWeight (insertRanked t ts) = t.tree.weight + forestWeight ts :=
  ((insertRanked_perm t ts).map _).sum_eq

theorem weight_le_forestWeight {r : Ranked} {ts : List Ranked} (h : r ∈ ts) : r.tree.weight ≤ forestWeight ts :=
  List.single_le_sum (fun _ _ => Nat.zero_le _) _ (List.mem_map_of_mem h)

/-- One merge takes two trees and gives back one (R130). -/
theorem mergeRanked_cons_cons (n next : Nat) (a b : Ranked) (rest : List Ranked) :
    mergeRanked (n + 1) next (a :: b :: rest) =
      mergeRanked n (next + 1) (insertRanked ⟨next, .node a.tree b.tree⟩ rest) := rfl

theorem mergeRanked_singleton (n next : Nat) (a : Ranked) : mergeRanked n next [a] = [a] := by
  cases n <;> rfl

/-- Merging keeps the symbols and the weight, and enough passes leave one tree; how many more they are does not
matter. -/
theorem mergeRanked_eq_singleton {n next : Nat} {ts : List Ranked} (hne : ts ≠ []) (hn : ts.length ≤ n + 1) :
    ∃ r, (∀ m, ts.length ≤ m + 1 → mergeRanked m next ts = [r]) ∧ r.tree.symbols.Perm (forestSymbols ts) ∧
      r.tree.weight = forestWeight ts := by
  have single : ∀ (next : Nat) (r : Ranked), (∀ m, [r].length ≤ m + 1 → mergeRanked m next [r] = [r]) ∧
      r.tree.symbols.Perm (forestSymbols [r]) ∧ r.tree.weight = forestWeight [r] := fun next r =>
    ⟨fun m _ => mergeRanked_singleton m next r, by simp [forestSymbols], by simp [forestWeight]⟩
  induction n generalizing next ts with
  | zero =>
    obtain ⟨r, rfl⟩ := List.length_eq_one_iff.mp (Nat.le_antisymm hn (List.length_pos_iff_ne_nil.mpr hne))
    exact ⟨r, single next r⟩
  | succ n ih =>
    match ts, hne with
    | [r], _ => exact ⟨r, single next r⟩
    | a :: b :: rest, _ =>
      have hlen := (insertRanked_perm ⟨next, .node a.tree b.tree⟩ rest).length_eq
      simp only [List.length_cons] at hn hlen
      obtain ⟨r, hmerge, hsym, hweight⟩ := ih (next := next + 1)
        (ts := insertRanked ⟨next, .node a.tree b.tree⟩ rest) (List.ne_nil_of_length_pos (by omega)) (by omega)
      refine ⟨r, fun m hm => ?_, ?_, ?_⟩
      · obtain ⟨m, rfl⟩ : ∃ k, m = k + 1 := ⟨m - 1, by simp only [List.length_cons] at hm; omega⟩
        exact hmerge m (by simp only [List.length_cons] at hm; omega)
      · refine hsym.trans ((forestSymbols_insertRanked _ rest).trans (.of_eq ?_))
        simp [forestSymbols, HuffTree.symbols]
      · rw [hweight, forestWeight_insertRanked]
        simp [forestWeight, HuffTree.weight]
        omega

/-! ### The leaves of a sequence (R131) -/

/-- One leaf per distinct symbol, in first-occurrence order. -/
def leavesOf (count : Symbol → Nat) (i : Nat) (symbols : List Symbol) : List Ranked :=
  (symbols.zipIdx i).map fun p => ⟨p.2, .leaf p.1 (count p.1)⟩

/-- Each tree of a list put in its place. -/
def insertAll (rs ts : List Ranked) : List Ranked := rs.foldl (fun ts r => insertRanked r ts) ts

theorem leavesOf_cons (count : Symbol → Nat) (i : Nat) (a : Symbol) (symbols : List Symbol) :
    leavesOf count i (a :: symbols) = ⟨i, .leaf a (count a)⟩ :: leavesOf count (i + 1) symbols := by
  simp [leavesOf, List.zipIdx_cons]

theorem rankedLeaves_eq (items : List Symbol) :
    rankedLeaves items = insertAll (leavesOf items.count 0 (distinctSymbols items)) [] := by
  rw [insertAll, leavesOf, List.foldl_map]
  rfl

theorem insertAll_perm (rs ts : List Ranked) : (insertAll rs ts).Perm (rs ++ ts) := by
  induction rs generalizing ts with
  | nil => exact List.Perm.refl _
  | cons r rs ih =>
    exact (ih _).trans (((insertRanked_perm r ts).append_left rs).trans List.perm_middle)

theorem forestSymbols_leavesOf (count : Symbol → Nat) (i : Nat) (symbols : List Symbol) :
    forestSymbols (leavesOf count i symbols) = symbols := by
  induction symbols generalizing i with
  | nil => rfl
  | cons a symbols ih => simpa [leavesOf_cons, forestSymbols, HuffTree.symbols] using ih (i + 1)

theorem forestWeight_leavesOf (count : Symbol → Nat) (i : Nat) (symbols : List Symbol) :
    forestWeight (leavesOf count i symbols) = (symbols.map count).sum := by
  induction symbols generalizing i with
  | nil => rfl
  | cons a symbols ih => simpa [leavesOf_cons, forestWeight, HuffTree.weight] using ih (i + 1)

theorem length_leavesOf (count : Symbol → Nat) (i : Nat) (symbols : List Symbol) :
    (leavesOf count i symbols).length = symbols.length := by simp [leavesOf]

/-- The counts of the distinct symbols add up to the length of the sequence (R141). -/
theorem sum_count_distinctSymbols (items : List Symbol) :
    ((distinctSymbols items).map items.count).sum = items.length := by
  have hperm : (distinctSymbols items).Perm items.dedup :=
    (List.perm_ext_iff_of_nodup (nodup_distinctSymbols items) items.nodup_dedup).mpr fun a => by simp
  rw [(hperm.map items.count).sum_eq]
  exact List.sum_map_count_dedup_eq_length items

/-- The Huffman tree of a sequence that is not empty: any number of passes that is enough gives it, its leaves are the
distinct symbols, and it weighs as much as the sequence is long. -/
theorem huffTree_eq_some {items : List Symbol} (hne : items ≠ []) :
    ∃ r, huffTree items = some r.tree ∧ (rankedLeaves items).length = (distinctSymbols items).length ∧
      (∀ m, (distinctSymbols items).length ≤ m + 1 →
        mergeRanked m (distinctSymbols items).length (rankedLeaves items) = [r]) ∧
      r.tree.symbols.Perm (distinctSymbols items) ∧ r.tree.weight = items.length := by
  have hperm : (rankedLeaves items).Perm (leavesOf items.count 0 (distinctSymbols items)) := by
    rw [rankedLeaves_eq]
    simpa using insertAll_perm (leavesOf items.count 0 (distinctSymbols items)) []
  have hlen : (rankedLeaves items).length = (distinctSymbols items).length := by
    rw [hperm.length_eq, length_leavesOf]
  have hpos := List.length_pos_iff_ne_nil.mpr (distinctSymbols_ne_nil hne)
  obtain ⟨r, hmerge, hsym, hweight⟩ := mergeRanked_eq_singleton (n := (distinctSymbols items).length)
    (next := (distinctSymbols items).length) (ts := rankedLeaves items) (List.ne_nil_of_length_pos (by omega)) (by omega)
  rw [hlen] at hmerge
  refine ⟨r, ?_, hlen, hmerge, ?_, ?_⟩
  · simp [huffTree, hmerge _ (Nat.le_succ _)]
  · have := hsym.trans (hperm.flatMap_right _)
    rwa [← forestSymbols, forestSymbols_leavesOf] at this
  · rw [hweight, forestWeight, (hperm.map _).sum_eq, ← forestWeight, forestWeight_leavesOf, sum_count_distinctSymbols]

end Sys2Proof.Machine
end

section
/-! PROOFS. The Tree Builder (R131 to R137): its tables hold, in key order, the very trees that Machine/Reference.lean
merges, so BUILD's tree is the Huffman tree of its input. -/

namespace Sys2Proof.Machine

/-! ### Trees in NODE -/

/-- NODE holds this tree at id i, every node of it at an id below NNODE. -/
def TreeAt (x : Scratch) (i : NodeId) : HuffTree → Prop
  | .leaf s n => i < x.nnode ∧ nodeAt x i = .leaf s (BitVec.ofNat 32 n)
  | .node l r => i < x.nnode ∧ ∃ a b, nodeAt x i = .internal (BitVec.ofNat 32 (l.weight + r.weight)) a b ∧
      TreeAt x a l ∧ TreeAt x b r

theorem TreeAt.lt_nnode {x : Scratch} {i : NodeId} {t : HuffTree} (h : TreeAt x i t) : i < x.nnode := by
  cases t <;> exact h.1

/-- A node weighs what its tree weighs, modulo 2^32 (R141). -/
theorem TreeAt.weightAt_eq {x : Scratch} {i : NodeId} {t : HuffTree} (h : TreeAt x i t) :
    weightAt x i = BitVec.ofNat 32 t.weight := by
  cases t with
  | leaf s n => rw [weightAt, h.2]; rfl
  | node l r =>
    obtain ⟨-, a, b, hnode, -⟩ := h
    rw [weightAt, hnode]
    rfl

/-- A tree stands as long as no node below NNODE is written. -/
theorem TreeAt.mono {x y : Scratch} (hxy : ∀ j, j < x.nnode → j < y.nnode ∧ nodeAt y j = nodeAt x j) {i : NodeId}
    {t : HuffTree} (h : TreeAt x i t) : TreeAt y i t := by
  induction t generalizing i with
  | leaf s n =>
    obtain ⟨hlt, hnode⟩ := hxy i h.lt_nnode
    exact ⟨hlt, hnode.trans h.2⟩
  | node l r ihl ihr =>
    obtain ⟨hlt, hnode⟩ := hxy i h.lt_nnode
    obtain ⟨-, a, b, hi, hl, hr⟩ := h
    exact ⟨hlt, a, b, hnode.trans hi, ihl hl, ihr hr⟩

/-- Only NODE and NNODE matter to a tree. -/
theorem TreeAt.of_eq {x y : Scratch} (hnode : y.node = x.node) (hnnode : y.nnode = x.nnode) {i : NodeId} {t : HuffTree}
    (h : TreeAt x i t) : TreeAt y i t :=
  h.mono fun j hj => ⟨hnnode ▸ hj, by rw [nodeAt, hnode, nodeAt]⟩

theorem TreeAt.setInq {x : Scratch} {i : NodeId} {t : HuffTree} (h : TreeAt x i t) (j : NodeId) (b : Bool) :
    TreeAt (setInq j b x) i t := TreeAt.of_eq (x := x) (y := Machine.setInq j b x) rfl rfl h

theorem TreeAt.setRoot {x : Scratch} {i : NodeId} {t : HuffTree} (h : TreeAt x i t) (j : NodeId) :
    TreeAt { x with root := j } i t := TreeAt.of_eq (x := x) (y := { x with root := j }) rfl rfl h

/-! ### The members of PQ (R132) -/

theorem mem_membersFrom {i : NodeId} {k : Nat} {bs : List Bool} (h : k + bs.length ≤ 512) :
    i ∈ membersFrom k bs ↔ k ≤ i.toNat ∧ bs[i.toNat - k]? = some true := by
  induction bs generalizing k with
  | nil => simp [membersFrom]
  | cons b bs ih =>
    simp only [List.length_cons] at h
    have hhead : i = BitVec.ofNat 9 k ↔ i.toNat = k := by
      rw [← BitVec.toNat_inj, BitVec.toNat_ofNat, Nat.mod_eq_of_lt (by omega)]
    have htail := ih (k := k + 1) (by omega)
    obtain hlt | heq | hgt := Nat.lt_trichotomy i.toNat k
    · have : ¬ k ≤ i.toNat := by omega
      have h1 : ¬ k + 1 ≤ i.toNat := by omega
      have h2 : i.toNat ≠ k := by omega
      cases b <;> simp [membersFrom, htail, hhead, this, h1, h2]
    · cases b <;> simp [membersFrom, htail, hhead, heq]
    · obtain ⟨d, hd⟩ : ∃ d, i.toNat = k + 1 + d := ⟨i.toNat - (k + 1), by omega⟩
      have h1 : k + 1 + d - k = d + 1 := by omega
      have h2 : k ≤ k + 1 + d := by omega
      have h3 : k + 1 + d ≠ k := by omega
      cases b <;> simp [membersFrom, htail, hhead, hd, h1, h2, h3]

/-- PQ holds the ids whose INQ bit is set (R132). -/
theorem mem_members {x : Scratch} {i : NodeId} : i ∈ members x ↔ x.inq[i.toNat]? = some true := by
  rw [members, mem_membersFrom (by simp)]
  simp

theorem mem_members_setInq {x : Scratch} {i j : NodeId} {b : Bool} (hj : j.toNat < 511) :
    i ∈ members (setInq j b x) ↔ if i = j then b = true else i ∈ members x := by
  rw [mem_members, mem_members]
  by_cases hij : i = j
  · simp [setInq, hij, hj]
  · have : j.toNat ≠ i.toNat := fun e => hij (BitVec.eq_of_toNat_eq e.symm)
    simp [setInq, hij, this]

/-! ### Inserting a node (R131, R135) -/

theorem insertNode_nnode {x : Scratch} (n : Node) (h : x.nnode.toNat < 511) :
    (insertNode n x).nnode.toNat = x.nnode.toNat + 1 := by
  simp only [insertNode, setInq, setNode, BitVec.toNat_add, BitVec.toNat_ofNat]
  omega

theorem nodeAt_insertNode {x : Scratch} (n : Node) (h : x.nnode.toNat < 511) (j : NodeId) :
    nodeAt (insertNode n x) j = if j = x.nnode then n else nodeAt x j := by
  by_cases hj : j = x.nnode
  · simp [nodeAt, insertNode, setInq, setNode, hj, h]
  · have : x.nnode.toNat ≠ j.toNat := fun e => hj (BitVec.eq_of_toNat_eq e.symm)
    simp [nodeAt, insertNode, setInq, setNode, hj, this]

theorem mem_members_insertNode {x : Scratch} (n : Node) (h : x.nnode.toNat < 511) (i : NodeId) :
    i ∈ members (insertNode n x) ↔ i = x.nnode ∨ i ∈ members x := by
  have : members (insertNode n x) = members (setInq x.nnode true x) := rfl
  rw [this, mem_members_setInq h]
  by_cases hi : i = x.nnode <;> simp [hi]

theorem TreeAt.insert {x : Scratch} (n : Node) (h : x.nnode.toNat < 511) {i : NodeId} {t : HuffTree}
    (ht : TreeAt x i t) : TreeAt (insertNode n x) i t := by
  refine ht.mono fun j hj => ⟨?_, ?_⟩
  · rw [BitVec.lt_def] at *
    rw [insertNode_nnode n h]
    omega
  · rw [nodeAt_insertNode n h, if_neg (BitVec.ne_of_lt hj)]

theorem nnode_lt_insertNode {x : Scratch} (n : Node) (h : x.nnode.toNat < 511) : x.nnode < (insertNode n x).nnode := by
  rw [BitVec.lt_def, insertNode_nnode n h]
  exact Nat.lt_succ_self _

theorem treeAt_insertNode_leaf {x : Scratch} (h : x.nnode.toNat < 511) (s : Symbol) (n : Nat) :
    TreeAt (insertNode (.leaf s (BitVec.ofNat 32 n)) x) x.nnode (.leaf s n) :=
  ⟨nnode_lt_insertNode _ h, by rw [nodeAt_insertNode _ h, if_pos rfl]⟩

/-- A node over two trees makes one tree of them (R135). -/
theorem treeAt_insertNode_internal {x : Scratch} (h : x.nnode.toNat < 511) {i j : NodeId} {l r : HuffTree} {w : Weight}
    (hw : w = BitVec.ofNat 32 (l.weight + r.weight)) (hl : TreeAt x i l) (hr : TreeAt x j r) :
    TreeAt (insertNode (.internal w i j) x) x.nnode (.node l r) :=
  ⟨nnode_lt_insertNode _ h, i, j, by rw [nodeAt_insertNode _ h, if_pos rfl, hw], hl.insert _ h, hr.insert _ h⟩

/-! ### The tables as a list of trees in key order -/

/-- PQ holds the roots of these trees, which are in key order, each at its own id, and are not too heavy together for the
weights to be exact (R132, R140). -/
structure Forest (x : Scratch) (ts : List Ranked) : Prop where
  trees : ∀ r ∈ ts, r.index < x.nnode.toNat ∧ TreeAt x (BitVec.ofNat 9 r.index) r.tree
  inq : ∀ i, i ∈ members x ↔ ∃ r ∈ ts, r.index = i.toNat
  sorted : ts.Pairwise fun a b => a.before b = true
  indices : (ts.map Ranked.index).Nodup
  weight : forestWeight ts ≤ Config.nMax

theorem Forest.toNat_index {x : Scratch} {ts : List Ranked} (h : Forest x ts) {r : Ranked} (hr : r ∈ ts) :
    (BitVec.ofNat 9 r.index).toNat = r.index := by
  have := (h.trees r hr).1
  rw [BitVec.toNat_ofNat, Nat.mod_eq_of_lt (by omega)]

theorem keyLt_iff (x : Scratch) (a b : NodeId) : keyLt x a b = true ↔
    (weightAt x a).toNat < (weightAt x b).toNat ∨
      (weightAt x a).toNat = (weightAt x b).toNat ∧ a.toNat < b.toNat := by
  simp [keyLt, BitVec.lt_def, BitVec.toNat_inj]

/-- The key order of the machine is the order of the trees (R14). -/
theorem Forest.keyLt_iff_before {x : Scratch} {ts : List Ranked} (h : Forest x ts) {a b : Ranked} (ha : a ∈ ts)
    (hb : b ∈ ts) : keyLt x (BitVec.ofNat 9 a.index) (BitVec.ofNat 9 b.index) = true ↔ a.before b = true := by
  have exact_weight : ∀ r ∈ ts, (weightAt x (BitVec.ofNat 9 r.index)).toNat = r.tree.weight := fun r hr => by
    have hle := (weight_le_forestWeight hr).trans h.weight
    simp only [Config.nMax] at hle
    rw [(h.trees r hr).2.weightAt_eq, BitVec.toNat_ofNat, Nat.mod_eq_of_lt (by omega)]
  rw [keyLt_iff, Ranked.before_iff, exact_weight a ha, exact_weight b hb, h.toNat_index ha, h.toNat_index hb]

/-- `leastOf` answers one of the members, and no member has a lesser key (R133). -/
theorem leastOf_spec (x : Scratch) (m : NodeId) (rest : List NodeId) :
    leastOf x m rest ∈ m :: rest ∧ ∀ a ∈ m :: rest, keyLt x a (leastOf x m rest) = false := by
  have irrefl : ∀ a, keyLt x a a = false := fun a => by simp [← Bool.not_eq_true, keyLt_iff]
  induction rest generalizing m with
  | nil => simp [leastOf, irrefl]
  | cons a rest ih =>
    rw [leastOf]
    obtain ⟨hmem, hleast⟩ := ih (if keyLt x a m then a else m)
    have hfirst := hleast _ List.mem_cons_self
    have hrest := fun b hb => hleast b (List.mem_cons_of_mem _ hb)
    generalize leastOf x (if keyLt x a m then a else m) rest = y at *
    cases ham : keyLt x a m with
    | true =>
      simp only [ham, if_true] at hmem hfirst
      have hm : keyLt x m y = false := by
        rw [keyLt_iff] at ham
        rw [← Bool.not_eq_true, keyLt_iff] at hfirst ⊢
        omega
      exact ⟨List.mem_cons_of_mem m hmem, by simpa [hm, hfirst] using hrest⟩
    | false =>
      simp only [ham, Bool.false_eq_true, if_false] at hmem hfirst
      have ha : keyLt x a y = false := by
        rw [← Bool.not_eq_true, keyLt_iff] at ham hfirst ⊢
        omega
      have hmem' : y ∈ m :: a :: rest := by
        obtain h | h := List.mem_cons.mp hmem
        · exact h ▸ List.mem_cons_self
        · exact List.mem_cons_of_mem _ (List.mem_cons_of_mem _ h)
      exact ⟨hmem', by simpa [ha, hfirst] using hrest⟩

/-- The least member of PQ is the root of the first tree (R133). -/
theorem Forest.leastMember_eq {x : Scratch} {r : Ranked} {rest : List Ranked} (h : Forest x (r :: rest)) :
    leastMember x = some (BitVec.ofNat 9 r.index) := by
  have hr : r ∈ r :: rest := List.mem_cons_self
  have hroot : BitVec.ofNat 9 r.index ∈ members x := (h.inq _).mpr ⟨r, hr, (h.toNat_index hr).symm⟩
  cases hm : members x with
  | nil => simp [hm] at hroot
  | cons m ms =>
    obtain ⟨hmem, hleast⟩ := leastOf_spec x m ms
    rw [← hm] at hmem hleast
    obtain ⟨q, hq, hindex⟩ := (h.inq _).mp hmem
    have hy : leastOf x m ms = BitVec.ofNat 9 q.index :=
      BitVec.eq_of_toNat_eq (hindex.symm.trans (h.toNat_index hq).symm)
    have hqr : q = r := by
      by_contra hne
      have hbefore := (List.pairwise_cons.mp h.sorted).1 q ((List.mem_cons.mp hq).resolve_left hne)
      have := hleast _ hroot
      rw [hy, (h.keyLt_iff_before hr hq).mpr hbefore] at this
      exact absurd this (by decide)
    rw [leastMember, hm]
    simp only [hy, hqr]

/-- Without trees PQ has no member. -/
theorem Forest.leastMember_nil {x : Scratch} (h : Forest x []) : leastMember x = none := by
  have : members x = [] := List.eq_nil_iff_forall_not_mem.mpr fun i hi => by simpa using (h.inq i).mp hi
  rw [leastMember, this]

/-- `extract_min()` takes the first tree out (R133). -/
theorem Forest.extractMin_eq {x : Scratch} {r : Ranked} {rest : List Ranked} (h : Forest x (r :: rest))
    (hx : x.nnode.toNat ≤ 511) :
    ∃ y, extractMin x = some (BitVec.ofNat 9 r.index, y) ∧ y.node = x.node ∧ y.nnode = x.nnode ∧ y.k = x.k ∧
      Forest y rest := by
  refine ⟨setInq (BitVec.ofNat 9 r.index) false x, by rw [extractMin, h.leastMember_eq]; rfl, rfl, rfl, rfl, ?_⟩
  have hr : r ∈ r :: rest := List.mem_cons_self
  obtain ⟨hnotMem, hnodup⟩ := List.nodup_cons.mp h.indices
  refine ⟨fun q hq => ?_, fun i => ?_, (List.pairwise_cons.mp h.sorted).2, hnodup, ?_⟩
  · obtain ⟨hlt, ht⟩ := h.trees q (List.mem_cons_of_mem r hq)
    exact ⟨hlt, ht.setInq _ _⟩
  · have hlt := (h.trees r hr).1
    have hindex := h.toNat_index hr
    rw [mem_members_setInq (by omega), h.inq]
    by_cases hi : i = BitVec.ofNat 9 r.index
    · have : ¬ ∃ q ∈ rest, q.index = i.toNat := fun ⟨q, hq, e⟩ =>
        hnotMem (List.mem_map.mpr ⟨q, hq, by rw [e, hi, hindex]⟩)
      simpa [hi] using this
    · have : r.index ≠ i.toNat := fun e => hi (BitVec.eq_of_toNat_eq (by rw [hindex, e]))
      simp [hi, this]
  · have := h.weight
    simp only [forestWeight, List.map_cons, List.sum_cons] at this ⊢
    omega

/-- A node that makes a tree of id NNODE puts that tree in its place in key order (R131, R135). -/
theorem Forest.insert {x : Scratch} {ts : List Ranked} (h : Forest x ts) {n : Node} (hx : x.nnode.toNat < 511)
    {t : HuffTree} (ht : TreeAt (insertNode n x) x.nnode t) (hweight : forestWeight ts + t.weight ≤ Config.nMax) :
    Forest (insertNode n x) (insertRanked ⟨x.nnode.toNat, t⟩ ts) where
  trees r hr := by
    rw [insertNode_nnode n hx]
    obtain rfl | hr := mem_insertRanked.mp hr
    · exact ⟨Nat.lt_succ_self _, by simpa using ht⟩
    · obtain ⟨hlt, hr⟩ := h.trees r hr
      exact ⟨Nat.lt_succ_of_lt hlt, hr.insert n hx⟩
  inq i := by
    rw [mem_members_insertNode n hx, h.inq, ← BitVec.toNat_inj]
    simp [mem_insertRanked, or_and_right, exists_or, eq_comm]
  sorted := insertRanked_sorted h.sorted fun r hr => Nat.ne_of_lt (h.trees r hr).1
  indices := by
    rw [((insertRanked_perm _ ts).map _).nodup_iff]
    refine List.nodup_cons.mpr ⟨fun hmem => ?_, h.indices⟩
    obtain ⟨r, hr, hindex⟩ := List.mem_map.mp hmem
    exact absurd hindex (Nat.ne_of_lt (h.trees r hr).1)
  weight := by
    rw [forestWeight_insertRanked]
    exact (Nat.add_comm _ _).trans_le hweight

/-! ### Merging (R134 to R136) -/

/-- One pass of the merge loop merges the first two trees, the first one left. -/
theorem Forest.mergeOnce_eq {x : Scratch} {a b : Ranked} {rest : List Ranked} (h : Forest x (a :: b :: rest))
    (hx : x.nnode.toNat < 511) :
    ∃ y, mergeOnce x = some y ∧ y.nnode.toNat = x.nnode.toNat + 1 ∧ y.k = x.k ∧
      Forest y (insertRanked ⟨x.nnode.toNat, .node a.tree b.tree⟩ rest) := by
  obtain ⟨y, hfirst, hynode, hynnode, hyk, hy⟩ := h.extractMin_eq (Nat.le_of_lt hx)
  obtain ⟨z, hsecond, hznode, hznnode, hzk, hz⟩ := hy.extractMin_eq (by rw [hynnode]; exact Nat.le_of_lt hx)
  obtain ⟨-, ha⟩ := h.trees a List.mem_cons_self
  obtain ⟨-, hb⟩ := h.trees b (List.mem_cons_of_mem a List.mem_cons_self)
  have hzx : z.nnode = x.nnode := hznnode.trans hynnode
  have hsum : forestWeight rest + (HuffTree.node a.tree b.tree).weight ≤ Config.nMax := by
    have := h.weight
    simp only [forestWeight, HuffTree.weight, List.map_cons, List.sum_cons] at this ⊢
    omega
  have hw : weightAt x (BitVec.ofNat 9 a.index) + weightAt x (BitVec.ofNat 9 b.index) =
      BitVec.ofNat 32 (a.tree.weight + b.tree.weight) := by
    rw [ha.weightAt_eq, hb.weightAt_eq, ← BitVec.ofNat_add]
  have hmerge : mergeOnce x = some (insertNode (.internal (weightAt x (BitVec.ofNat 9 a.index) +
      weightAt x (BitVec.ofNat 9 b.index)) (BitVec.ofNat 9 a.index) (BitVec.ofNat 9 b.index)) z) := by
    rw [mergeOnce, hfirst, Option.bind_some, hsecond]
    rfl
  rw [← hzx] at hx ⊢
  exact ⟨_, hmerge, insertNode_nnode _ hx, hzk.trans hyk, hz.insert hx
    (treeAt_insertNode_internal hx hw (ha.of_eq (hznode.trans hynode) hzx) (hb.of_eq (hznode.trans hynode) hzx)) hsum⟩

/-- The merge loop stops with one tree left (R134). -/
theorem Forest.mergeLoop_singleton {x : Scratch} {r : Ranked} (h : Forest x [r]) (hx : x.nnode.toNat ≤ 511) (n : Nat) :
    mergeLoop n x = x := by
  obtain ⟨y, hfirst, -, -, -, h1⟩ := h.extractMin_eq hx
  have : mergeOnce x = none := by
    rw [mergeOnce, hfirst, Option.bind_some, extractMin, h1.leastMember_nil]
    rfl
  cases n with
  | zero => rfl
  | succ n => rw [mergeLoop, this]

/-- The merge loop merges as R130 does, until one tree is left. -/
theorem Forest.mergeLoop_eq {n : Nat} {x : Scratch} {ts : List Ranked} (h : Forest x ts) (hne : ts ≠ [])
    (hn : ts.length ≤ n + 1) (hx : x.nnode.toNat + ts.length ≤ 512) :
    (mergeLoop n x).k = x.k ∧ Forest (mergeLoop n x) (mergeRanked n x.nnode.toNat ts) := by
  induction n generalizing x ts with
  | zero =>
    obtain ⟨r, rfl⟩ := List.length_eq_one_iff.mp (Nat.le_antisymm hn (List.length_pos_iff_ne_nil.mpr hne))
    exact ⟨rfl, h⟩
  | succ n ih =>
    match ts, hne with
    | [r], _ =>
      rw [h.mergeLoop_singleton (by rw [List.length_singleton] at hx; omega), mergeRanked_singleton]
      exact ⟨rfl, h⟩
    | a :: b :: rest, _ =>
      simp only [List.length_cons] at hn hx
      have hlen := (insertRanked_perm ⟨x.nnode.toNat, .node a.tree b.tree⟩ rest).length_eq
      rw [List.length_cons] at hlen
      obtain ⟨y, hmerge, hnnode, hk, hy⟩ := h.mergeOnce_eq (by omega)
      obtain ⟨hk', hforest⟩ := ih hy (List.ne_nil_of_length_pos (by omega)) (by omega) (by omega)
      rw [mergeLoop, hmerge, mergeRanked_cons_cons, ← hnnode]
      exact ⟨hk'.trans hk, hforest⟩

/-! ### The leaves and the whole tree (R131, R137) -/

theorem leafAt_insertNode (n : Node) (x : Scratch) (i : Nat) : leafAt (insertNode n x) i = leafAt x i := rfl

/-- Leaf creation puts the leaf of every distinct symbol in its place, in first-occurrence order (R131). -/
theorem Forest.insertLeaves_eq {count : Symbol → Nat} {symbols : List Symbol} {i : Nat} {x : Scratch} {ts : List Ranked}
    (h : Forest x ts) (hi : x.nnode.toNat = i) (hle : i + symbols.length ≤ 256)
    (hleaf : ∀ p ∈ symbols.zipIdx i, leafAt x p.2 = .leaf p.1 (BitVec.ofNat 32 (count p.1)))
    (hweight : forestWeight ts + (symbols.map count).sum ≤ Config.nMax) :
    (insertLeaves symbols.length i x).nnode.toNat = i + symbols.length ∧
      (insertLeaves symbols.length i x).k = x.k ∧
      Forest (insertLeaves symbols.length i x) (insertAll (leavesOf count i symbols) ts) := by
  induction symbols generalizing i x ts with
  | nil => exact ⟨hi, rfl, h⟩
  | cons a symbols ih =>
    have hx : x.nnode.toNat < 511 := by rw [List.length_cons] at hle; omega
    have hnode : leafAt x i = .leaf a (BitVec.ofNat 32 (count a)) := hleaf (a, i) (by simp [List.zipIdx_cons])
    simp only [List.length_cons, List.map_cons, List.sum_cons] at hle hweight ⊢
    have hnew : TreeAt (insertNode (leafAt x i) x) x.nnode (.leaf a (count a)) := hnode ▸ treeAt_insertNode_leaf hx a _
    have hput := h.insert hx hnew (by simp only [HuffTree.weight]; omega)
    obtain ⟨hnnode, hk, hforest⟩ := ih hput (i := i + 1) (by rw [insertNode_nnode _ hx, hi]) (by omega)
      (fun p hp => (leafAt_insertNode _ x p.2).trans (hleaf p (by simp [List.zipIdx_cons, hp])))
      (by rw [forestWeight_insertRanked]; simp only [HuffTree.weight]; omega)
    rw [leavesOf_cons, ← hi]
    rw [← hi] at hnnode hk hforest
    exact ⟨hnnode.trans (by omega), hk, hforest⟩

/-- What `build_tree()` starts from: INQ cleared and no node (R134). -/
def clearTree (x : Scratch) : Scratch := { x with inq := Vector.replicate 511 false, nnode := 0#9 }

theorem buildTree_eq {x : Scratch} {i : NodeId}
    (h : leastMember (mergeLoop (Config.kMax - 1) (insertLeaves x.k.toNat 0 (clearTree x))) = some i) :
    buildTree x = { mergeLoop (Config.kMax - 1) (insertLeaves x.k.toNat 0 (clearTree x)) with root := i } := by
  rw [clearTree] at h
  simp only [buildTree, h, clearTree]

theorem forest_clearTree (x : Scratch) : Forest (clearTree x) [] where
  trees r hr := absurd hr (by simp)
  inq i := by simp [clearTree, mem_members, Vector.getElem?_replicate]
  sorted := List.Pairwise.nil
  indices := List.nodup_nil
  weight := Nat.zero_le _

/-- Phase 2 of BUILD leaves the Huffman tree of its input at ROOT (R130, R137). -/
theorem Counted.treeAt_buildTree {items : List Symbol} {x : Scratch} (h : Counted items x) (hne : items ≠ [])
    (hlen : items.length ≤ Config.nMax) :
    ∃ t, huffTree items = some t ∧ t.symbols.Perm (distinctSymbols items) ∧ t.weight = items.length ∧
      TreeAt (buildTree x) (buildTree x).root t ∧ (buildTree x).k = x.k := by
  obtain ⟨r, htree, hcount, hmerge, hsymbols, hweight⟩ := huffTree_eq_some hne
  refine ⟨r.tree, htree, hsymbols, hweight, ?_⟩
  have hle := length_le_of_nodup (nodup_distinctSymbols items)
  have hleaf : ∀ p ∈ (distinctSymbols items).zipIdx, leafAt x p.2 = .leaf p.1 (BitVec.ofNat 32 (items.count p.1)) := by
    intro p hp
    have hget := List.mem_zipIdx_iff_getElem?.mp hp
    obtain ⟨hlt, -⟩ := List.getElem?_eq_some_iff.mp hget
    have horder : orderAt x p.2 = p.1 := by rw [orderAt, h.order _ hlt, hget]; rfl
    rw [leafAt, horder, h.freq _ (mem_distinctSymbols.mp (List.mem_of_getElem? hget))]
  have hleaves := (forest_clearTree x).insertLeaves_eq (count := items.count) (i := 0) rfl (by omega) hleaf
    (by rw [sum_count_distinctSymbols]; simpa [forestWeight] using hlen)
  rw [← rankedLeaves_eq, ← h.k, Nat.zero_add] at hleaves
  obtain ⟨hnnode, hk, hforest⟩ := hleaves
  obtain ⟨hk', hmerged⟩ := hforest.mergeLoop_eq (n := Config.kMax - 1)
    (List.ne_nil_of_length_pos (by rw [hcount]; exact List.length_pos_iff_ne_nil.mpr (distinctSymbols_ne_nil hne)))
    (by rw [hcount]; exact hle) (by rw [hcount, hnnode, h.k]; omega)
  rw [hnnode, h.k, hmerge (Config.kMax - 1) hle, ← h.k] at hmerged
  obtain ⟨-, ht⟩ := hmerged.trees r List.mem_cons_self
  rw [buildTree_eq hmerged.leastMember_eq]
  exact ⟨ht.setRoot _, hk'.trans hk⟩

end Sys2Proof.Machine
end

section
/-! PROOFS. The Code Generator (R150 to R156): from a tree at ROOT it assigns every symbol the path to its leaf, and the
mapping of those paths meets R32. -/

namespace Sys2Proof.Machine

/-! ### The code of a path (R10) -/

/-- The code with these labels (R10, R151). -/
def codeOf (path : List Bool) : Code := path.foldl codeSnoc Code.empty

theorem codeOf_concat (path : List Bool) (b : Bool) : codeOf (path ++ [b]) = codeSnoc (codeOf path) b := by
  simp [codeOf]

/-- A path of at most 255 labels is the labels of its code, and no bit stands above them. -/
theorem codeLabels_codeOf {path : List Bool} (h : path.length ≤ 255) :
    codeLabels (codeOf path) = path ∧ (codeOf path).bits >>> (codeOf path).len.toNat = 0#255 := by
  induction path using List.reverseRecOn with
  | nil => exact ⟨rfl, rfl⟩
  | append_singleton path b ih =>
    rw [List.length_append, List.length_singleton] at h
    obtain ⟨hlabels, hbits⟩ := ih (by omega)
    have hlen : (codeOf path).len.toNat < 255 := by
      have := congrArg List.length hlabels
      rw [length_codeLabels] at this
      omega
    rw [codeOf_concat, codeLabels_codeSnoc hlen hbits, hlabels]
    exact ⟨rfl, codeSnoc_shifted hlen hbits b⟩

theorem codeOf_len {path : List Bool} (h : path.length ≤ 255) : (codeOf path).len.toNat = path.length := by
  rw [← length_codeLabels, (codeLabels_codeOf h).1]

theorem codeOf_wellFormed {path : List Bool} (hpos : 1 ≤ path.length) (h : path.length ≤ 255) :
    (codeOf path).wellFormed = true := by
  refine (wellFormed_iff _).mpr ⟨fun h0 => ?_, (codeLabels_codeOf h).2⟩
  have hlen := codeOf_len h
  rw [h0, BitVec.toNat_ofNat] at hlen
  omega

/-! ### The visits (R152) -/

/-- The number of nodes of a tree. -/
def HuffTree.nodes : HuffTree → Nat
  | .leaf _ _ => 1
  | .node l r => l.nodes + r.nodes + 1

theorem HuffTree.nodes_eq (t : HuffTree) : t.nodes + 1 = 2 * t.symbols.length := by
  induction t with
  | leaf s n => rfl
  | node l r ihl ihr => simp only [HuffTree.nodes, HuffTree.symbols, List.length_append]; omega

/-- `assign` for a list of symbols and paths in turn (R154). -/
def assignAll (codes : List (Symbol × List Bool)) (m : Mapping) : Mapping :=
  codes.foldl (fun m q => assignCode q.1 (codeOf q.2) m) m

theorem assignAll_append (codes more : List (Symbol × List Bool)) (m : Mapping) :
    assignAll (codes ++ more) m = assignAll more (assignAll codes m) := List.foldl_append

/-- The same tree, and the same stack but for its top entry, which is gone. -/
structure Popped (x y : Scratch) : Prop where
  node : y.node = x.node
  nnode : y.nnode = x.nnode
  root : y.root = x.root
  k : y.k = x.k
  sp : y.sp.toNat + 1 = x.sp.toNat
  stack : ∀ j, j < y.sp.toNat → y.stack[j]? = x.stack[j]?

theorem toNat_sub_one {v : BitVec 9} (h : 0 < v.toNat) : (v - 1#9).toNat = v.toNat - 1 := by bv_omega

theorem popped_popStack {x : Scratch} (h : 0 < x.sp.toNat) : Popped x (popStack x) where
  node := rfl
  nnode := rfl
  root := rfl
  k := rfl
  sp := by
    have := toNat_sub_one h
    simp only [popStack]
    omega
  stack _ _ := rfl

theorem topEntry_eq {x : Scratch} {e : StackEntry} (h : 0 < x.sp.toNat) (he : x.stack[x.sp.toNat - 1]? = some e) :
    topEntry x = e := by
  rw [topEntry, toNat_sub_one h, he, Option.getD_some]

theorem pushStack_sp {x : Scratch} (e : StackEntry) (h : x.sp.toNat < 256) :
    (pushStack e x).sp.toNat = x.sp.toNat + 1 := by
  simp only [pushStack, BitVec.toNat_add, BitVec.toNat_ofNat]
  omega

theorem pushStack_stack {x : Scratch} (e : StackEntry) (h : x.sp.toNat < 256) (j : Nat) :
    (pushStack e x).stack[j]? = if j = x.sp.toNat then some e else x.stack[j]? := by
  by_cases hj : j = x.sp.toNat
  · simp [pushStack, hj, h]
  · simp [pushStack, hj, Ne.symm hj]

/-- What an internal node leaves on the stack in place of itself: its two children, the left one on top (R151). -/
theorem pushStack_children {x : Scratch} (e f : StackEntry) (h : 0 < x.sp.toNat) (hroom : x.sp.toNat ≤ 255) :
    ∃ z, pushStack e (pushStack f (popStack x)) = z ∧ z.node = x.node ∧ z.nnode = x.nnode ∧ z.root = x.root ∧
      z.k = x.k ∧ z.sp.toNat = x.sp.toNat + 1 ∧ z.stack[x.sp.toNat]? = some e ∧
      z.stack[x.sp.toNat - 1]? = some f ∧ ∀ j, j < x.sp.toNat - 1 → z.stack[j]? = x.stack[j]? := by
  have hpop := (popped_popStack h).sp
  have hsp₁ := pushStack_sp (x := popStack x) f (by omega)
  have hsp₂ := pushStack_sp (x := pushStack f (popStack x)) e (by omega)
  have hstack₁ := pushStack_stack (x := popStack x) f (by omega)
  have hstack₂ := pushStack_stack (x := pushStack f (popStack x)) e (by omega)
  refine ⟨_, rfl, rfl, rfl, rfl, rfl, by omega, ?_, ?_, fun j hj => ?_⟩
  · rw [hstack₂, if_pos (by omega)]
  · rw [hstack₂, if_neg (by omega), hstack₁, if_pos (by omega)]
  · rw [hstack₂, if_neg (by omega), hstack₁, if_neg (by omega)]
    rfl

theorem visitLoop_of_empty {x : Scratch} (n : Nat) (m : Mapping) (h : x.sp = 0#9) : visitLoop n x m = (x, m) := by
  cases n with
  | zero => rfl
  | succ n => rw [visitLoop, if_pos h]

/-- One visit of a leaf (R151). -/
theorem visitLoop_leaf {x : Scratch} {i : NodeId} {p : Code} {s : Symbol} {w : Weight} (n : Nat) (m : Mapping)
    (h : 0 < x.sp.toNat) (he : x.stack[x.sp.toNat - 1]? = some ⟨i, p⟩) (hi : nodeAt x i = .leaf s w) :
    visitLoop (n + 1) x m = visitLoop n (popStack x) (assignCode s p m) := by
  have hsp : x.sp ≠ 0#9 := fun h0 => by simp [h0] at h
  simp only [visitLoop, if_neg hsp, visitTop, topEntry_eq h he, hi]

/-- One visit of an internal node (R151). -/
theorem visitLoop_internal {x : Scratch} {i l r : NodeId} {p : Code} {w : Weight} (n : Nat) (m : Mapping)
    (h : 0 < x.sp.toNat) (he : x.stack[x.sp.toNat - 1]? = some ⟨i, p⟩) (hi : nodeAt x i = .internal w l r) :
    visitLoop (n + 1) x m =
      visitLoop n (pushStack ⟨l, codeSnoc p false⟩ (pushStack ⟨r, codeSnoc p true⟩ (popStack x))) m := by
  have hsp : x.sp ≠ 0#9 := fun h0 => by simp [h0] at h
  simp only [visitLoop, if_neg hsp, visitTop, topEntry_eq h he, hi]

/-- The visits of a whole tree that is on top of the stack assign the paths to its leaves, left to right, and take it off
the stack (R151, R152). The stack has room for them when it has room for as many entries as the tree has leaves (R156). -/
theorem visitLoop_treeAt {t : HuffTree} {x : Scratch} {i : NodeId} {path : List Bool} (n : Nat) (m : Mapping)
    (ht : TreeAt x i t) (h : 0 < x.sp.toNat) (hroom : x.sp.toNat + t.symbols.length ≤ 257)
    (he : x.stack[x.sp.toNat - 1]? = some ⟨i, codeOf path⟩) :
    ∃ y, visitLoop (n + t.nodes) x m = visitLoop n y (assignAll (t.paths path) m) ∧ Popped x y := by
  induction t generalizing x i path n m with
  | leaf s w => exact ⟨popStack x, visitLoop_leaf n m h he ht.2, popped_popStack h⟩
  | node l r ihl ihr =>
    obtain ⟨-, a, b, hnode, hl, hr⟩ := ht
    have hlpos := l.length_symbols_pos
    have hrpos := r.length_symbols_pos
    simp only [HuffTree.symbols, List.length_append] at hroom
    obtain ⟨z, hz, hznode, hznnode, hzroot, hzk, hzsp, hztop, hzsecond, hzstack⟩ :=
      pushStack_children ⟨a, codeSnoc (codeOf path) false⟩ ⟨b, codeSnoc (codeOf path) true⟩ h (by omega)
    obtain ⟨y, hvisitl, hpopl⟩ := ihl (path := path ++ [false]) (n + r.nodes) m (hl.of_eq hznode hznnode) (by omega)
      (by omega) (by rw [hzsp, codeOf_concat]; exact hztop)
    have hysp := hpopl.sp
    obtain ⟨u, hvisitr, hpopr⟩ := ihr (path := path ++ [true]) n (assignAll (l.paths (path ++ [false])) m)
      (hr.of_eq (hpopl.node.trans hznode) (hpopl.nnode.trans hznnode)) (by omega) (by omega)
      (by rw [hpopl.stack _ (by omega), codeOf_concat, show y.sp.toNat = x.sp.toNat by omega]; exact hzsecond)
    have husp := hpopr.sp
    refine ⟨u, ?_, ⟨?_, ?_, ?_, ?_, by omega, fun j hj => ?_⟩⟩
    · calc visitLoop (n + (l.nodes + r.nodes + 1)) x m
          = visitLoop (n + r.nodes + l.nodes) z m := by
            rw [← hz, ← visitLoop_internal _ m h he hnode]
            congr 1
            omega
        _ = visitLoop n u (assignAll (r.paths (path ++ [true])) (assignAll (l.paths (path ++ [false])) m)) := by
            rw [hvisitl, hvisitr]
        _ = visitLoop n u (assignAll ((HuffTree.node l r).paths path) m) := by
            rw [← assignAll_append]
            rfl
    · rw [hpopr.node, hpopl.node, hznode]
    · rw [hpopr.nnode, hpopl.nnode, hznnode]
    · rw [hpopr.root, hpopl.root, hzroot]
    · rw [hpopr.k, hpopl.k, hzk]
    · rw [hpopr.stack j hj, hpopl.stack j (by omega), hzstack j (by omega)]

/-- The stack before the first visit: the root alone, with the empty path (R152). -/
theorem pushStack_root (x : Scratch) :
    ∃ z, pushStack ⟨x.root, Code.empty⟩ { x with sp := 0#9 } = z ∧ z.node = x.node ∧ z.nnode = x.nnode ∧
      z.root = x.root ∧ z.k = x.k ∧ z.sp.toNat = 1 ∧ z.stack[0]? = some ⟨x.root, Code.empty⟩ :=
  have hzero : ({ x with sp := 0#9 } : Scratch).sp.toNat < 256 := Nat.zero_lt_succ _
  ⟨_, rfl, rfl, rfl, rfl, rfl, pushStack_sp _ hzero, by rw [pushStack_stack _ hzero]; rfl⟩

/-- Phase 3 of BUILD assigns the codes of the tree at ROOT and leaves the tree and K (R150, R152, R153). -/
theorem generateCodes_treeAt {t : HuffTree} {x : Scratch} (m : Mapping) (ht : TreeAt x x.root t)
    (hle : t.symbols.length ≤ 256) :
    ∃ y, generateCodes x m = (y, assignAll t.codes { m with maxlen := 0#8 }) ∧ y.node = x.node ∧ y.root = x.root ∧
      y.k = x.k := by
  cases t with
  | leaf s n =>
    refine ⟨x, ?_, rfl, rfl, rfl⟩
    simp only [generateCodes, ht.2]
    rfl
  | node l r =>
    obtain ⟨-, a, b, hroot, -⟩ := id ht
    have hnodes := (HuffTree.node l r).nodes_eq
    obtain ⟨z, hz, hznode, hznnode, hzroot, hzk, hzsp, hztop⟩ := pushStack_root x
    obtain ⟨n, hn⟩ : ∃ n, Config.nodeMax = n + (HuffTree.node l r).nodes :=
      ⟨511 - (HuffTree.node l r).nodes, by simp only [Config.nodeMax]; omega⟩
    obtain ⟨y, hvisit, hpop⟩ := visitLoop_treeAt (path := []) n { m with maxlen := 0#8 } (ht.of_eq hznode hznnode)
      (by omega) (by omega) (by rw [hzsp]; exact hztop)
    have hempty : y.sp = 0#9 := BitVec.eq_of_toNat_eq (Nat.succ.inj (hpop.sp.trans hzsp))
    refine ⟨y, ?_, hpop.node.trans hznode, hpop.root.trans hzroot, hpop.k.trans hzk⟩
    simp only [generateCodes, hroot, hz]
    rw [hn, hvisit, visitLoop_of_empty n _ hempty]
    rfl

/-! ### What the assignments leave (R154) -/

theorem fwdLookup_assignCode (s t : Symbol) (c : Code) (m : Mapping) :
    fwdLookup (assignCode s c m) t = if t = s then some c else fwdLookup m t := by
  have h : fwdLookup (assignCode s c m) t = fwdLookup (fwdWrite m s c) t := by
    unfold assignCode
    split <;> rfl
  rw [h, fwdLookup_fwdWrite]

theorem assignCode_rev (s : Symbol) (c : Code) (m : Mapping) : (assignCode s c m).rev = revPut c s m.rev := by
  unfold assignCode
  split <;> rfl

/-- MAXLEN is raised to the length of the new code (R154). -/
theorem assignCode_maxlen (s : Symbol) (c : Code) (m : Mapping) :
    (assignCode s c m).maxlen = if m.maxlen < c.len then c.len else m.maxlen := by
  unfold assignCode
  split <;> rfl

theorem revFind_eq_none_iff {c : Code} {es : List RevEntry} : revFind c es = none ↔ c ∉ es.map RevEntry.key := by
  induction es with
  | nil => simp [revFind]
  | cons e es ih =>
    by_cases he : e.key = c
    · simp [revFind, he]
    · simp [revFind, he, Ne.symm he, ih]

/-- With distinct keys a lookup answers exactly the stored entries (R31). -/
theorem revFind_eq_some_iff {c : Code} {s : Symbol} {es : List RevEntry} (h : (es.map RevEntry.key).Nodup) :
    revFind c es = some s ↔ ⟨c, s⟩ ∈ es := by
  induction es with
  | nil => simp [revFind]
  | cons e es ih =>
    obtain ⟨hnotMem, hnodup⟩ := List.nodup_cons.mp h
    by_cases he : e.key = c
    · have hother : (⟨c, s⟩ : RevEntry) ∉ es := fun hmem => hnotMem (List.mem_map.mpr ⟨_, hmem, he.symm⟩)
      rw [revFind, if_pos he, List.mem_cons, or_iff_left hother]
      exact ⟨fun hs => by rw [← he, ← Option.some.inj hs], fun hs => by rw [← hs]⟩
    · have hne : (⟨c, s⟩ : RevEntry) ≠ e := fun hs => he (by rw [← hs])
      rw [revFind, if_neg he, ih hnodup, List.mem_cons, or_iff_right hne]

/-- FWD and REV hold exactly these symbols under the codes of these paths, and MAXLEN is the greatest length. -/
structure Assigned (codes : List (Symbol × List Bool)) (m : Mapping) : Prop where
  fwd : ∀ s c, fwdLookup m s = some c ↔ ∃ p, (s, p) ∈ codes ∧ codeOf p = c
  rev : m.rev = codes.map fun q => ⟨codeOf q.2, q.1⟩
  bound : ∀ q ∈ codes, (codeOf q.2).len ≤ m.maxlen
  reached : m.maxlen = 0#8 ∨ ∃ q ∈ codes, (codeOf q.2).len = m.maxlen

theorem assigned_empty : Assigned [] Mapping.empty where
  fwd := by simp
  rev := rfl
  bound q hq := absurd hq (by simp)
  reached := .inl rfl

/-- A new symbol under a new code (R154). -/
theorem Assigned.concat {codes : List (Symbol × List Bool)} {m : Mapping} (h : Assigned codes m) {s : Symbol}
    {p : List Bool} (hs : s ∉ codes.map Prod.fst) (hp : codeOf p ∉ codes.map fun q => codeOf q.2) :
    Assigned (codes ++ [(s, p)]) (assignCode s (codeOf p) m) where
  fwd t c := by
    rw [fwdLookup_assignCode]
    by_cases ht : t = s
    · have hnew : ∀ r, (s, r) ∉ codes := fun r hr => hs (List.mem_map.mpr ⟨_, hr, rfl⟩)
      simp [ht, hnew]
    · simp [ht, h.fwd]
  rev := by
    have hkey : revFind (codeOf p) m.rev = none := by
      rw [revFind_eq_none_iff, h.rev, List.map_map]
      exact hp
    rw [assignCode_rev, revPut_of_none s hkey, h.rev, List.map_append]
    rfl
  bound q hq := by
    rw [assignCode_maxlen]
    obtain hq | hq := List.mem_append.mp hq
    · have := h.bound q hq
      split <;> bv_omega
    · obtain rfl := List.mem_singleton.mp hq
      split <;> bv_omega
  reached := by
    rw [assignCode_maxlen]
    split
    · exact .inr ⟨(s, p), by simp, rfl⟩
    · exact h.reached.imp_right fun ⟨q, hq, hlen⟩ => ⟨q, List.mem_append_left _ hq, hlen⟩

theorem assigned_assignAll {codes : List (Symbol × List Bool)} (hsymbols : (codes.map Prod.fst).Nodup)
    (hcodes : (codes.map fun q => codeOf q.2).Nodup) : Assigned codes (assignAll codes Mapping.empty) := by
  induction codes using List.reverseRecOn with
  | nil => exact assigned_empty
  | append_singleton codes q ih =>
    rw [List.map_append, List.map_singleton, List.nodup_append'] at hsymbols hcodes
    obtain ⟨hsymbols, -, hnewSymbol⟩ := hsymbols
    obtain ⟨hcodes, -, hnewCode⟩ := hcodes
    rw [assignAll_append]
    exact (ih hsymbols hcodes).concat (fun h => hnewSymbol h (List.mem_singleton.mpr rfl))
      fun h => hnewCode h (List.mem_singleton.mpr rfl)

/-! ### The mapping of a tree -/

/-- What a successful BUILD commits: the codes of its tree, the number of symbols and the weight (R116). -/
def treeMapping (t : HuffTree) : Mapping :=
  { assignAll t.codes Mapping.empty with
    valid := true, nsym := BitVec.ofNat 9 t.symbols.length, total := BitVec.ofNat 32 t.weight }

theorem nodup_allSymbols : allSymbols.Nodup := by
  refine List.Nodup.map_on (fun x hx y hy hxy => ?_) List.nodup_range
  have := congrArg BitVec.toNat hxy
  simp only [BitVec.toNat_ofNat, List.mem_range] at this hx hy
  omega

/-- NSYM counts a list without repetition of the symbols that have a code (R33). -/
theorem length_presentSymbols {m : Mapping} {l : List Symbol} (h : l.Nodup)
    (hl : ∀ s, s ∈ l ↔ (fwdLookup m s).isSome = true) : (presentSymbols m).length = l.length := by
  refine ((List.perm_ext_iff_of_nodup (nodup_allSymbols.filter _) h).mpr fun s => ?_).length_eq
  rw [hl]
  exact mem_presentSymbols m s

/-- Every path of a tree of distinct symbols is short enough for a code (R156). -/
theorem HuffTree.length_le_of_mem_codes {t : HuffTree} (h : t.symbols.Nodup) {q : Symbol × List Bool}
    (hq : q ∈ t.codes) : q.2.length ≤ 255 := by
  have := length_le_of_nodup h
  have := (HuffTree.length_of_mem_codes hq).2
  omega

theorem HuffTree.apart_of_mem_codes {t : HuffTree} {p q : Symbol × List Bool} (hp : p ∈ t.codes) (hq : q ∈ t.codes)
    (hne : p ≠ q) : Apart p q :=
  have : Std.Symm Apart := ⟨fun _ _ h => h.symm⟩
  t.pairwise_apart_codes.forall hp hq hne

/-- Different symbols of a tree have different codes (R155). -/
theorem HuffTree.nodup_codeOf {t : HuffTree} (h : t.symbols.Nodup) : (t.codes.map fun q => codeOf q.2).Nodup := by
  have hnodup : t.codes.Nodup := List.Nodup.of_map Prod.fst (t.map_fst_codes ▸ h)
  refine hnodup.map_on fun p hp q hq hpq => ?_
  by_contra hne
  have hlabels := congrArg codeLabels hpq
  rw [(codeLabels_codeOf (t.length_le_of_mem_codes h hp)).1, (codeLabels_codeOf (t.length_le_of_mem_codes h hq)).1]
    at hlabels
  exact (HuffTree.apart_of_mem_codes hp hq hne).1 (hlabels ▸ List.prefix_rfl)

theorem assigned_treeMapping {t : HuffTree} (h : t.symbols.Nodup) : Assigned t.codes (treeMapping t) :=
  have hcodes := assigned_assignAll (t.map_fst_codes.symm ▸ h) (t.nodup_codeOf h)
  ⟨hcodes.fwd, hcodes.rev, hcodes.bound, hcodes.reached⟩

theorem Assigned.isSome_iff {codes : List (Symbol × List Bool)} {m : Mapping} (h : Assigned codes m) (s : Symbol) :
    (fwdLookup m s).isSome = true ↔ s ∈ codes.map Prod.fst := by
  simp only [Option.isSome_iff_exists, h.fwd, List.mem_map]
  exact ⟨fun ⟨_, p, hp, _⟩ => ⟨_, hp, rfl⟩, fun ⟨⟨_, p⟩, hp, hs⟩ => ⟨_, p, hs ▸ hp, rfl⟩⟩

/-- The mapping of a tree of distinct symbols meets R32. -/
theorem mappingOk_treeMapping {t : HuffTree} (h : t.symbols.Nodup) : MappingOk (treeMapping t) := by
  have hm := assigned_treeMapping h
  have hsome : ∀ s, (fwdLookup (treeMapping t) s).isSome = true ↔ s ∈ t.symbols := fun s => by
    rw [hm.isSome_iff, t.map_fst_codes]
  have hlen : t.symbols.length ≤ 256 := length_le_of_nodup h
  have hnsym : (treeMapping t).nsym.toNat = t.symbols.length := by
    rw [treeMapping, BitVec.toNat_ofNat, Nat.mod_eq_of_lt (by omega)]
  have hpath : ∀ q ∈ t.codes, 1 ≤ q.2.length ∧ q.2.length ≤ 255 := fun q hq =>
    ⟨(HuffTree.length_of_mem_codes hq).1, t.length_le_of_mem_codes h hq⟩
  obtain ⟨q₀, hq₀⟩ := List.exists_mem_of_ne_nil _ t.codes_ne_nil
  constructor
  case codesWellFormed =>
    intro s c hc
    obtain ⟨p, hp, rfl⟩ := (hm.fwd s c).mp hc
    exact codeOf_wellFormed (hpath _ hp).1 (hpath _ hp).2
  case inverse =>
    intro s c
    have hkeys : ((treeMapping t).rev.map RevEntry.key).Nodup := by
      rw [hm.rev, List.map_map]
      exact t.nodup_codeOf h
    rw [revLookup, revFind_eq_some_iff hkeys, hm.rev, hm.fwd]
    simp only [List.mem_map, RevEntry.mk.injEq]
    exact ⟨fun ⟨⟨_, p⟩, hp, hc, hs⟩ => ⟨p, hs ▸ hp, hc⟩, fun ⟨p, hp, hc⟩ => ⟨_, hp, hc, rfl⟩⟩
  case prefixFree =>
    intro s u c d hc hd hne
    obtain ⟨p, hp, rfl⟩ := (hm.fwd s c).mp hc
    obtain ⟨q, hq, rfl⟩ := (hm.fwd u d).mp hd
    have hapart := HuffTree.apart_of_mem_codes hp hq fun e => hne (congrArg Prod.fst e)
    rw [← Bool.not_eq_true, codeIsPrefix_iff, (codeLabels_codeOf (hpath _ hp).2).1,
      (codeLabels_codeOf (hpath _ hq).2).1]
    exact hapart.1
  case validIffPresent =>
    exact ⟨fun _ => ⟨q₀.1, (hm.isSome_iff _).mpr (List.mem_map_of_mem hq₀)⟩, fun _ => rfl⟩
  case nsymCounts => rw [hnsym, length_presentSymbols h fun s => (hsome s).symm]
  case revSize => rw [hnsym, hm.rev, List.length_map, t.length_codes]
  case maxlenBounds =>
    intro s c hc
    obtain ⟨p, hp, rfl⟩ := (hm.fwd s c).mp hc
    exact hm.bound _ hp
  case maxlenReached =>
    intro _
    obtain h0 | ⟨q, hq, hlen⟩ := hm.reached
    · have hbound := hm.bound _ hq₀
      have := codeOf_len (hpath _ hq₀).2
      have := (hpath _ hq₀).1
      rw [h0, BitVec.le_def, BitVec.toNat_ofNat] at hbound
      omega
    · exact ⟨q.1, codeOf q.2, (hm.fwd _ _).mpr ⟨q.2, hq, rfl⟩, hlen⟩
  case zeroWhenInvalid => exact fun hv => absurd hv (by simp [treeMapping])

end Sys2Proof.Machine
end

section
/-! PROOFS. BUILD as a whole (R110): from a count it commits the mapping of the Huffman tree of its input, or leaves the
empty mapping, and the mapping meets R32 either way. -/

namespace Sys2Proof.Machine

/-- Phases 2 and 3 and the commit turn a count into the mapping of the Huffman tree (R116, R130, R155). -/
theorem buildMapping_counted {items : List Byte} {s : State} (h : Counted items s.scratch)
    (hm : s.mapping = Mapping.empty) (hne : items ≠ []) (hlen : items.length ≤ Config.nMax) :
    ∃ t x, huffTree items = some t ∧ t.symbols.Perm (distinctSymbols items) ∧ t.weight = items.length ∧
      buildMapping s = (s.setScratch x).setMapping (treeMapping t) := by
  obtain ⟨t, htree, hsymbols, hweight, ht, hk⟩ := h.treeAt_buildTree hne hlen
  have hle : t.symbols.length ≤ 256 := by
    rw [hsymbols.length_eq]
    exact length_le_of_nodup (nodup_distinctSymbols items)
  obtain ⟨y, hgen, hnode, hroot, hyk⟩ := generateCodes_treeAt Mapping.empty ht hle
  refine ⟨t, y, htree, hsymbols, hweight, ?_⟩
  have hnsym : y.k = BitVec.ofNat 9 t.symbols.length := by
    rw [hyk, hk, hsymbols.length_eq, ← h.k, BitVec.ofNat_toNat, BitVec.setWidth_eq]
  have htotal : weightAt y y.root = BitVec.ofNat 32 t.weight := by
    rw [← ht.weightAt_eq, weightAt, nodeAt, hnode, hroot, weightAt, nodeAt]
  have hcommit : commitMapping y (assignAll t.codes Mapping.empty) = treeMapping t := by
    rw [commitMapping, hnsym, htotal]
    rfl
  simp only [buildMapping, hm, hgen]
  exact congrArg (State.setMapping · (s.setScratch y)) hcommit

/-- The three ways a BUILD ends (R110): the count is overrun (R114), nothing has been counted (R115), or there is a mapping
to build (R116). -/
theorem finishBuild_of_ovf {s : State} (h : s.scratch.ovf = true) :
    finishBuild s = (s.raise .capacity 0#32 0#32).forgetScratch := by simp [finishBuild, endBuild, h]

theorem finishBuild_of_cnt_eq_zero {s : State} (h : s.scratch.ovf = false) (hcnt : s.scratch.cnt = 0#32) :
    finishBuild s = (s.raise .emptyInput 0#32 0#32).forgetScratch := by simp [finishBuild, endBuild, h, hcnt]

theorem finishBuild_of_cnt_ne_zero {s : State} (h : s.scratch.ovf = false) (hcnt : s.scratch.cnt ≠ 0#32) :
    finishBuild s = (buildMapping s).respondOk.forgetScratch := by simp [finishBuild, endBuild, h, hcnt]

/-- What an overrun count is not: it has counted a sequence that fits (R113). -/
theorem counted_of_ovf_eq_false {items : List Byte} {x y : Scratch} (hy : y = countFrequencies items x)
    (h : y.ovf = false) : items.length ≤ Config.nMax ∧ Counted items y := by
  subst hy
  have hlen : items.length ≤ Config.nMax := by
    by_contra hlong
    exact absurd ((countFrequencies_ovf_iff items x).mpr (Nat.lt_of_not_le hlong)) (by simp [h])
  exact ⟨hlen, countFrequencies_counted x hlen⟩

/-- However a BUILD ends, its mapping meets R32. -/
theorem mappingOk_finishBuild {items : List Byte} {x : Scratch} {s : State} (h : s.scratch = countFrequencies items x)
    (hm : s.mapping = Mapping.empty) : MappingOk (finishBuild s).mapping := by
  cases hovf : s.scratch.ovf with
  | true =>
    rw [finishBuild_of_ovf hovf]
    exact hm ▸ mappingOk_empty
  | false =>
    by_cases hcnt : s.scratch.cnt = 0#32
    · rw [finishBuild_of_cnt_eq_zero hovf hcnt]
      exact hm ▸ mappingOk_empty
    · obtain ⟨hlen, hc⟩ := counted_of_ovf_eq_false h hovf
      obtain ⟨t, y, -, hsymbols, -, hbuild⟩ := buildMapping_counted hc hm (mt hc.cnt_eq_zero_iff.mpr hcnt) hlen
      rw [finishBuild_of_cnt_ne_zero hovf hcnt, hbuild]
      exact mappingOk_treeMapping (hsymbols.nodup_iff.mpr (nodup_distinctSymbols items))

end Sys2Proof.Machine
end

section
/-! PROOFS. What every command and every step does to the channels and the status state, and which groups of the state it
leaves alone (R21, R22, R51, R63, R87). -/

namespace Sys2Proof.Machine

/-! ### Channels and status state -/

/-- The end of a command: BUSY cleared and one response beat pushed, with the code in ERR (R87). -/
structure Responds (s t : State) : Prop where
  cmd : t.cmd = s.cmd
  inp : t.inp = s.inp
  op : t.status.op = s.status.op
  busy : t.status.busy = false
  out : t.out = s.out ++ [responseBeat t.status.err]

theorem responds_raise (s : State) (c : ResultCode) (info pos : RegWord) : Responds s (s.raise c info pos) :=
  ⟨rfl, rfl, rfl, rfl, rfl⟩

theorem responds_finishBuild (s : State) : Responds s (finishBuild s) := by
  obtain ⟨hcmd, hinp, -, hop, hbusy, hout⟩ := finishBuild_frame s
  exact ⟨hcmd, hinp, hop, hbusy, hout⟩

theorem responds_finishEncode (s : State) : Responds s (finishEncode s) := by
  obtain ⟨hcmd, hinp, -, -, hop, hbusy, hout⟩ := finishEncode_frame s
  exact ⟨hcmd, hinp, hop, hbusy, hout⟩

theorem responds_finishDecode (s : State) : Responds s (finishDecode s) := by
  obtain ⟨hcmd, hinp, -, -, hop, hbusy, hout⟩ := finishDecode_frame s
  exact ⟨hcmd, hinp, hop, hbusy, hout⟩

/-- A command has run as far as IN allows: it pushed items and waits with its status state unchanged, or it pushed items
and then its response beat (R22, R263). -/
structure Ran (s t : State) : Prop where
  cmd : t.cmd = s.cmd
  op : t.status.op = s.status.op
  inp : t.inp <:+ s.inp
  out : ∃ items : List Byte, (t.status = s.status ∧ t.out = s.out ++ items.map itemBeat) ∨
    (t.status.busy = false ∧ t.out = s.out ++ items.map itemBeat ++ [responseBeat t.status.err])

/-- A command that pushes items only, up to a response at the end of its frame. -/
theorem overFrame_ran {body : Byte → State → State} {finish : State → State} {s t : State}
    (hbody : ∀ d u, PushesItemsOnly u (body d u)) (hfinish : ∀ u, Responds u (finish u))
    (h : overFrame body finish s = .next t) : Ran s t := by
  refine overFrame_induct (P := PushesItemsOnly s) (Q := Ran s) h (.of_eq rfl rfl rfl)
    (fun d u hu => hu.trans (hbody d u)) (fun u rest hu hrest => ?_) (fun u hu => ?_)
  · obtain ⟨items, hout⟩ := hu.out
    have hend := hfinish (u.setInp rest)
    have hendout := hend.out
    rw [State.setInp_out, hout] at hendout
    exact ⟨hend.cmd.trans hu.cmd, hend.op.trans (congrArg Status.op hu.status), hend.inp ▸ hrest,
      items, .inr ⟨hend.busy, hendout⟩⟩
  · obtain ⟨items, hout⟩ := hu.out
    exact ⟨hu.cmd, congrArg Status.op hu.status, List.nil_suffix, items, .inl ⟨hu.status, hout⟩⟩

theorem buildItem_pushesItemsOnly (d : Byte) (s : State) : PushesItemsOnly s (buildItem d s) := .of_eq rfl rfl rfl

theorem continueBuild_ran {s t : State} (h : continueBuild s = .next t) : Ran s t :=
  overFrame_ran buildItem_pushesItemsOnly responds_finishBuild h

/-- The outcome of ENCODE and of DECODE without a mapping (R172, R187). -/
theorem refuse_ran {s t : State} (h : overFrame ignoreItem refuseEmpty s = .next t) : Ran s t :=
  overFrame_ran ignoreItem_pushesItemsOnly (fun u => responds_raise u _ _ _) h

theorem continueEncode_ran {s t : State} (h : continueEncode s = .next t) : Ran s t := by
  unfold continueEncode at h
  split at h
  · exact overFrame_ran encodeItem_pushesItemsOnly responds_finishEncode h
  · exact refuse_ran h

theorem continueDecode_ran {s t : State} (h : continueDecode s = .next t) : Ran s t := by
  unfold continueDecode at h
  split at h
  · exact overFrame_ran decodeItem_pushesItemsOnly responds_finishDecode h
  · exact refuse_ran h

/-- What a command writes before its input loop is no channel and no status state. -/
theorem Ran.of_start {s u t : State} (h : Ran u t) (hcmd : u.cmd = s.cmd) (hinp : u.inp = s.inp) (hout : u.out = s.out)
    (hstatus : u.status = s.status) : Ran s t := by
  obtain ⟨cmd, op, inp, out⟩ := h
  rw [hcmd] at cmd
  rw [hstatus] at op
  rw [hinp] at inp
  rw [hout, hstatus] at out
  exact ⟨cmd, op, inp, out⟩

/-- ENCODE writes engine state only before its input loop (R170). -/
theorem startEncode_eq (s : State) : ∃ e, startEncode s = s.setEngine e := by
  unfold startEncode
  split
  · exact ⟨_, rfl⟩
  · exact ⟨s.engine, rfl⟩

/-- DECODE writes engine state only before its input loop (R185). -/
theorem startDecode_eq (s : State) : ∃ e, startDecode s = s.setEngine e := by
  unfold startDecode
  split
  · exact ⟨_, rfl⟩
  · exact ⟨s.engine, rfl⟩

theorem exec_ran {i : Instr} {s t : State} (h : exec i s = .next t) : Ran s t := by
  cases i with
  | build => exact (continueBuild_ran h).of_start rfl rfl rfl rfl
  | encode =>
    obtain ⟨e, he⟩ := startEncode_eq s
    refine (continueEncode_ran h).of_start ?_ ?_ ?_ ?_ <;> rw [he] <;> rfl
  | decode =>
    obtain ⟨e, he⟩ := startDecode_eq s
    refine (continueDecode_ran h).of_start ?_ ?_ ?_ ?_ <;> rw [he] <;> rfl
  | codes =>
    obtain rfl := Host.Outcome.next.inj h
    exact ⟨rfl, rfl, List.suffix_refl _, codesItems s.mapping, .inr ⟨rfl, rfl⟩⟩

theorem ran_raise (s : State) (c : ResultCode) (info pos : RegWord) : Ran s (s.raise c info pos) :=
  ⟨rfl, rfl, List.suffix_refl _, [], .inr ⟨rfl, by simp⟩⟩

/-! ### The branches of a step (R21, R82, R263) -/

theorem step_of_idle_nil {s : State} (h : s.status.busy = false) (hcmd : s.cmd = []) : step s = .fault .noCommand := by
  simp [step, coreStep, startNext, h, hcmd]

theorem step_of_word {s : State} {w : CmdWord} {rest : List CmdWord} (h : s.status.busy = false)
    (hcmd : s.cmd = w :: rest) : step s = runWord w (s.acceptWord w rest) := by
  simp [step, coreStep, startNext, h, hcmd]

theorem step_of_busy_nil {s : State} (h : s.status.busy = true) (hinp : s.inp = []) :
    step s = .fault .waitingForInput := by
  simp [step, coreStep, resume, h, hinp]

theorem step_of_busy {s : State} (h : s.status.busy = true) (hinp : s.inp ≠ []) : step s = continueCommand s := by
  obtain ⟨b, bs, hcons⟩ := List.exists_cons_of_ne_nil hinp
  simp [step, coreStep, resume, h, hcons]

theorem runWord_of_ok {w : CmdWord} {i : Instr} (h : decode w = .ok i) (s : State) : runWord w s = exec i s := by
  simp [runWord, h]

theorem runWord_of_error {w : CmdWord} {e : IllegalWord} (h : decode w = .error e) (s : State) :
    runWord w s = .next (s.raise .illegalCommand w 0#32) := by
  simp [runWord, h, execIllegal]

theorem continueCommand_of_build {s : State} (h : s.status.op = 0x01#8) : continueCommand s = continueBuild s := by
  rw [continueCommand, h]
  rfl

theorem continueCommand_of_encode {s : State} (h : s.status.op = 0x02#8) : continueCommand s = continueEncode s := by
  rw [continueCommand, h]
  rfl

theorem continueCommand_of_decode {s : State} (h : s.status.op = 0x03#8) : continueCommand s = continueDecode s := by
  rw [continueCommand, h]
  rfl

/-- OP of any other value names no command that takes input (log 9). -/
theorem continueCommand_of_other {s : State} (h1 : s.status.op ≠ 0x01#8) (h2 : s.status.op ≠ 0x02#8)
    (h3 : s.status.op ≠ 0x03#8) : continueCommand s = .fault .busyWithoutInput := by
  by_cases h4 : s.status.op = 0x04#8
  · rw [continueCommand, h4]
    rfl
  · simp [continueCommand, opcodeInstr, h1, h2, h3, h4]

/-! ### What a step does to the channels -/

/-- A step runs a command in the state after the pop, or goes on in the state as it is (R21). -/
theorem step_ran {s t : State} (h : step s = .next t) :
    (∃ w rest, s.status.busy = false ∧ s.cmd = w :: rest ∧ Ran (s.acceptWord w rest) t) ∨
    (s.status.busy = true ∧ Ran s t) := by
  obtain ⟨w, rest, i, hbusy, hcmd, -, hexec⟩ | ⟨w, rest, e, hbusy, hcmd, -, rfl⟩ | ⟨hbusy, -, hop⟩ := step_cases h
  · exact .inl ⟨w, rest, hbusy, hcmd, exec_ran hexec⟩
  · exact .inl ⟨w, rest, hbusy, hcmd, ran_raise _ _ _ _⟩
  · refine .inr ⟨hbusy, ?_⟩
    obtain ⟨-, h⟩ | ⟨-, h⟩ | ⟨-, h⟩ := hop
    · exact continueBuild_ran h
    · exact continueEncode_ran h
    · exact continueDecode_ran h

/-! ### Groups of the state that a command leaves alone (R51) -/

/-- What item body, pop and finish leave alone, the whole input loop leaves alone. -/
theorem overFrame_preserves {α : Type} (f : State → α) {body : Byte → State → State} {finish : State → State}
    {s t : State} (h : overFrame body finish s = .next t) (hbody : ∀ d u, f (body d u) = f u)
    (hfinish : ∀ u, f (finish u) = f u) (hinp : ∀ u bs, f (u.setInp bs) = f u) : f t = f s :=
  overFrame_induct (P := fun u => f u = f s) (Q := fun u => f u = f s) h rfl (fun d u hu => (hbody d u).trans hu)
    (fun u rest hu _ => ((hfinish _).trans (hinp u rest)).trans hu) (fun u hu => (hinp u []).trans hu)

theorem continueBuild_engine {s t : State} (h : continueBuild s = .next t) : t.engine = s.engine := by
  refine overFrame_preserves State.engine h (fun _ _ => rfl) (fun u => ?_) fun _ _ => rfl
  obtain ⟨-, -, hengine, -⟩ := finishBuild_frame u
  exact hengine

theorem overFrame_mapping_scratch {body : Byte → State → State} {finish : State → State} {s t : State}
    (h : overFrame body finish s = .next t)
    (hbody : ∀ d u, (body d u).mapping = u.mapping ∧ (body d u).scratch = u.scratch)
    (hfinish : ∀ u, (finish u).mapping = u.mapping ∧ (finish u).scratch = u.scratch) :
    t.mapping = s.mapping ∧ t.scratch = s.scratch :=
  ⟨overFrame_preserves State.mapping h (fun d u => (hbody d u).1) (fun u => (hfinish u).1) fun _ _ => rfl,
    overFrame_preserves State.scratch h (fun d u => (hbody d u).2) (fun u => (hfinish u).2) fun _ _ => rfl⟩

/-- ENCODE and DECODE without a mapping change no mapping and no scratch state (R172, R187). -/
theorem refuse_mapping_scratch {s t : State} (h : overFrame ignoreItem refuseEmpty s = .next t) :
    t.mapping = s.mapping ∧ t.scratch = s.scratch :=
  overFrame_mapping_scratch h (fun _ _ => ⟨rfl, rfl⟩) fun _ => ⟨rfl, rfl⟩

theorem continueEncode_mapping_scratch {s t : State} (h : continueEncode s = .next t) :
    t.mapping = s.mapping ∧ t.scratch = s.scratch := by
  unfold continueEncode at h
  split at h
  · refine overFrame_mapping_scratch h (fun d u => ?_) fun u => ?_
    · obtain ⟨-, -, hmapping, hscratch, -⟩ := encodeItem_frame d u
      exact ⟨hmapping, hscratch⟩
    · obtain ⟨-, -, hmapping, hscratch, -⟩ := finishEncode_frame u
      exact ⟨hmapping, hscratch⟩
  · exact refuse_mapping_scratch h

theorem continueDecode_mapping_scratch {s t : State} (h : continueDecode s = .next t) :
    t.mapping = s.mapping ∧ t.scratch = s.scratch := by
  unfold continueDecode at h
  split at h
  · refine overFrame_mapping_scratch h (fun d u => ?_) fun u => ?_
    · obtain ⟨-, -, hmapping, hscratch, -⟩ := decodeItem_frame d u
      exact ⟨hmapping, hscratch⟩
    · obtain ⟨-, -, hmapping, hscratch, -⟩ := finishDecode_frame u
      exact ⟨hmapping, hscratch⟩
  · exact refuse_mapping_scratch h

theorem execEncode_mapping_scratch {s t : State} (h : exec .encode s = .next t) :
    t.mapping = s.mapping ∧ t.scratch = s.scratch := by
  obtain ⟨e, he⟩ := startEncode_eq s
  obtain ⟨hmapping, hscratch⟩ := continueEncode_mapping_scratch (s := startEncode s) h
  rw [he] at hmapping hscratch
  exact ⟨hmapping, hscratch⟩

theorem execDecode_mapping_scratch {s t : State} (h : exec .decode s = .next t) :
    t.mapping = s.mapping ∧ t.scratch = s.scratch := by
  obtain ⟨e, he⟩ := startDecode_eq s
  obtain ⟨hmapping, hscratch⟩ := continueDecode_mapping_scratch (s := startDecode s) h
  rw [he] at hmapping hscratch
  exact ⟨hmapping, hscratch⟩

end Sys2Proof.Machine
end

section
/-! PROOFS. The family 10_state.md: the invariant (R32 to R34, R87), kept by every step and so true of every reachable
state. -/

namespace Sys2Proof.Machine

/-! ### OUT -/

theorem wellFormedResponse_responseBeat (c : ResultCode) : (responseBeat c).wellFormedResponse = true := by
  cases c <;> decide

/-- Items and response beats pushed behind keep OUT well formed (R87). -/
theorem OutOk.ran {s t : State} (hs : OutOk s) (h : Ran s t) : OutOk t := by
  obtain ⟨items, ⟨-, hout⟩ | ⟨-, hout⟩⟩ := h.out
  · intro b hb heos
    rw [hout, List.mem_append, List.mem_map] at hb
    obtain hb | ⟨d, -, rfl⟩ := hb
    · exact hs b hb heos
    · cases heos
  · intro b hb heos
    rw [hout, List.mem_append, List.mem_append, List.mem_map, List.mem_singleton] at hb
    obtain (hb | ⟨d, -, rfl⟩) | rfl := hb
    · exact hs b hb heos
    · cases heos
    · exact wellFormedResponse_responseBeat _

/-! ### BUILD -/

theorem buildWaits_startBuild {s : State} (h : s.status.op = 0x01#8) : BuildWaits (startBuild s) :=
  ⟨h, rfl, [], s.scratch, rfl⟩

theorem BuildWaits.item {s : State} (h : BuildWaits s) (d : Byte) : BuildWaits (buildItem d s) := by
  obtain ⟨hop, hmapping, items, x, hscratch⟩ := h
  refine ⟨hop, hmapping, items ++ [d], x, ?_⟩
  rw [countFrequencies_append, ← hscratch]
  rfl

theorem continueBuild_keeps {s t : State} (hs : BuildWaits s) (h : continueBuild s = .next t) :
    MappingOk t.mapping ∧ WaitOk t := by
  refine overFrame_induct (P := BuildWaits) (Q := fun u => MappingOk u.mapping ∧ WaitOk u) h hs
    (fun d u hu => hu.item d) (fun u rest hu _ => ?_) (fun u hu => ?_)
  · obtain ⟨-, hmapping, items, x, hscratch⟩ := hu
    exact ⟨mappingOk_finishBuild (s := u.setInp rest) hscratch hmapping,
      fun hbusy => absurd hbusy (by simp [(responds_finishBuild (u.setInp rest)).busy])⟩
  · obtain ⟨hop, hmapping, hcount⟩ := hu
    exact ⟨hmapping ▸ mappingOk_empty, fun _ => .inl ⟨hop, hmapping, hcount⟩⟩

/-! ### DECODE -/

/-- The candidate never grows beyond MAXLEN and holds no bit above BUFLEN (R34, R188, R191). -/
theorem DecodeWaits.item {s : State} (h : DecodeWaits s) (d : Byte) : DecodeWaits (decodeItem d s) := by
  obtain ⟨hop, hcandidate⟩ := h
  obtain ⟨-, hitem⟩ | ⟨-, -, hitem⟩ | ⟨b, -, -, hlen, -, hitem⟩ | ⟨b, sym, -, -, -, -, hitem⟩ := decodeItem_cases d s <;>
    rw [hitem]
  · exact ⟨hop, hcandidate⟩
  · exact ⟨hop, hcandidate⟩
  · refine ⟨hop, fun hvalid => ?_⟩
    obtain ⟨hle, hbits⟩ := hcandidate hvalid
    have hlt : (candidate s.engine).len.toNat < s.mapping.maxlen.toNat :=
      Nat.lt_of_le_of_ne hle fun e => hlen (BitVec.eq_of_toNat_eq e)
    have hroom : (candidate s.engine).len.toNat < 255 := by omega
    refine ⟨?_, codeSnoc_shifted hroom hbits b⟩
    change (codeSnoc (candidate s.engine) b).len.toNat ≤ s.mapping.maxlen.toNat
    rw [codeSnoc_len hroom]
    exact hlt
  · exact ⟨hop, fun _ => ⟨Nat.zero_le _, rfl⟩⟩

theorem decodeWaits_startDecode {s : State} (h : s.status.op = 0x03#8) : DecodeWaits (startDecode s) := by
  unfold startDecode
  split
  · exact ⟨h, fun _ => ⟨Nat.zero_le _, rfl⟩⟩
  · next hvalid => exact ⟨h, fun hv => absurd hv hvalid⟩

theorem continueDecode_waitOk {s t : State} (hs : DecodeWaits s) (h : continueDecode s = .next t) : WaitOk t := by
  unfold continueDecode at h
  split at h
  · refine overFrame_induct (P := DecodeWaits) (Q := WaitOk) h hs (fun d u hu => hu.item d)
      (fun u rest _ _ hbusy => ?_) (fun u hu _ => .inr (.inr hu))
    exact absurd hbusy (by simp [(responds_finishDecode (u.setInp rest)).busy])
  · next hvalid =>
    have hmapping := (refuse_mapping_scratch h).1
    exact fun _ => .inr (.inr ⟨(refuse_ran h).op.trans hs.1, fun hv => absurd hv (hmapping ▸ hvalid)⟩)

/-! ### Commands and steps -/

/-- Every command keeps the invariant, from any state whose mapping and OUT meet it and whose OP names the command. -/
theorem exec_keeps_inv {i : Instr} {s t : State} (hmapping : MappingOk s.mapping) (hout : OutOk s)
    (hop : s.status.op = instrOpc i) (h : exec i s = .next t) : Inv t := by
  have hran := exec_ran h
  cases i with
  | build =>
    obtain ⟨hm, hw⟩ := continueBuild_keeps (buildWaits_startBuild hop) h
    exact ⟨hm, hw, hout.ran hran⟩
  | encode => exact ⟨(execEncode_mapping_scratch h).1 ▸ hmapping, fun _ => .inr (.inl (hran.op.trans hop)), hout.ran hran⟩
  | decode =>
    exact ⟨(execDecode_mapping_scratch h).1 ▸ hmapping, continueDecode_waitOk (decodeWaits_startDecode hop) h,
      hout.ran hran⟩
  | codes =>
    obtain rfl := Host.Outcome.next.inj h
    exact ⟨hmapping, fun hbusy => absurd hbusy Bool.false_ne_true, hout.ran hran⟩

/-- A word that decodes to a command leaves that command's operation code in OP (R36). -/
theorem wordOpc_eq_of_decode {w : CmdWord} {i : Instr} (h : decode w = .ok i) : wordOpc w = instrOpc i :=
  (opcodeInstr_eq_some_iff _ _).mp ((decode_eq_ok_iff w i).mp h).2

/-- Under the invariant a waiting command is one of the three that take input (R263). -/
theorem Inv.op_of_busy {s : State} (h : Inv s) (hbusy : s.status.busy = true) :
    s.status.op = 0x01#8 ∨ s.status.op = 0x02#8 ∨ s.status.op = 0x03#8 := by
  obtain ⟨hop, -⟩ | hop | ⟨hop, -⟩ := h.waiting hbusy
  · exact .inl hop
  · exact .inr (.inl hop)
  · exact .inr (.inr hop)

/-- A BUILD that waits is one, whatever else OP could name. -/
theorem Inv.buildWaits {s : State} (h : Inv s) (hbusy : s.status.busy = true) (hop : s.status.op = 0x01#8) :
    BuildWaits s := by
  obtain hw | hw | hw := h.waiting hbusy
  · exact hw
  · exact absurd (hop.symm.trans hw) (by decide)
  · exact absurd (hop.symm.trans hw.1) (by decide)

theorem Inv.decodeWaits {s : State} (h : Inv s) (hbusy : s.status.busy = true) (hop : s.status.op = 0x03#8) :
    DecodeWaits s := by
  obtain hw | hw | hw := h.waiting hbusy
  · exact absurd (hop.symm.trans hw.1) (by decide)
  · exact absurd (hop.symm.trans hw) (by decide)
  · exact hw

/-- Settles O53: a word that is popped runs its command (`exec_keeps_inv`), an illegal word changes no mapping, and a
waiting command goes on from what it holds. -/
theorem stepKeepsInvariant : Obligations.StepKeepsInvariant := by
  intro s t hs h
  obtain ⟨w, rest, i, -, -, hdecode, hexec⟩ | ⟨w, rest, e, -, -, -, rfl⟩ | ⟨hbusy, -, hop⟩ := step_cases h
  · exact exec_keeps_inv (s := s.acceptWord w rest) hs.mapping hs.output (wordOpc_eq_of_decode hdecode) hexec
  · exact ⟨hs.mapping, fun hbusy => absurd hbusy Bool.false_ne_true,
      OutOk.ran (s := s.acceptWord w rest) hs.output (ran_raise _ _ _ _)⟩
  · obtain ⟨hop, h⟩ | ⟨hop, h⟩ | ⟨hop, h⟩ := hop
    · obtain ⟨hm, hw⟩ := continueBuild_keeps (hs.buildWaits hbusy hop) h
      exact ⟨hm, hw, hs.output.ran (continueBuild_ran h)⟩
    · exact ⟨(continueEncode_mapping_scratch h).1 ▸ hs.mapping,
        fun _ => .inr (.inl ((continueEncode_ran h).op.trans hop)), hs.output.ran (continueEncode_ran h)⟩
    · exact ⟨(continueDecode_mapping_scratch h).1 ▸ hs.mapping,
        continueDecode_waitOk (hs.decodeWaits hbusy hop) h, hs.output.ran (continueDecode_ran h)⟩

/-- Settles O52: the empty mapping meets R32, and after reset nothing waits and OUT is empty (R52). -/
theorem resetMeetsInvariant : Obligations.ResetMeetsInvariant := inv_of_idle mappingOk_empty rfl rfl

/-- Every reachable state meets the invariant: reset does, and the core's steps and the host's actions keep it. -/
theorem Reachable.inv {s : State} (h : Reachable s) : Inv s := by
  induction h with
  | reset => exact resetMeetsInvariant
  | step _ hstep ih => exact stepKeepsInvariant _ _ ih hstep
  | pushCmd w _ ih => exact ih.pushCmd w
  | pushIn bs _ ih => exact ih.pushIn bs
  | popOut _ hpop ih => exact ih.popOut hpop
  | hostRead n _ ih => exact ih.hostRead n
  | assertReset _ _ => exact inv_assertReset _

/-- Settles O55: the two parts of the invariant that speak of the mapping and of OUT. -/
theorem reachableStatesKeepMapping : Obligations.ReachableStatesKeepMapping := fun _ h =>
  ⟨h.inv.mapping, h.inv.output⟩

end Sys2Proof.Machine
end

section
/-! PROOFS. The family 10_state.md: no outcome rests on a value the spec leaves open (R51, R52, U1, U2). -/

namespace Sys2Proof.Machine

/-! ### Two runs of an input loop side by side -/

/-- Channels but for IN, mapping and status state are equal. -/
structure SameFace (s t : State) : Prop where
  cmd : s.cmd = t.cmd
  out : s.out = t.out
  mapping : s.mapping = t.mapping
  status : s.status = t.status

theorem SameView.sameFace {s t : State} (h : SameView s t) : SameFace s t := ⟨h.cmd, h.out, h.mapping, h.status⟩

/-- An idle state holds nothing but its channels, mapping and status state (R51). -/
theorem SameFace.sameView {s t : State} (h : SameFace s t) (hinp : s.inp = t.inp) (hidle : s.status.busy = false) :
    SameView s t :=
  have hnot : s.status.busy ≠ true := by simp [hidle]
  ⟨h.cmd, hinp, h.out, h.mapping, h.status, fun hb => absurd hb hnot, fun hb => absurd hb hnot, fun hb => absurd hb hnot⟩

/-- Two commands that end alike look the same afterwards. -/
theorem SameFace.sameView_of_responds {s t u v : State} (h : SameFace s t) (hs : Responds u s) (ht : Responds v t)
    (hinp : u.inp = v.inp) : SameView s t :=
  h.sameView (hs.inp.trans (hinp.trans ht.inp.symm)) hs.busy

theorem SameFace.endCommand {s t : State} (h : SameFace s t) (c : ResultCode) (info pos : RegWord) :
    SameFace (s.endCommand c info pos) (t.endCommand c info pos) :=
  ⟨h.cmd, by simp [h.out], h.mapping, by simp [h.status]⟩

theorem SameFace.forgetScratch {s t : State} (h : SameFace s t) : SameFace s.forgetScratch t.forgetScratch :=
  ⟨h.cmd, h.out, h.mapping, h.status⟩

theorem SameFace.forgetEngine {s t : State} (h : SameFace s t) : SameFace s.forgetEngine t.forgetEngine :=
  ⟨h.cmd, h.out, h.mapping, h.status⟩

theorem SameFace.setEngine {s t : State} (h : SameFace s t) (e f : Engine) : SameFace (s.setEngine e) (t.setEngine f) :=
  ⟨h.cmd, h.out, h.mapping, h.status⟩

theorem SameFace.setInp {s t : State} (h : SameFace s t) (bs : List Beat) : SameFace (s.setInp bs) (t.setInp bs) :=
  ⟨h.cmd, h.out, h.mapping, h.status⟩

theorem SameFace.pushItems {s t : State} (h : SameFace s t) (ds : List Byte) :
    SameFace (s.pushItems ds) (t.pushItems ds) :=
  ⟨h.cmd, by simp [h.out], h.mapping, h.status⟩

/-- A relation that every item keeps, and that gives the same view when the frame is complete and when IN is empty, gives
the same outcome. -/
theorem overFrame_sameOutcome {R : State → State → Prop} {body : Byte → State → State} {finish : State → State}
    {s t : State} (h : R s t) (hinp : s.inp = t.inp) (hbody : ∀ d u v, R u v → R (body d u) (body d v))
    (hdone : ∀ u v rest, R u v → SameView (finish (u.setInp rest)) (finish (v.setInp rest)))
    (hwait : ∀ u v, R u v → SameView (u.setInp []) (v.setInp [])) :
    SameOutcome (overFrame body finish s) (overFrame body finish t) := by
  have fold : ∀ (items : List Byte) (u v : State), R u v →
      R (items.foldl (fun t d => body d t) u) (items.foldl (fun t d => body d t) v) := by
    intro items
    induction items with
    | nil => exact fun u v huv => huv
    | cons d items ih => exact fun u v huv => ih _ _ (hbody d u v huv)
  cases hf : takeFrame s.inp with
  | none =>
    rw [overFrame_incomplete body finish hf, overFrame_incomplete body finish (hinp ▸ hf), ← hinp]
    exact hwait _ _ (fold _ s t h)
  | some p =>
    obtain ⟨items, rest⟩ := p
    rw [overFrame_complete body finish hf, overFrame_complete body finish (hinp ▸ hf)]
    exact hdone _ _ rest (fold _ s t h)

/-! ### BUILD -/

theorem countAgrees_startCount (x y : Scratch) : CountAgrees (startCount x) (startCount y) :=
  ⟨rfl, rfl, rfl, rfl, fun s h => absurd h (by simp [startCount, Vector.get_eq_getElem]),
    fun i h => absurd h (Nat.not_lt_zero i)⟩

theorem CountAgrees.again {x y : Scratch} (h : CountAgrees x y) {a : Symbol} (ha : x.seen.get (symIdx a) = true) :
    CountAgrees (countOne (countAgain a x)) (countOne (countAgain a y)) := by
  obtain ⟨hseen, hk, hcnt, hovf, hfreq, horder⟩ := h
  refine ⟨hseen, hk, congrArg (· + 1#32) hcnt, hovf, fun b hb => ?_, horder⟩
  change (x.freq.set a.toNat _ a.isLt).get (symIdx b) = (y.freq.set a.toNat _ a.isLt).get (symIdx b)
  rw [get_set_symIdx, get_set_symIdx, hfreq a ha]
  split
  · rfl
  · exact hfreq b hb

theorem CountAgrees.new {x y : Scratch} (h : CountAgrees x y) (a : Symbol) :
    CountAgrees (countOne (countNew a x)) (countOne (countNew a y)) := by
  obtain ⟨hseen, hk, hcnt, hovf, hfreq, horder⟩ := h
  refine ⟨congrArg (fun v => v.set a.toNat true a.isLt) hseen, congrArg (· + 1#9) hk, congrArg (· + 1#32) hcnt, hovf,
    fun b hb => ?_, fun i hi => ?_⟩
  · change (x.seen.set a.toNat true a.isLt).get (symIdx b) = true at hb
    change (x.freq.set a.toNat _ a.isLt).get (symIdx b) = (y.freq.set a.toNat _ a.isLt).get (symIdx b)
    rw [get_set_symIdx] at hb
    rw [get_set_symIdx, get_set_symIdx]
    by_cases hba : b = a
    · rw [if_pos hba, if_pos hba]
    · rw [if_neg hba] at hb
      rw [if_neg hba, if_neg hba, hfreq b hb]
  · change i < (x.k + 1#9).toNat at hi
    change (x.order.setIfInBounds x.k.toNat a)[i]? = (y.order.setIfInBounds y.k.toNat a)[i]?
    rw [← hk, Vector.getElem?_setIfInBounds, Vector.getElem?_setIfInBounds]
    by_cases hik : x.k.toNat = i
    · rw [if_pos hik, if_pos hik]
    · rw [if_neg hik, if_neg hik, horder i (by bv_omega)]

/-- One item counts alike in both (R113). -/
theorem CountAgrees.item {x y : Scratch} (h : CountAgrees x y) (d : Byte) :
    CountAgrees (countItem d x) (countItem d y) := by
  obtain ⟨hseen, hk, hcnt, hovf, hfreq, horder⟩ := id h
  cases ho : x.ovf with
  | true =>
    rw [countItem_of_ovf ho, countItem_of_ovf (hovf ▸ ho)]
    exact h
  | false =>
    have ho' : y.ovf = false := hovf ▸ ho
    by_cases hc : x.cnt = BitVec.ofNat 32 Config.nMax
    · rw [countItem_of_full ho hc, countItem_of_full ho' (hcnt ▸ hc)]
      exact ⟨hseen, hk, hcnt, rfl, hfreq, horder⟩
    have hc' : y.cnt ≠ BitVec.ofNat 32 Config.nMax := hcnt ▸ hc
    cases hs : x.seen.get (symIdx d) with
    | true =>
      rw [countItem_of_seen ho hc hs, countItem_of_seen ho' hc' (hseen ▸ hs)]
      exact h.again hs
    | false =>
      rw [countItem_of_new ho hc hs, countItem_of_new ho' hc' (hseen ▸ hs)]
      exact h.new d

/-- The Huffman tree of a sequence depends on its distinct symbols in first-occurrence order and their counts alone. -/
theorem huffTree_congr {items more : List Symbol} (hdistinct : distinctSymbols items = distinctSymbols more)
    (hcount : ∀ a ∈ items, items.count a = more.count a) : huffTree items = huffTree more := by
  have hleaves : leavesOf items.count 0 (distinctSymbols items) = leavesOf more.count 0 (distinctSymbols more) := by
    rw [← hdistinct]
    refine List.map_congr_left fun p hp => ?_
    simp only [hcount p.1 (mem_distinctSymbols.mp (List.fst_mem_of_mem_zipIdx hp))]
  rw [huffTree, huffTree, rankedLeaves_eq, rankedLeaves_eq, hleaves, hdistinct]

/-- Two counts that agree are counts of inputs with the same Huffman tree (R118). -/
theorem huffTree_eq_of_countAgrees {items more : List Byte} {x y : Scratch} (hx : Counted items x) (hy : Counted more y)
    (hitems : items.length ≤ Config.nMax) (hmore : more.length ≤ Config.nMax) (h : CountAgrees x y) :
    huffTree items = huffTree more := by
  obtain ⟨hseen, hk, -, -, hfreq, horder⟩ := h
  have hlen : (distinctSymbols items).length = (distinctSymbols more).length := by rw [← hx.k, hk, hy.k]
  have hdistinct : distinctSymbols items = distinctSymbols more := by
    refine List.ext_getElem? fun i => ?_
    by_cases hi : i < (distinctSymbols items).length
    · rw [← hx.order i hi, horder i (hx.k ▸ hi), hy.order i (hlen ▸ hi)]
    · rw [List.getElem?_eq_none (by omega), List.getElem?_eq_none (by omega)]
  refine huffTree_congr hdistinct fun a ha => ?_
  have hmem : a ∈ more := (hy.seen a).mp (hseen ▸ (hx.seen a).mpr ha)
  have hcount := hfreq a ((hx.seen a).mpr ha)
  rw [hx.freq a ha, hy.freq a hmem] at hcount
  have h1 := List.count_le_length (a := a) (l := items)
  have h2 := List.count_le_length (a := a) (l := more)
  simp only [Config.nMax] at hitems hmore
  have := congrArg BitVec.toNat hcount
  rw [BitVec.toNat_ofNat, BitVec.toNat_ofNat, Nat.mod_eq_of_lt (by omega), Nat.mod_eq_of_lt (by omega)] at this
  exact this

/-- What two BUILDs that look the same hold: counts that agree, each of some input. -/
structure BuildAgrees (s t : State) : Prop where
  face : SameFace s t
  left : BuildWaits s
  right : BuildWaits t
  count : CountAgrees s.scratch t.scratch

theorem BuildAgrees.item {s t : State} (h : BuildAgrees s t) (d : Byte) :
    BuildAgrees (buildItem d s) (buildItem d t) :=
  ⟨⟨h.face.cmd, h.face.out, h.face.mapping, h.face.status⟩, h.left.item d, h.right.item d, h.count.item d⟩

/-- Both end with the same mapping and response (R118). -/
theorem BuildAgrees.finish {s t : State} (h : BuildAgrees s t) : SameFace (finishBuild s) (finishBuild t) := by
  obtain ⟨hface, ⟨-, hms, items, x, hs⟩, ⟨-, hmt, more, y, ht⟩, hcount⟩ := h
  obtain ⟨-, -, hcnt, hovf, -⟩ := id hcount
  cases ho : s.scratch.ovf with
  | true =>
    rw [finishBuild_of_ovf ho, finishBuild_of_ovf (hovf ▸ ho)]
    exact (hface.endCommand _ _ _).forgetScratch
  | false =>
    have ho' : t.scratch.ovf = false := hovf ▸ ho
    by_cases hc : s.scratch.cnt = 0#32
    · rw [finishBuild_of_cnt_eq_zero ho hc, finishBuild_of_cnt_eq_zero ho' (hcnt ▸ hc)]
      exact (hface.endCommand _ _ _).forgetScratch
    · have hc' : t.scratch.cnt ≠ 0#32 := hcnt ▸ hc
      obtain ⟨hlen, hcs⟩ := counted_of_ovf_eq_false hs ho
      obtain ⟨hlen', hct⟩ := counted_of_ovf_eq_false ht ho'
      obtain ⟨l, x', hl, -, -, hbuild⟩ := buildMapping_counted hcs hms (mt hcs.cnt_eq_zero_iff.mpr hc) hlen
      obtain ⟨r, y', hr, -, -, hbuild'⟩ := buildMapping_counted hct hmt (mt hct.cnt_eq_zero_iff.mpr hc') hlen'
      obtain rfl : l = r := Option.some.inj <| calc
        some l = huffTree items := hl.symm
        _ = huffTree more := huffTree_eq_of_countAgrees hcs hct hlen hlen' hcount
        _ = some r := hr
      have hmapped : SameFace ((s.setScratch x').setMapping (treeMapping l))
          ((t.setScratch y').setMapping (treeMapping l)) := ⟨hface.cmd, hface.out, rfl, hface.status⟩
      rw [finishBuild_of_cnt_ne_zero ho hc, finishBuild_of_cnt_ne_zero ho' hc', hbuild, hbuild']
      exact (hmapped.endCommand _ _ _).forgetScratch

theorem continueBuild_sameOutcome {s t : State} (h : BuildAgrees s t) (hinp : s.inp = t.inp) :
    SameOutcome (continueBuild s) (continueBuild t) := by
  refine overFrame_sameOutcome h hinp (fun d u v huv => huv.item d) (fun u v rest huv => ?_) fun u v huv => ?_
  · have hpopped : BuildAgrees (u.setInp rest) (v.setInp rest) :=
      ⟨huv.face.setInp rest, huv.left, huv.right, huv.count⟩
    exact hpopped.finish.sameView_of_responds (responds_finishBuild _) (responds_finishBuild _) rfl
  · have hop : u.status.op = 0x01#8 := huv.left.1
    exact ⟨huv.face.cmd, rfl, huv.face.out, huv.face.mapping, huv.face.status, fun _ _ => huv.count,
      fun _ h2 => absurd (hop.symm.trans h2) (by decide), fun _ h3 => absurd (hop.symm.trans h3) (by decide)⟩

/-! ### ENCODE -/

theorem encodeItem_of_failed {s : State} (h : s.engine.failed = true) (d : Byte) : encodeItem d s = advancePos s := by
  simp [encodeItem, encodeSymbol, h]

theorem encodeItem_of_none {s : State} (h : s.engine.failed = false) {d : Byte} (hd : fwdLookup s.mapping d = none) :
    encodeItem d s = advancePos (noteAbsent d s) := by simp [encodeItem, encodeSymbol, symbolOf, h, hd]

theorem encodeItem_of_some {s : State} (h : s.engine.failed = false) {d : Byte} {c : Code}
    (hd : fwdLookup s.mapping d = some c) : encodeItem d s = advancePos (s.pushItems (codeChars c)) := by
  simp [encodeItem, encodeSymbol, symbolOf, h, hd]

/-- What two ENCODEs that look the same hold. -/
structure EncodeAgrees (s t : State) : Prop where
  face : SameFace s t
  engine : EncoderAgrees s.engine t.engine
  op : s.status.op = 0x02#8

theorem EncodeAgrees.item {s t : State} (h : EncodeAgrees s t) (d : Byte) :
    EncodeAgrees (encodeItem d s) (encodeItem d t) := by
  obtain ⟨hface, ⟨hpos, hfailed, hheld⟩, hop⟩ := h
  have hpos' : s.engine.pos + 1#32 = t.engine.pos + 1#32 := congrArg (· + 1#32) hpos
  cases hf : s.engine.failed with
  | true =>
    rw [encodeItem_of_failed hf, encodeItem_of_failed (hfailed ▸ hf)]
    exact ⟨hface.setEngine _ _, ⟨hpos', hfailed, hheld⟩, hop⟩
  | false =>
    have hf' : t.engine.failed = false := hfailed ▸ hf
    cases hl : fwdLookup s.mapping d with
    | none =>
      rw [encodeItem_of_none hf hl, encodeItem_of_none hf' (hface.mapping ▸ hl)]
      exact ⟨hface.setEngine _ _, ⟨hpos', rfl, fun _ => ⟨rfl, hpos⟩⟩, hop⟩
    | some c =>
      rw [encodeItem_of_some hf hl, encodeItem_of_some hf' (hface.mapping ▸ hl)]
      exact ⟨(hface.pushItems _).setEngine _ _, ⟨hpos', hfailed, hheld⟩, hop⟩

theorem EncodeAgrees.finish {s t : State} (h : EncodeAgrees s t) :
    SameFace (finishEncode s) (finishEncode t) := by
  obtain ⟨hface, ⟨-, hfailed, hheld⟩, -⟩ := h
  cases hf : s.engine.failed with
  | true =>
    obtain ⟨hinfo, hpos⟩ := hheld hf
    simp only [finishEncode, endEncode, hf, ← hfailed, if_true, hinfo, hpos]
    exact (hface.endCommand _ _ _).forgetEngine
  | false =>
    simp only [finishEncode, endEncode, hf, ← hfailed, Bool.false_eq_true, if_false]
    exact (hface.endCommand _ _ _).forgetEngine

/-- ENCODE or DECODE without a mapping: the outcome is the same whatever the engine holds, for OP names one of the two. -/
theorem refuse_sameOutcome {s t : State} (h : SameFace s t) (hinp : s.inp = t.inp) (hvalid : s.mapping.valid = false)
    (hop : s.status.op ≠ 0x01#8) :
    SameOutcome (overFrame ignoreItem refuseEmpty s) (overFrame ignoreItem refuseEmpty t) := by
  refine overFrame_sameOutcome (R := fun u v => SameFace u v ∧ u.mapping.valid = false ∧ u.status.op ≠ 0x01#8)
    ⟨h, hvalid, hop⟩ hinp (fun _ _ _ huv => huv) (fun u v rest huv => ?_) fun u v huv => ?_
  · exact ((huv.1.setInp rest).endCommand _ _ _).sameView rfl rfl
  · obtain ⟨hface, hv, hop⟩ := huv
    have hnot : u.mapping.valid ≠ true := by simp [hv]
    exact ⟨hface.cmd, rfl, hface.out, hface.mapping, hface.status, fun _ h1 => absurd h1 hop,
      fun _ _ hv => absurd hv hnot, fun _ _ hv => absurd hv hnot⟩

theorem EncodeAgrees.sameOutcome {s t : State} (h : EncodeAgrees s t) (hinp : s.inp = t.inp) :
    SameOutcome (overFrame encodeItem finishEncode s) (overFrame encodeItem finishEncode t) := by
  refine overFrame_sameOutcome h hinp (fun d u v huv => huv.item d) (fun u v rest huv => ?_) fun u v huv => ?_
  · have hpopped : EncodeAgrees (u.setInp rest) (v.setInp rest) := ⟨huv.face.setInp rest, huv.engine, huv.op⟩
    exact hpopped.finish.sameView_of_responds (responds_finishEncode _) (responds_finishEncode _) rfl
  · exact ⟨huv.face.cmd, rfl, huv.face.out, huv.face.mapping, huv.face.status,
      fun _ h1 => absurd (huv.op.symm.trans h1) (by decide), fun _ _ _ => huv.engine,
      fun _ h3 => absurd (huv.op.symm.trans h3) (by decide)⟩

/-! ### DECODE -/

theorem decodeItem_of_poison {s : State} (h : s.engine.poison = true) (d : Byte) : decodeItem d s = advancePos s := by
  simp [decodeItem, decodeChar, h]

theorem decodeItem_of_charBit_none {s : State} (h : s.engine.poison = false) {d : Byte} (hd : charBit d = none) :
    decodeItem d s = advancePos (setPoison s) := by simp [decodeItem, decodeChar, h, hd]

theorem decodeItem_of_full {s : State} (h : s.engine.poison = false) (hfull : s.engine.buflen = s.mapping.maxlen)
    (d : Byte) : decodeItem d s = advancePos (setPoison s) := by
  cases hd : charBit d <;> simp [decodeItem, decodeChar, h, hd, hfull]

theorem decodeItem_of_bit {s : State} (h : s.engine.poison = false) {d : Byte} {b : Bool} (hd : charBit d = some b)
    (hroom : s.engine.buflen ≠ s.mapping.maxlen) : decodeItem d s = advancePos (appendBit b s) := by
  simp [decodeItem, decodeChar, h, hd, hroom]

/-- What two DECODEs that look the same hold. -/
structure DecodeAgrees (s t : State) : Prop where
  face : SameFace s t
  engine : DecoderAgrees s.engine t.engine
  op : s.status.op = 0x03#8

theorem DecodeAgrees.advance {s t : State} (h : DecodeAgrees s t) :
    DecodeAgrees (advancePos s) (advancePos t) := by
  obtain ⟨hface, ⟨hbuf, hbuflen, hpoison, hstart, hpos⟩, hop⟩ := h
  exact ⟨hface.setEngine _ _, ⟨hbuf, hbuflen, hpoison, hstart, congrArg (· + 1#32) hpos⟩, hop⟩

theorem DecodeAgrees.poison {s t : State} (h : DecodeAgrees s t) : DecodeAgrees (setPoison s) (setPoison t) := by
  obtain ⟨hface, ⟨hbuf, hbuflen, -, hstart, hpos⟩, hop⟩ := h
  exact ⟨hface.setEngine _ _, ⟨hbuf, hbuflen, rfl, hstart, hpos⟩, hop⟩

/-- The candidate grows alike, and is looked up in the same REV (R188). -/
theorem DecodeAgrees.append {s t : State} (h : DecodeAgrees s t) (b : Bool) :
    DecodeAgrees (appendBit b s) (appendBit b t) := by
  obtain ⟨hface, ⟨hbuf, hbuflen, hpoison, hstart, hpos⟩, hop⟩ := h
  have hcandidate : candidate s.engine = candidate t.engine := by rw [candidate, hbuf, hbuflen, candidate]
  have happended : DecodeAgrees (s.setEngine (setCandidate (codeSnoc (candidate s.engine) b) s.engine))
      (t.setEngine (setCandidate (codeSnoc (candidate t.engine) b) t.engine)) := by
    rw [← hcandidate]
    exact ⟨hface.setEngine _ _, ⟨rfl, rfl, hpoison, hstart, hpos⟩, hop⟩
  simp only [appendBit, State.setEngine_engine, State.setEngine_mapping, candidate_setCandidate, ← hcandidate,
    ← hface.mapping] at happended ⊢
  split
  · exact happended
  · exact ⟨(happended.face.pushItems _).setEngine _ _, ⟨rfl, rfl, hpoison, congrArg (· + 1#32) hpos, hpos⟩, hop⟩

theorem DecodeAgrees.item {s t : State} (h : DecodeAgrees s t) (d : Byte) :
    DecodeAgrees (decodeItem d s) (decodeItem d t) := by
  obtain ⟨-, hbuflen, hpoison, -⟩ := h.engine
  cases hp : s.engine.poison with
  | true =>
    rw [decodeItem_of_poison hp, decodeItem_of_poison (hpoison ▸ hp)]
    exact h.advance
  | false =>
    have hp' : t.engine.poison = false := hpoison ▸ hp
    by_cases hfull : s.engine.buflen = s.mapping.maxlen
    · have hfull' : t.engine.buflen = t.mapping.maxlen := by rw [← hbuflen, hfull, h.face.mapping]
      rw [decodeItem_of_full hp hfull, decodeItem_of_full hp' hfull']
      exact h.poison.advance
    · have hroom' : t.engine.buflen ≠ t.mapping.maxlen := by rwa [← hbuflen, ← h.face.mapping]
      cases hd : charBit d with
      | none =>
        rw [decodeItem_of_charBit_none hp hd, decodeItem_of_charBit_none hp' hd]
        exact h.poison.advance
      | some b =>
        rw [decodeItem_of_bit hp hd hfull, decodeItem_of_bit hp' hd hroom']
        exact (h.append b).advance

theorem DecodeAgrees.finish {s t : State} (h : DecodeAgrees s t) :
    SameFace (finishDecode s) (finishDecode t) := by
  obtain ⟨hface, ⟨-, hbuflen, hpoison, hstart, -⟩, -⟩ := h
  unfold finishDecode endDecode
  rw [← hpoison, ← hbuflen, ← hstart]
  split
  · exact (hface.endCommand _ _ _).forgetEngine
  · exact (hface.endCommand _ _ _).forgetEngine

theorem DecodeAgrees.sameOutcome {s t : State} (h : DecodeAgrees s t) (hinp : s.inp = t.inp) :
    SameOutcome (overFrame decodeItem finishDecode s) (overFrame decodeItem finishDecode t) := by
  refine overFrame_sameOutcome h hinp (fun d u v huv => huv.item d) (fun u v rest huv => ?_) fun u v huv => ?_
  · have hpopped : DecodeAgrees (u.setInp rest) (v.setInp rest) := ⟨huv.face.setInp rest, huv.engine, huv.op⟩
    exact hpopped.finish.sameView_of_responds (responds_finishDecode _) (responds_finishDecode _) rfl
  · exact ⟨huv.face.cmd, rfl, huv.face.out, huv.face.mapping, huv.face.status,
      fun _ h1 => absurd (huv.op.symm.trans h1) (by decide), fun _ h2 => absurd (huv.op.symm.trans h2) (by decide),
      fun _ _ _ => huv.engine⟩

/-! ### Commands and steps -/

/-- A command gives engine and scratch state a value before it reads them (R51), so its outcome is the same whatever they
held. -/
theorem exec_sameOutcome {i : Instr} {s t : State} (hface : SameFace s t) (hinp : s.inp = t.inp)
    (hop : s.status.op = instrOpc i) : SameOutcome (exec i s) (exec i t) := by
  cases i with
  | build =>
    exact continueBuild_sameOutcome ⟨⟨hface.cmd, hface.out, rfl, hface.status⟩, buildWaits_startBuild hop,
      buildWaits_startBuild (hface.status ▸ hop), countAgrees_startCount _ _⟩ hinp
  | encode =>
    cases hvalid : s.mapping.valid with
    | true =>
      rw [execEncode_valid hvalid, execEncode_valid (hface.mapping ▸ hvalid)]
      exact EncodeAgrees.sameOutcome ⟨hface.setEngine _ _,
        ⟨rfl, rfl, fun h => absurd (h : false = true) Bool.false_ne_true⟩, hop⟩ hinp
    | false =>
      rw [execEncode_invalid hvalid, execEncode_invalid (hface.mapping ▸ hvalid)]
      exact refuse_sameOutcome hface hinp hvalid (by rw [hop]; decide)
  | decode =>
    cases hvalid : s.mapping.valid with
    | true =>
      rw [execDecode_valid hvalid, execDecode_valid (hface.mapping ▸ hvalid)]
      exact DecodeAgrees.sameOutcome ⟨hface.setEngine _ _, ⟨rfl, rfl, rfl, rfl, rfl⟩, hop⟩ hinp
    | false =>
      rw [execDecode_invalid hvalid, execDecode_invalid (hface.mapping ▸ hvalid)]
      exact refuse_sameOutcome hface hinp hvalid (by rw [hop]; decide)
  | codes =>
    have hitems := hface.pushItems (codesItems s.mapping)
    have hview := (hitems.endCommand .ok 0#32 0#32).sameView hinp rfl
    have ht : exec .codes t = .next (t.pushItems (codesItems s.mapping)).respondOk := by rw [hface.mapping]; rfl
    rw [ht]
    exact hview

/-- A waiting command reads what it has written itself (R21, R263). -/
theorem continueCommand_sameOutcome {s t : State} (hs : Inv s) (ht : Inv t) (h : SameView s t)
    (hbusy : s.status.busy = true) : SameOutcome (continueCommand s) (continueCommand t) := by
  have hbusy' : t.status.busy = true := h.status ▸ hbusy
  obtain hop | hop | hop := hs.op_of_busy hbusy
  · rw [continueCommand_of_build hop, continueCommand_of_build (h.status ▸ hop)]
    exact continueBuild_sameOutcome ⟨h.sameFace, hs.buildWaits hbusy hop, ht.buildWaits hbusy' (h.status ▸ hop),
      h.build hbusy hop⟩ h.inp
  · rw [continueCommand_of_encode hop, continueCommand_of_encode (h.status ▸ hop), continueEncode, continueEncode,
      ← h.mapping]
    split
    · next hvalid => exact EncodeAgrees.sameOutcome ⟨h.sameFace, h.encode hbusy hop hvalid, hop⟩ h.inp
    · next hvalid => exact refuse_sameOutcome h.sameFace h.inp (by simpa using hvalid) (by rw [hop]; decide)
  · rw [continueCommand_of_decode hop, continueCommand_of_decode (h.status ▸ hop), continueDecode, continueDecode,
      ← h.mapping]
    split
    · next hvalid => exact DecodeAgrees.sameOutcome ⟨h.sameFace, h.decode hbusy hop hvalid, hop⟩ h.inp
    · next hvalid => exact refuse_sameOutcome h.sameFace h.inp (by simpa using hvalid) (by rw [hop]; decide)

/-- A word that is popped runs its command, or raises, from what is compared alone (R51). -/
theorem runWord_sameOutcome {s t : State} (w : CmdWord) (hface : SameFace s t) (hinp : s.inp = t.inp)
    (hop : s.status.op = wordOpc w) : SameOutcome (runWord w s) (runWord w t) := by
  cases hd : decode w with
  | ok i =>
    rw [runWord_of_ok hd, runWord_of_ok hd]
    exact exec_sameOutcome hface hinp (hop.trans (wordOpc_eq_of_decode hd))
  | error e =>
    rw [runWord_of_error hd, runWord_of_error hd]
    exact (hface.endCommand _ _ _).sameView hinp rfl

/-- Settles O56: both states take the same branch of the step; a popped word runs alike (`runWord_sameOutcome`), and so
does a waiting command (`continueCommand_sameOutcome`). -/
theorem noUnspecifiedValueIsRead : Obligations.NoUnspecifiedValueIsRead := by
  intro s t hs ht h
  cases hbusy : s.status.busy with
  | true =>
    have hbusy' : t.status.busy = true := h.status ▸ hbusy
    by_cases hinp : s.inp = []
    · rw [step_of_busy_nil hbusy hinp, step_of_busy_nil hbusy' (h.inp ▸ hinp)]
      rfl
    · rw [step_of_busy hbusy hinp, step_of_busy hbusy' (h.inp ▸ hinp)]
      exact continueCommand_sameOutcome hs ht h hbusy
  | false =>
    have hidle : t.status.busy = false := h.status ▸ hbusy
    cases hcmd : s.cmd with
    | nil =>
      rw [step_of_idle_nil hbusy hcmd, step_of_idle_nil hidle (h.cmd ▸ hcmd)]
      rfl
    | cons w rest =>
      rw [step_of_word hbusy hcmd, step_of_word hidle (h.cmd ▸ hcmd)]
      exact runWord_sameOutcome w ⟨rfl, h.out, h.mapping, by simp [h.status]⟩ h.inp rfl

end Sys2Proof.Machine
end

section
/-! PROOFS. The family 10_state.md: where the core stands still (R21, R263, R270), what a step and a command leave alone
(R22, R51, R63, R87), the registers (R40 to R48) and reset (R52, R250). -/

namespace Sys2Proof.Machine

/-! ### Where the core stands still -/

theorem continueBuild_next (s : State) : ∃ t, continueBuild s = .next t := ⟨_, rfl⟩

theorem continueEncode_next (s : State) : ∃ t, continueEncode s = .next t := by
  unfold continueEncode
  split <;> exact ⟨_, rfl⟩

theorem continueDecode_next (s : State) : ∃ t, continueDecode s = .next t := by
  unfold continueDecode
  split <;> exact ⟨_, rfl⟩

/-- Every command answers a next state from every state. -/
theorem exec_next (i : Instr) (s : State) : ∃ t, exec i s = .next t := by
  cases i with
  | build => exact continueBuild_next _
  | encode => exact continueEncode_next _
  | decode => exact continueDecode_next _
  | codes => exact ⟨_, rfl⟩

/-- A popped word always answers a next state, an illegal one too (R83). -/
theorem runWord_next (w : CmdWord) (s : State) : ∃ t, runWord w s = .next t := by
  cases hd : decode w with
  | ok i => rw [runWord_of_ok hd]; exact exec_next i s
  | error e => exact ⟨_, runWord_of_error hd s⟩

/-- OP names a command that takes input (R21). -/
def OpTakesInput (s : State) : Prop := s.status.op = 0x01#8 ∨ s.status.op = 0x02#8 ∨ s.status.op = 0x03#8

theorem continueCommand_next {s : State} (h : OpTakesInput s) : ∃ t, continueCommand s = .next t := by
  obtain hop | hop | hop := h
  · rw [continueCommand_of_build hop]; exact continueBuild_next s
  · rw [continueCommand_of_encode hop]; exact continueEncode_next s
  · rw [continueCommand_of_decode hop]; exact continueDecode_next s

theorem continueCommand_of_not {s : State} (h : ¬ OpTakesInput s) : continueCommand s = .fault .busyWithoutInput := by
  simp only [OpTakesInput, not_or] at h
  obtain ⟨h1, h2, h3⟩ := h
  exact continueCommand_of_other h1 h2 h3

/-- What a step answers: nothing to pop, no beat to pop, no command that could go on, or a next state. -/
theorem step_outcome (s : State) :
    (s.status.busy = false ∧ s.cmd = [] ∧ step s = .fault .noCommand) ∨
    (s.status.busy = true ∧ s.inp = [] ∧ step s = .fault .waitingForInput) ∨
    (s.status.busy = true ∧ s.inp ≠ [] ∧ ¬ OpTakesInput s ∧ step s = .fault .busyWithoutInput) ∨
    ((s.status.busy = false ∧ s.cmd ≠ [] ∨ s.status.busy = true ∧ s.inp ≠ [] ∧ OpTakesInput s) ∧
      ∃ t, step s = .next t) := by
  cases hbusy : s.status.busy with
  | true =>
    by_cases hinp : s.inp = []
    · exact .inr (.inl ⟨rfl, hinp, step_of_busy_nil hbusy hinp⟩)
    · rw [step_of_busy hbusy hinp]
      by_cases hop : OpTakesInput s
      · exact .inr (.inr (.inr ⟨.inr ⟨rfl, hinp, hop⟩, continueCommand_next hop⟩))
      · exact .inr (.inr (.inl ⟨rfl, hinp, hop, continueCommand_of_not hop⟩))
  | false =>
    cases hcmd : s.cmd with
    | nil => exact .inl ⟨rfl, rfl, step_of_idle_nil hbusy hcmd⟩
    | cons w rest =>
      rw [step_of_word hbusy hcmd]
      exact .inr (.inr (.inr ⟨.inl ⟨rfl, List.cons_ne_nil w rest⟩, runWord_next w _⟩))

/-- Settles O9: each clause read off the four outcomes of a step (`step_outcome`); under the invariant a waiting command
is one that takes input (`Inv.op_of_busy`). -/
theorem coreStandsStillExactlyWhen : Obligations.CoreStandsStillExactlyWhen := by
  intro s
  have hop : (s.status.op ≠ 0x01#8 ∧ s.status.op ≠ 0x02#8 ∧ s.status.op ≠ 0x03#8) ↔ ¬ OpTakesInput s := by
    simp only [OpTakesInput, not_or]
  have hinv : Inv s → s.status.busy = true → OpTakesInput s := fun hs hbusy => hs.op_of_busy hbusy
  rw [hop]
  obtain ⟨hbusy, hcmd, hstep⟩ | ⟨hbusy, hinp, hstep⟩ | ⟨hbusy, hinp, hnot, hstep⟩ | ⟨hmoves, t, hstep⟩ := step_outcome s
  · simp [hstep, hbusy, hcmd]
  · simp [hstep, hbusy, hinp]
  · simpa [hstep, hbusy, hinp, hnot] using fun hs => hnot (hinv hs hbusy)
  · obtain ⟨hbusy, hcmd⟩ | ⟨hbusy, hinp, htakes⟩ := hmoves
    · simp [hstep, hbusy, hcmd]
    · simp [hstep, hbusy, hinp, htakes]

/-! ### What a step leaves alone -/

/-- Settles O14: a step runs one command, which pushes items and then, when it ends, its response (`step_ran`). -/
theorem responseExactlyWhenDone : Obligations.ResponseExactlyWhenDone := by
  intro s t h
  have key : ∀ u : State, u.out = s.out → u.status.busy = true → Ran u t → ∃ items : List Byte,
      (t.status.busy = true → t.out = s.out ++ items.map itemBeat) ∧
      (t.status.busy = false → t.out = s.out ++ items.map itemBeat ++ [responseBeat t.status.err]) := by
    intro u hout hbusy hran
    obtain ⟨items, ⟨hstatus, hitems⟩ | ⟨hidle, hitems⟩⟩ := hran.out
    · exact ⟨items, fun _ => hout ▸ hitems, fun hidle => absurd (hstatus ▸ hbusy) (by simp [hidle])⟩
    · exact ⟨items, fun hbusy => absurd hbusy (by simp [hidle]), fun _ => hout ▸ hitems⟩
  obtain ⟨w, rest, -, -, hran⟩ | ⟨hbusy, hran⟩ := step_ran h
  · exact key (s.acceptWord w rest) rfl rfl hran
  · exact key s rfl hbusy hran

theorem Ran.out_prefix {s t : State} (h : Ran s t) : s.out <+: t.out := by
  obtain ⟨items, ⟨-, hout⟩ | ⟨-, hout⟩⟩ := h.out
  · exact ⟨_, hout.symm⟩
  · exact ⟨items.map itemBeat ++ [responseBeat t.status.err], by rw [hout, List.append_assoc]⟩

/-- Settles O15: the word is popped before the command runs, and no command touches CMD (`step_ran`). -/
theorem channelsAreQueues : Obligations.ChannelsAreQueues := by
  intro s t h
  obtain ⟨w, rest, hidle, hcmd, hran⟩ | ⟨hbusy, hran⟩ := step_ran h
  · exact ⟨hran.out_prefix, hran.inp, fun _ => ⟨w, by rw [hcmd, hran.cmd]; rfl⟩, fun hb => absurd hb (by simp [hidle])⟩
  · exact ⟨hran.out_prefix, hran.inp, fun hidle => absurd hbusy (by simp [hidle]), fun _ => hran.cmd⟩

/-- A command that changes mapping or scratch state is BUILD, one that changes engine state is ENCODE or DECODE (R51). -/
theorem exec_owner {i : Instr} {s t : State} (h : exec i s = .next t) :
    (t.mapping ≠ s.mapping ∨ t.scratch ≠ s.scratch → i = .build) ∧
    (t.engine ≠ s.engine → i = .encode ∨ i = .decode) := by
  cases i with
  | build => exact ⟨fun _ => rfl, fun hne => absurd (continueBuild_engine h) hne⟩
  | encode =>
    obtain ⟨hmapping, hscratch⟩ := execEncode_mapping_scratch h
    exact ⟨fun hne => absurd hne (by simp [hmapping, hscratch]), fun _ => .inl rfl⟩
  | decode =>
    obtain ⟨hmapping, hscratch⟩ := execDecode_mapping_scratch h
    exact ⟨fun hne => absurd hne (by simp [hmapping, hscratch]), fun _ => .inr rfl⟩
  | codes =>
    obtain rfl := Host.Outcome.next.inj h
    exact ⟨fun hne => absurd hne (by simp), fun hne => absurd rfl hne⟩

/-- Settles O16: a popped word's command owns what it changes (`exec_owner`), an illegal word changes neither group, and
a waiting command is the one OP names. -/
theorem onlyTheOwnerWrites : Obligations.OnlyTheOwnerWrites := by
  intro s t h
  have hwaits : ∀ i, s.status.busy = true → s.status.op = instrOpc i → Runs i s := fun i hb hop => .inr ⟨hb, hop⟩
  obtain ⟨w, rest, i, hidle, hcmd, hdecode, hexec⟩ | ⟨w, rest, e, -, -, -, rfl⟩ | ⟨hbusy, -, hop⟩ := step_cases h
  · have hruns : Runs i s := .inl ⟨hidle, w, rest, hcmd, hdecode⟩
    have hop : t.status.op = instrOpc i := (exec_ran hexec).op.trans (wordOpc_eq_of_decode hdecode)
    obtain ⟨hbuild, hengine⟩ := exec_owner hexec
    refine ⟨fun hne => ?_, fun hne => ?_⟩
    · obtain rfl := hbuild hne
      exact ⟨hruns, hop⟩
    · obtain rfl | rfl := hengine hne
      · exact .inl ⟨hruns, hop⟩
      · exact .inr ⟨hruns, hop⟩
  · exact ⟨fun hne => absurd hne (by simp), fun hne => absurd rfl hne⟩
  · obtain ⟨hop, h⟩ | ⟨hop, h⟩ | ⟨hop, h⟩ := hop
    · exact ⟨fun _ => ⟨hwaits .build hbusy hop, (continueBuild_ran h).op.trans hop⟩,
        fun hne => absurd (continueBuild_engine h) hne⟩
    · obtain ⟨hmapping, hscratch⟩ := continueEncode_mapping_scratch h
      exact ⟨fun hne => absurd hne (by simp [hmapping, hscratch]),
        fun _ => .inl ⟨hwaits .encode hbusy hop, (continueEncode_ran h).op.trans hop⟩⟩
    · obtain ⟨hmapping, hscratch⟩ := continueDecode_mapping_scratch h
      exact ⟨fun hne => absurd hne (by simp [hmapping, hscratch]),
        fun _ => .inr ⟨hwaits .decode hbusy hop, (continueDecode_ran h).op.trans hop⟩⟩

/-- Settles O7: with BUSY = 0 the step is the popped word, and the word decodes to i. -/
theorem stepRunsDecodedCommand : Obligations.StepRunsDecodedCommand := by
  intro s w rest i hidle hcmd hdecode
  rw [step_of_word hidle hcmd, runWord_of_ok hdecode]
  rfl

/-! ### What ENCODE and DECODE push -/

/-- OUT has only characters more (R90). -/
def PushedCharacters (s t : State) : Prop :=
  ∃ pushed : List Beat, t.out = s.out ++ pushed ∧ ∀ b ∈ pushed, b.wellFormedCharacter = true

theorem PushedCharacters.of_eq {s t : State} (h : t.out = s.out) : PushedCharacters s t := ⟨[], by simp [h], by simp⟩

theorem PushedCharacters.trans {s t u : State} (hst : PushedCharacters s t) (htu : PushedCharacters t u) :
    PushedCharacters s u := by
  obtain ⟨first, hfirst, hchars⟩ := hst
  obtain ⟨second, hsecond, hchars'⟩ := htu
  exact ⟨first ++ second, by rw [hsecond, hfirst, List.append_assoc],
    fun b hb => (List.mem_append.mp hb).elim (hchars b) (hchars' b)⟩

theorem wellFormedCharacter_chr (b : Bool) : (itemBeat (chr b)).wellFormedCharacter = true := by
  cases b <;> decide

theorem encodeItem_pushedCharacters (d : Byte) (s : State) : PushedCharacters s (encodeItem d s) := by
  obtain ⟨-, -, -, -, -, -, -, chars, hout, hchars⟩ := encodeItem_frame d s
  refine ⟨chars.map itemBeat, hout, fun b hb => ?_⟩
  obtain ⟨c, hc, rfl⟩ := List.mem_map.mp hb
  obtain ⟨bit, rfl⟩ := hchars c hc
  exact wellFormedCharacter_chr bit

/-- A command whose items push only characters pushes only characters before its response. -/
theorem overFrame_characters {body : Byte → State → State} {finish : State → State} {s t : State}
    (hbody : ∀ d u, PushedCharacters u (body d u)) (hstatus : ∀ d u, (body d u).status = u.status)
    (hfinish : ∀ u, Responds u (finish u)) (h : overFrame body finish s = .next t) :
    ∃ pushed : List Beat, (t.out = s.out ++ pushed ∧ t.status = s.status ∨
      t.out = s.out ++ pushed ++ [responseBeat t.status.err]) ∧ ∀ b ∈ pushed, b.wellFormedCharacter = true := by
  refine overFrame_induct (P := fun u => PushedCharacters s u ∧ u.status = s.status) (Q := fun u =>
    ∃ pushed : List Beat, (u.out = s.out ++ pushed ∧ u.status = s.status ∨
      u.out = s.out ++ pushed ++ [responseBeat u.status.err]) ∧ ∀ b ∈ pushed, b.wellFormedCharacter = true)
    h ⟨.of_eq rfl, rfl⟩ (fun d u hu => ⟨hu.1.trans (hbody d u), (hstatus d u).trans hu.2⟩) (fun u rest hu _ => ?_)
    fun u hu => ?_
  · obtain ⟨⟨pushed, hout, hchars⟩, -⟩ := hu
    exact ⟨pushed, .inr (hout ▸ (hfinish (u.setInp rest)).out), hchars⟩
  · obtain ⟨⟨pushed, hout, hchars⟩, hsame⟩ := hu
    exact ⟨pushed, .inl ⟨hout, hsame⟩, hchars⟩

/-- Settles O35: what the input loop of ENCODE pushes, with a mapping and without one. -/
theorem encodeFrame : Obligations.EncodeFrame := by
  intro s t h
  have hran := exec_ran h
  obtain ⟨hmapping, hscratch⟩ := execEncode_mapping_scratch h
  refine ⟨hmapping, hscratch, hran.cmd, hran.op, hran.inp, ?_⟩
  cases hvalid : s.mapping.valid with
  | true =>
    rw [execEncode_valid hvalid] at h
    obtain ⟨pushed, hout, hchars⟩ := overFrame_characters encodeItem_pushedCharacters
      (fun d u => (encodeItem_pushesItemsOnly d u).status) responds_finishEncode h
    exact ⟨pushed, hout, hchars⟩
  | false =>
    rw [execEncode_invalid hvalid] at h
    exact overFrame_characters (fun _ _ => .of_eq rfl) (fun _ _ => rfl) (fun u => responds_raise u _ _ _) h

/-- OUT has at most n items more, and the status state is as before. -/
def PushedAtMost (n : Nat) (s t : State) : Prop :=
  t.status = s.status ∧ ∃ syms : List Symbol, syms.length ≤ n ∧ t.out = s.out ++ syms.map itemBeat

theorem decodeItem_pushedAtMost (d : Byte) (s : State) : PushedAtMost 1 s (decodeItem d s) := by
  obtain ⟨-, -, -, -, hstatus, -, -, syms, hlen, hout⟩ := decodeItem_frame d s
  exact ⟨hstatus, syms, hlen, hout⟩

theorem ignoreItem_pushedAtMost (d : Byte) (s : State) : PushedAtMost 1 s (ignoreItem d s) :=
  ⟨rfl, [], Nat.zero_le 1, by simp [ignoreItem]⟩

theorem foldl_pushedAtMost {body : Byte → State → State} (hbody : ∀ d u, PushedAtMost 1 u (body d u))
    (items : List Byte) (s : State) : PushedAtMost items.length s (items.foldl (fun t d => body d t) s) := by
  induction items generalizing s with
  | nil => exact ⟨rfl, [], Nat.le_refl 0, by simp⟩
  | cons d items ih =>
    obtain ⟨hstatus, first, hfirst, hout⟩ := hbody d s
    obtain ⟨hstatus', rest, hrest, hout'⟩ := ih (body d s)
    refine ⟨hstatus'.trans hstatus, first ++ rest, ?_, ?_⟩
    · rw [List.length_append, List.length_cons]
      omega
    · rw [List.foldl_cons, hout', hout, List.map_append, List.append_assoc]

/-- A command that pushes at most one item per item pushes no more than it pops (R193). -/
theorem overFrame_pushedAtMost {body : Byte → State → State} {finish : State → State} {s t : State}
    (hbody : ∀ d u, PushedAtMost 1 u (body d u)) (hfinish : ∀ u, Responds u (finish u))
    (h : overFrame body finish s = .next t) :
    ∃ syms : List Symbol, syms.length ≤ s.inp.length - t.inp.length ∧
      (∀ items rest, takeFrame s.inp = some (items, rest) → syms.length ≤ items.length) ∧
      (t.out = s.out ++ syms.map itemBeat ∧ t.status = s.status ∨
        t.out = s.out ++ syms.map itemBeat ++ [responseBeat t.status.err]) := by
  cases hf : takeFrame s.inp with
  | none =>
    rw [overFrame_incomplete body finish hf] at h
    obtain rfl := Host.Outcome.next.inj h
    obtain ⟨hstatus, syms, hlen, hout⟩ := foldl_pushedAtMost hbody (s.inp.map Beat.data) s
    rw [List.length_map] at hlen
    exact ⟨syms, hlen, fun _ _ hsome => absurd hsome (by simp), .inl ⟨hout, hstatus⟩⟩
  | some p =>
    obtain ⟨items, rest⟩ := p
    rw [overFrame_complete body finish hf] at h
    obtain rfl := Host.Outcome.next.inj h
    obtain ⟨-, syms, hlen, hout⟩ := foldl_pushedAtMost hbody items s
    have hend := hfinish ((items.foldl (fun t d => body d t) s).setInp rest)
    obtain ⟨e, he⟩ := eq_of_takeFrame_some hf
    refine ⟨syms, ?_, fun items' rest' hsome => ?_, .inr (hout ▸ hend.out)⟩
    · rw [hend.inp, State.setInp_inp, he, List.length_append, List.length_map, List.length_cons]
      omega
    · obtain ⟨rfl, -⟩ := Prod.mk.inj (Option.some.inj hsome)
      exact hlen

/-- Settles O40: what the input loop of DECODE pushes, with a mapping and without one. -/
theorem decodeFrame : Obligations.DecodeFrame := by
  intro s t h
  have hran := exec_ran h
  obtain ⟨hmapping, hscratch⟩ := execDecode_mapping_scratch h
  refine ⟨hmapping, hscratch, hran.cmd, hran.op, hran.inp, ?_⟩
  cases hvalid : s.mapping.valid with
  | true =>
    rw [execDecode_valid hvalid] at h
    obtain ⟨syms, hlen, hframe, hout⟩ := overFrame_pushedAtMost decodeItem_pushedAtMost responds_finishDecode h
    exact ⟨syms, hlen, hframe, hout⟩
  | false =>
    rw [execDecode_invalid hvalid] at h
    exact overFrame_pushedAtMost ignoreItem_pushedAtMost (fun u => responds_raise u _ _ _) h

/-! ### Registers and reset -/

theorem whileIdle_of_idle {α : Type} [Inhabited α] {s : State} (h : s.status.busy = false) (value : α) :
    whileIdle s value = value := by simp [whileIdle, h]

/-- Behind the lower part of a word its upper part begins. -/
theorem extractLsb'_append_skip {v w : Nat} (hi : BitVec v) (lo : BitVec w) (start len : Nat) :
    (hi ++ lo).extractLsb' (w + start) len = hi.extractLsb' start len := by
  rw [BitVec.extractLsb'_append_eq_of_le (Nat.le_add_right w start), Nat.add_sub_cancel_left]

theorem getLsbD_append_skip {v w : Nat} (hi : BitVec v) (lo : BitVec w) (i : Nat) :
    (hi ++ lo).getLsbD (w + i) = hi.getLsbD i := by
  rw [BitVec.getLsbD_append, if_neg (by omega), Nat.add_sub_cancel_left]

theorem getLsbD_append_ofBool {v : Nat} (hi : BitVec v) (b : Bool) : (hi ++ BitVec.ofBool b).getLsbD 0 = b := by
  rw [BitVec.getLsbD_append]
  simp

/-- The fields of a STATUS word, the lowest first, each found behind those below it (R43). -/
theorem statusWord_fields (busy valid : Bool) (err : BitVec 4) (op : BitVec 8) :
    (statusWord busy valid err op).getLsbD 0 = busy ∧ (statusWord busy valid err op).getLsbD 1 = valid ∧
    (statusWord busy valid err op).extractLsb' 2 6 = 0#6 ∧ (statusWord busy valid err op).extractLsb' 8 4 = err ∧
    (statusWord busy valid err op).extractLsb' 12 4 = 0#4 ∧ (statusWord busy valid err op).extractLsb' 16 8 = op ∧
    (statusWord busy valid err op).extractLsb' 24 8 = 0#8 := by
  have hbusy := extractLsb'_append_skip (0#8 ++ op ++ 0#4 ++ err ++ 0#6 ++ BitVec.ofBool valid) (BitVec.ofBool busy)
  have hvalid := extractLsb'_append_skip (0#8 ++ op ++ 0#4 ++ err ++ 0#6) (BitVec.ofBool valid)
  have hlow := extractLsb'_append_skip (0#8 ++ op ++ 0#4 ++ err) 0#6
  have herr := extractLsb'_append_skip (0#8 ++ op ++ 0#4) err
  have hmid := extractLsb'_append_skip (0#8 ++ op) 0#4
  have hop := extractLsb'_append_skip 0#8 op
  have last : ∀ {v w : Nat} {hi : BitVec v} {lo : BitVec w}, (hi ++ lo).extractLsb' 0 w = lo :=
    BitVec.extractLsb'_append_eq_right
  refine ⟨getLsbD_append_ofBool _ busy, ?_, ?_, ?_, ?_, ?_, ?_⟩
  · exact (getLsbD_append_skip _ (BitVec.ofBool busy) 0).trans (getLsbD_append_ofBool _ valid)
  · exact (hbusy 1 6).trans ((hvalid 0 6).trans last)
  · exact (hbusy 7 4).trans ((hvalid 6 4).trans ((hlow 0 4).trans last))
  · exact (hbusy 11 4).trans ((hvalid 10 4).trans ((hlow 4 4).trans ((herr 0 4).trans last)))
  · exact (hbusy 15 8).trans ((hvalid 14 8).trans ((hlow 8 8).trans ((herr 4 8).trans ((hmid 0 8).trans last))))
  · exact (hbusy 23 8).trans ((hvalid 22 8).trans ((hlow 16 8).trans ((herr 12 8).trans ((hmid 8 8).trans
      ((hop 0 8).trans BitVec.extractLsb'_eq_self)))))

/-- Settles O48: register 2 is the STATUS word, whose fields are as R43 says (`statusWord_fields`). -/
theorem statusRegisterFields : Obligations.StatusRegisterFields := by
  intro s
  obtain ⟨hbusy, hvalid, hlow, herr, hmid, hop, hhigh⟩ := statusWord_fields s.status.busy (whileIdle s s.mapping.valid)
    (whileIdle s s.status.err.code) s.status.op
  exact ⟨hbusy, hop, hlow, hmid, hhigh, fun hidle =>
    ⟨hvalid.trans (whileIdle_of_idle hidle _), herr.trans (whileIdle_of_idle hidle _)⟩⟩

/-- Settles O49: with BUSY = 0 a register field reads as it is (`whileIdle_of_idle`), and the rest of its word is 0. -/
theorem valueRegistersWhenIdle : Obligations.ValueRegistersWhenIdle := by
  intro s hidle
  have h5 : regRead 5#3 s = nsymWord s.mapping.nsym := congrArg nsymWord (whileIdle_of_idle hidle _)
  have h7 : regRead 7#3 s = maxlenWord s.mapping.maxlen := congrArg maxlenWord (whileIdle_of_idle hidle _)
  rw [h5, h7]
  exact ⟨whileIdle_of_idle hidle _, whileIdle_of_idle hidle _, BitVec.extractLsb'_append_eq_right,
    BitVec.extractLsb'_append_eq_left, whileIdle_of_idle hidle _, BitVec.extractLsb'_append_eq_right,
    BitVec.extractLsb'_append_eq_left⟩

/-- Settles O47: registers 0 and 1 are fixed words. -/
theorem constantRegisters : Obligations.ConstantRegisters := fun _ => ⟨rfl, rfl⟩

/-- Settles O50: a read while BUSY = 1 counts one draw, and any other read changes nothing at all. -/
theorem registerReadHasNoSideEffect : Obligations.RegisterReadHasNoSideEffect := by
  intro s n
  refine ⟨rfl, ?_⟩
  cases hbusy : s.status.busy <;> simp [State.hostRead, State.draw, hbusy]

/-- The count of draws, all that reset leaves of the state before (log 16), is shown by no register while BUSY = 0. -/
theorem regRead_assertReset (n : BitVec 3) (s : State) : regRead n s.assertReset = regRead n State.reset := by
  have hidle : s.assertReset.status.busy = false := rfl
  have hidle' : State.reset.status.busy = false := rfl
  simp only [regRead, whileIdle_of_idle hidle, whileIdle_of_idle hidle']
  rfl

/-- Settles O51: reset puts the same state in place of any other, but for the count of draws (`regRead_assertReset`). -/
theorem resetLeaves : Obligations.ResetLeaves := fun s =>
  ⟨rfl, rfl, rfl, rfl, rfl, rfl, rfl, fwdLookup_empty, revLookup_empty, by
    simp only [regRead_assertReset]
    decide⟩

end Sys2Proof.Machine
end

section
/-! PROOFS. The family 20_memory.md: a command that waits for input goes on as if all its beats had been in IN from the
start (R63, R263). -/

namespace Sys2Proof.Machine

/-! ### An input loop in two parts -/

/-- Beats without an end-of-sequence beat are a first part of the loop, which goes on behind them (R63). -/
theorem runFrame_append (body : Byte → State → State) {bs : List Beat} (more : List Beat) (s : State)
    (h : takeFrame bs = none) :
    runFrame body (bs ++ more) s = runFrame body more ((bs.map Beat.data).foldl (fun t d => body d t) s) := by
  have key : ∀ (items : List Byte) (t : State),
      runFrame body (items.map itemBeat ++ more) t = runFrame body more (items.foldl (fun t d => body d t) t) := by
    intro items
    induction items with
    | nil => exact fun t => rfl
    | cons d items ih => exact fun t => ih (body d t)
  rw [eq_of_takeFrame_none h, key]
  simp [itemBeat, Function.comp_def]

/-- What lets a command wait in the middle of its input loop: its items do not look at IN, and they change neither
the mapping, whose VALID says which loop goes on, nor the status state (R21). -/
structure CanWait (body : Byte → State → State) : Prop where
  setInp : ∀ d s bs, body d (s.setInp bs) = (body d s).setInp bs
  mapping : ∀ d s, (body d s).mapping = s.mapping
  status : ∀ d s, (body d s).status = s.status

theorem canWait_buildItem : CanWait buildItem := ⟨buildItem_setInp, fun _ _ => rfl, fun _ _ => rfl⟩

theorem canWait_encodeItem : CanWait encodeItem where
  setInp := encodeItem_setInp
  mapping d s := by obtain ⟨-, -, hmapping, -⟩ := encodeItem_frame d s; exact hmapping
  status d s := (encodeItem_pushesItemsOnly d s).status

theorem canWait_decodeItem : CanWait decodeItem where
  setInp := decodeItem_setInp
  mapping d s := by obtain ⟨-, -, hmapping, -⟩ := decodeItem_frame d s; exact hmapping
  status d s := (decodeItem_pushesItemsOnly d s).status

theorem canWait_ignoreItem : CanWait ignoreItem := ⟨fun _ _ _ => rfl, fun _ _ => rfl, fun _ _ => rfl⟩

/-- The beats to run over are an argument of the loop: what IN holds meanwhile does not matter. -/
theorem CanWait.runFrame_setInp {body : Byte → State → State} (hbody : CanWait body) (bs cs : List Beat) (s : State) :
    runFrame body bs (s.setInp cs) = runFrame body bs s := by
  induction bs generalizing s with
  | nil => rfl
  | cons b bs ih =>
    cases heos : b.eos with
    | true => simp only [runFrame, heos, if_true]; rfl
    | false => simp only [runFrame, heos, Bool.false_eq_true, if_false, hbody.setInp, ih]

/-! ### A wait that changes no value -/

/-- Run from `s`, a command waits in `t` with IN empty, and whatever the host pushes then, it goes on from `t` to the
outcome it would have had from `s` with those beats in IN too (R63, R263). -/
structure WaitsIn (run : State → Host.Outcome State Fault Refusal) (s t : State) : Prop where
  outcome : run s = .next t
  inp : t.inp = []
  mapping : t.mapping = s.mapping
  status : t.status = s.status
  goesOn : ∀ more, run (t.pushIn more) = run (s.pushIn more)

/-- The input loop over an incomplete frame: the first part of the items is run before the wait, the rest after it. -/
theorem CanWait.overFrame_waitsIn {body : Byte → State → State} (hbody : CanWait body) (finish : State → State)
    {s : State} (h : takeFrame s.inp = none) : ∃ t, WaitsIn (overFrame body finish) s t := by
  refine ⟨_, overFrame_incomplete body finish h, rfl, foldl_preserves State.mapping hbody.mapping _ s,
    foldl_preserves State.status hbody.status _ s, fun more => ?_⟩
  simp only [overFrame, State.pushIn, State.setInp_inp, List.nil_append, hbody.runFrame_setInp,
    runFrame_append body more s h]

/-- The mapping decides which loop a command runs, and a wait leaves the mapping as it is. -/
theorem WaitsIn.congr {run run' : State → Host.Outcome State Fault Refusal} {s t : State} (h : WaitsIn run s t)
    (hrun : ∀ v : State, v.mapping = s.mapping → run' v = run v) : WaitsIn run' s t where
  outcome := (hrun s rfl).trans h.outcome
  inp := h.inp
  mapping := h.mapping
  status := h.status
  goesOn more := by rw [hrun (t.pushIn more) h.mapping, hrun (s.pushIn more) rfl, h.goesOn]

theorem continueBuild_waitsIn {s : State} (h : takeFrame s.inp = none) : ∃ t, WaitsIn continueBuild s t :=
  canWait_buildItem.overFrame_waitsIn finishBuild h

/-- ENCODE and DECODE run their items with a mapping and drain IN without one (R172, R187), before a wait and after it. -/
theorem CanWait.waitsIn_of_valid {body : Byte → State → State} (hbody : CanWait body) (finish : State → State)
    {run : State → Host.Outcome State Fault Refusal} {s : State} (h : takeFrame s.inp = none)
    (hrun : ∀ v : State, run v =
      if v.mapping.valid then overFrame body finish v else overFrame ignoreItem refuseEmpty v) :
    ∃ t, WaitsIn run s t := by
  cases hvalid : s.mapping.valid with
  | true =>
    obtain ⟨t, ht⟩ := hbody.overFrame_waitsIn finish h
    exact ⟨t, ht.congr fun v hv => by simp [hrun, hv, hvalid]⟩
  | false =>
    obtain ⟨t, ht⟩ := canWait_ignoreItem.overFrame_waitsIn refuseEmpty h
    exact ⟨t, ht.congr fun v hv => by simp [hrun, hv, hvalid]⟩

theorem continueEncode_waitsIn {s : State} (h : takeFrame s.inp = none) : ∃ t, WaitsIn continueEncode s t :=
  canWait_encodeItem.waitsIn_of_valid finishEncode h fun _ => rfl

theorem continueDecode_waitsIn {s : State} (h : takeFrame s.inp = none) : ∃ t, WaitsIn continueDecode s t :=
  canWait_decodeItem.waitsIn_of_valid finishDecode h fun _ => rfl

/-! ### Commands and steps in two parts -/

theorem startEncode_pushIn (s : State) (bs : List Beat) : startEncode (s.pushIn bs) = (startEncode s).pushIn bs := by
  rw [startEncode, startEncode, apply_ite (State.pushIn bs)]
  rfl

theorem startDecode_pushIn (s : State) (bs : List Beat) : startDecode (s.pushIn bs) = (startDecode s).pushIn bs := by
  rw [startDecode, startDecode, apply_ite (State.pushIn bs)]
  rfl

/-- A command waits where its input loop does: what it writes at its start is neither IN nor the status state, and OP
says which loop goes on (R21). -/
theorem WaitsIn.exec_goesOn {i : Instr} {run : State → Host.Outcome State Fault Refusal} {s u t : State}
    (h : WaitsIn run u t) (hop : s.status.op = instrOpc i) (hstatus : u.status = s.status)
    (hstart : exec i s = run u) (hpush : ∀ more, exec i (s.pushIn more) = run (u.pushIn more))
    (hcont : ∀ {v : State}, v.status.op = instrOpc i → continueCommand v = run v) :
    exec i s = .next t ∧ t.inp = [] ∧ t.status = s.status ∧
      ∀ more, continueCommand (t.pushIn more) = exec i (s.pushIn more) := by
  have ht : t.status = s.status := h.status.trans hstatus
  refine ⟨hstart.trans h.outcome, h.inp, ht, fun more => ?_⟩
  have hopt : (t.pushIn more).status.op = instrOpc i := (congrArg Status.op ht).trans hop
  rw [hcont hopt, h.goesOn, hpush]

/-- BUILD, ENCODE and DECODE over an incomplete frame wait, and going on with them is running them once over all the
beats. -/
theorem exec_goesOn {i : Instr} {s : State} (hi : i ≠ .codes) (hop : s.status.op = instrOpc i)
    (h : takeFrame s.inp = none) :
    ∃ t, exec i s = .next t ∧ t.inp = [] ∧ t.status = s.status ∧
      ∀ more, continueCommand (t.pushIn more) = exec i (s.pushIn more) := by
  cases i with
  | build =>
    obtain ⟨t, ht⟩ := continueBuild_waitsIn (s := startBuild s) h
    exact ⟨t, ht.exec_goesOn hop rfl rfl (fun _ => rfl) continueCommand_of_build⟩
  | encode =>
    obtain ⟨e, he⟩ := startEncode_eq s
    obtain ⟨t, ht⟩ := continueEncode_waitsIn (s := startEncode s) (by rw [he]; exact h)
    exact ⟨t, ht.exec_goesOn hop (by rw [he]; rfl) rfl (fun more => congrArg continueEncode (startEncode_pushIn s more))
      continueCommand_of_encode⟩
  | decode =>
    obtain ⟨e, he⟩ := startDecode_eq s
    obtain ⟨t, ht⟩ := continueDecode_waitsIn (s := startDecode s) (by rw [he]; exact h)
    exact ⟨t, ht.exec_goesOn hop (by rw [he]; rfl) rfl (fun more => congrArg continueDecode (startDecode_pushIn s more))
      continueCommand_of_decode⟩
  | codes => exact absurd rfl hi

/-- Settles O12: the word taken leaves its command in OP, and that command goes on after the wait as if all its beats had
been there when it was taken (`exec_goesOn`). -/
theorem waitingChangesNoValue : Obligations.WaitingChangesNoValue := by
  intro s w rest i more hidle hcmd hdecode hi hframe hmore
  have hop : (s.acceptWord w rest).status.op = instrOpc i :=
    (opcodeInstr_eq_some_iff _ i).mp ((decode_eq_ok_iff w i).mp hdecode).2
  obtain ⟨t, hexec, hinp, hstatus, hgoesOn⟩ := exec_goesOn hi hop hframe
  have htaken : step s = .next t := by rw [step_of_word hidle hcmd, runWord_of_ok hdecode, hexec]
  have hbusy : t.status.busy = true := congrArg Status.busy hstatus
  have hpushed : (t.pushIn more).inp ≠ [] := by simpa [State.pushIn, hinp] using hmore
  refine ⟨t, htaken, hbusy, hinp, ?_⟩
  calc step (t.pushIn more) = continueCommand (t.pushIn more) := step_of_busy hbusy hpushed
    _ = exec i ((s.acceptWord w rest).pushIn more) := hgoesOn more
    _ = runWord w ((s.pushIn more).acceptWord w rest) := (runWord_of_ok hdecode _).symm
    _ = step (s.pushIn more) := (step_of_word (s := s.pushIn more) hidle hcmd).symm

end Sys2Proof.Machine
end

section
/-! PROOFS. The family 30_encoding.md: the decoder against the words of R81 and against the table (R80 to R83), the nine
bits of a beat (R85, R86), an illegal word (R83), and the end of a command over a complete frame (R87, R88, R94). -/

namespace Sys2Proof.Machine

/-! ### Command words -/

/-- A word is its RSVD bits above its OPC bits (R80). -/
theorem wordRsvd_append_wordOpc (w : CmdWord) : wordRsvd w ++ wordOpc w = w := BitVec.extractLsb'_append_extractLsb'

theorem eq_encode_iff (w : CmdWord) (i : Instr) : w = encode i ↔ wordRsvd w = 0#24 ∧ wordOpc w = instrOpc i := by
  refine ⟨?_, fun ⟨hrsvd, hopc⟩ => ?_⟩
  · rintro rfl
    cases i <;> decide
  · rw [← wordRsvd_append_wordOpc w, hrsvd, hopc, encode]

/-- The decoder matches the whole word (R81). -/
theorem decode_eq_ok_iff_eq_encode (w : CmdWord) (i : Instr) : decode w = .ok i ↔ w = encode i := by
  rw [decode_eq_ok_iff, opcodeInstr_eq_some_iff, eq_encode_iff]

@[simp] theorem decode_encode (i : Instr) : decode (encode i) = .ok i := (decode_eq_ok_iff_eq_encode _ i).mpr rfl

theorem exists_decode_eq_error {w : CmdWord} (h : ∀ i, w ≠ encode i) : ∃ e, decode w = .error e := by
  cases hd : decode w with
  | ok i => exact absurd ((decode_eq_ok_iff_eq_encode w i).mp hd) (h i)
  | error e => exact ⟨e, rfl⟩

/-- Settles O1: the four words by value, and the decoder on any word (`decode_eq_ok_iff_eq_encode`). -/
theorem decodeMatchesWholeWord : Obligations.DecodeMatchesWholeWord :=
  ⟨rfl, rfl, rfl, rfl, decode_eq_ok_iff_eq_encode, fun _ h => exists_decode_eq_error h⟩

/-! ### The mask-and-match table -/

/-- The rows of the table mask the whole word and match the word of their command (R81). -/
theorem mask_value_of_mem_opcodeTable {r : OpcodeRow} (h : r ∈ opcodeTable) :
    r.mask = BitVec.allOnes 32 ∧ r.value = encode r.instr := by
  revert r
  decide

theorem exists_row_of_instr (i : Instr) : ∃ r ∈ opcodeTable, r.instr = i := by cases i <;> decide

theorem matches_row_iff {r : OpcodeRow} (h : r ∈ opcodeTable) (w : CmdWord) :
    w &&& r.mask = r.value ↔ w = encode r.instr := by
  obtain ⟨hmask, hvalue⟩ := mask_value_of_mem_opcodeTable h
  rw [hmask, hvalue, BitVec.and_allOnes]

theorem eq_encode_of_lookupRow_eq_some {w : CmdWord} {r : OpcodeRow} (h : lookupRow w = some r) : w = encode r.instr :=
  (matches_row_iff (List.mem_of_find?_eq_some h) w).mp (by simpa using List.find?_some h)

theorem ne_encode_of_lookupRow_eq_none {w : CmdWord} (h : lookupRow w = none) (i : Instr) : w ≠ encode i := by
  obtain ⟨r, hr, rfl⟩ := exists_row_of_instr i
  have hno := List.find?_eq_none.mp h r hr
  rwa [decide_eq_true_eq, matches_row_iff hr] at hno

/-- Settles O2: a word that matches a row is the word of that row's command, and a word that matches none is the word of
no command, so that the decoder refuses it. -/
theorem decodeAgreesWithOpcodeTable : Obligations.DecodeAgreesWithOpcodeTable := by
  intro w
  cases hrow : lookupRow w with
  | some r =>
    rw [eq_encode_of_lookupRow_eq_some hrow, decode_encode]
    rfl
  | none =>
    obtain ⟨e, he⟩ := exists_decode_eq_error (ne_encode_of_lookupRow_eq_none hrow)
    rw [he]
    rfl

/-! ### Why a word is illegal -/

/-- The two branches in which the decoder refuses a word (R82). -/
theorem decode_eq_error_iff (w : CmdWord) (e : IllegalWord) : decode w = .error e ↔
    (wordRsvd w ≠ 0#24 ∧ e = .reservedBitsSet) ∨
    (wordRsvd w = 0#24 ∧ opcodeInstr (wordOpc w) = none ∧ e = .unknownOpcode) := by
  unfold decode
  by_cases h : wordRsvd w = 0#24
  · cases ho : opcodeInstr (wordOpc w) <;> simp [h, eq_comm]
  · simp [h, eq_comm]

theorem decode_eq_reservedBitsSet_iff (w : CmdWord) : decode w = .error .reservedBitsSet ↔ wordRsvd w ≠ 0#24 := by
  simp [decode_eq_error_iff]

theorem decode_eq_unknownOpcode_iff (w : CmdWord) :
    decode w = .error .unknownOpcode ↔ wordRsvd w = 0#24 ∧ opcodeInstr (wordOpc w) = none := by
  simp [decode_eq_error_iff]

theorem opcodeInstr_eq_none_iff (b : BitVec 8) : opcodeInstr b = none ↔ b ≠ 1#8 ∧ b ≠ 2#8 ∧ b ≠ 3#8 ∧ b ≠ 4#8 := by
  simp only [Option.eq_none_iff_forall_ne_some, ne_eq, opcodeInstr_eq_some_iff]
  exact ⟨fun h => ⟨h .build, h .encode, h .decode, h .codes⟩, fun ⟨h1, h2, h3, h4⟩ i => by cases i <;> assumption⟩

/-- Settles O3: the two branches of the decoder, the second with the operation codes that name no command. -/
theorem illegalWordSaysWhy : Obligations.IllegalWordSaysWhy := fun w =>
  ⟨decode_eq_reservedBitsSet_iff w,
    (decode_eq_unknownOpcode_iff w).trans (and_congr_right' (opcodeInstr_eq_none_iff _))⟩

/-- Settles O4: the first four words are those of the commands, and each illegal word has its fault in plain sight. -/
theorem sampleWordsDecode : Obligations.SampleWordsDecode :=
  ⟨decode_encode .build, decode_encode .encode, decode_encode .decode, decode_encode .codes,
    (decode_eq_reservedBitsSet_iff _).mpr (by decide), (decode_eq_unknownOpcode_iff _).mpr (by decide)⟩

/-! ### The bits of a beat -/

theorem getLsbD_toBits (b : Beat) : b.toBits.getLsbD 8 = b.eos :=
  (getLsbD_append_skip (BitVec.ofBool b.eos) b.data 0).trans (by simp)

theorem extractLsb'_toBits (b : Beat) : b.toBits.extractLsb' 0 8 = b.data := BitVec.extractLsb'_append_eq_right

theorem ofBits_toBits (b : Beat) : Beat.ofBits b.toBits = b := by
  rw [Beat.ofBits, getLsbD_toBits, extractLsb'_toBits]

theorem ofBool_getLsbD {n : Nat} (v : BitVec n) (i : Nat) : BitVec.ofBool (v.getLsbD i) = v.extractLsb' i 1 := by
  ext j hj
  obtain rfl : j = 0 := by omega
  simp

theorem toBits_ofBits (v : BitVec 9) : (Beat.ofBits v).toBits = v := by
  rw [Beat.ofBits, Beat.toBits, ofBool_getLsbD]
  exact BitVec.extractLsb'_append_extractLsb'

/-- Settles O5: each field read off the bits, and the bits put together again from the fields. -/
theorem beatIsNineBits : Obligations.BeatIsNineBits :=
  ⟨fun b => ⟨getLsbD_toBits b, extractLsb'_toBits b, ofBits_toBits b⟩, toBits_ofBits⟩

/-! ### An illegal word -/

/-- Settles O8: the word is popped, the decoder refuses it, and what the step writes is the raise (R224). -/
theorem illegalWordRaises : Obligations.IllegalWordRaises := by
  intro s w rest hidle hcmd hillegal
  obtain ⟨e, he⟩ := exists_decode_eq_error hillegal
  rw [step_of_word hidle hcmd, runWord_of_error he]
  rfl

/-! ### The end of a command -/

/-- A command has ended: IN holds `rest`, BUSY is 0, and items and then the response that ERR tells have been
pushed (R87). -/
structure Ended (rest : List Beat) (s t : State) : Prop where
  cmd : t.cmd = s.cmd
  inp : t.inp = rest
  busy : t.status.busy = false
  out : ∃ items : List Byte, t.out = s.out ++ items.map itemBeat ++ [responseBeat t.status.err]

theorem PushesItemsOnly.ended {s u t : State} (h : PushesItemsOnly s u) (hend : Responds u t) : Ended u.inp s t := by
  obtain ⟨items, hout⟩ := h.out
  exact ⟨hend.cmd.trans h.cmd, hend.inp, hend.busy, items, hout ▸ hend.out⟩

/-- A command whose start `u` and item body only push items, over a complete frame: the frame is popped and the command
ends (R88). -/
theorem overFrame_ends {body : Byte → State → State} {finish : State → State} {s u : State} {items : List Byte}
    {rest : List Beat} (hstart : PushesItemsOnly s u) (hbody : ∀ d v, PushesItemsOnly v (body d v))
    (hfinish : ∀ v, Responds v (finish v)) (h : takeFrame u.inp = some (items, rest)) :
    ∃ t, overFrame body finish u = .next t ∧ Ended rest s t :=
  have hpopped : PushesItemsOnly s ((items.foldl (fun v d => body d v) u).setInp rest) :=
    hstart.trans ((foldl_pushesItemsOnly hbody items u).trans (.of_eq rfl rfl rfl))
  ⟨_, overFrame_complete body finish h, hpopped.ended (hfinish _)⟩

/-- ENCODE and DECODE without a mapping, over a complete frame (R172, R187). -/
theorem refuse_ends {s : State} {items : List Byte} {rest : List Beat} (h : takeFrame s.inp = some (items, rest)) :
    ∃ t, overFrame ignoreItem refuseEmpty s = .next t ∧ Ended rest s t :=
  overFrame_ends (.of_eq rfl rfl rfl) ignoreItem_pushesItemsOnly (fun v => responds_raise v _ _ _) h

/-- BUILD, ENCODE and DECODE over a complete frame, with a mapping or without one. -/
theorem exec_ends {i : Instr} {s : State} {items : List Byte} {rest : List Beat} (hi : i ≠ .codes)
    (h : takeFrame s.inp = some (items, rest)) : ∃ t, exec i s = .next t ∧ Ended rest s t := by
  cases i with
  | build =>
    exact overFrame_ends (u := startBuild s) (.of_eq rfl rfl rfl) buildItem_pushesItemsOnly responds_finishBuild h
  | encode =>
    cases hv : s.mapping.valid with
    | true =>
      rw [execEncode_valid hv]
      exact overFrame_ends (.of_eq rfl rfl rfl) encodeItem_pushesItemsOnly responds_finishEncode h
    | false =>
      rw [execEncode_invalid hv]
      exact refuse_ends h
  | decode =>
    cases hv : s.mapping.valid with
    | true =>
      rw [execDecode_valid hv]
      exact overFrame_ends (.of_eq rfl rfl rfl) decodeItem_pushesItemsOnly responds_finishDecode h
    | false =>
      rw [execDecode_invalid hv]
      exact refuse_ends h
  | codes => exact absurd rfl hi

/-- CODES pops nothing from IN and ends at once (R205). -/
theorem execCodes_ends (s : State) : ∃ t, exec .codes s = .next t ∧ Ended s.inp s t :=
  ⟨_, rfl, rfl, rfl, rfl, codesItems s.mapping, rfl⟩

/-- An illegal word pops nothing from IN and ends at once (R83). -/
theorem raise_ended (c : ResultCode) (info pos : RegWord) (s : State) : Ended s.inp s (s.raise c info pos) :=
  (PushesItemsOnly.of_eq rfl rfl rfl).ended (responds_raise s c info pos)

/-- Settles O13: every command but CODES ends over a complete frame (`exec_ends`). -/
theorem frameCommandEndsWithResponse : Obligations.FrameCommandEndsWithResponse := by
  intro i s items rest hi h
  obtain ⟨t, hexec, hended⟩ := exec_ends hi h
  obtain ⟨pushed, hout⟩ := hended.out
  exact ⟨t, pushed, t.status.err, hexec, hended.inp, hended.busy, rfl, hout⟩

/-! ### Script lines -/

/-- A word that brings no frame and needs none, over an empty IN: CODES, or an illegal word (R83, R94). -/
theorem runWord_ends_of_takes_no_frame {w : CmdWord} (hbuild : w ≠ encode .build) (hencode : w ≠ encode .encode)
    (hdecode : w ≠ encode .decode) {s : State} (hinp : s.inp = []) : ∃ t, runWord w s = .next t ∧ Ended [] s t := by
  rw [← hinp]
  by_cases hcodes : w = encode .codes
  · rw [runWord_of_ok ((decode_eq_ok_iff_eq_encode w .codes).mpr hcodes)]
    exact execCodes_ends s
  · obtain ⟨e, he⟩ := exists_decode_eq_error (w := w) fun i => by cases i <;> assumption
    exact ⟨_, runWord_of_error he s, raise_ended _ _ _ s⟩

/-- A command that takes a frame, over an IN that holds exactly one (R88, R94). -/
theorem runWord_ends_of_frame {i : Instr} (hi : i ≠ .codes) (items : List Byte) {s : State}
    (hinp : s.inp = frame items) : ∃ t, runWord (encode i) s = .next t ∧ Ended [] s t := by
  rw [runWord_of_ok (decode_encode i)]
  exact exec_ends hi (items := items) (by rw [hinp, ← takeFrame_frame items [], List.append_nil])

/-- A script line over the beats it brings ends, and no beat of them is left (R94). -/
theorem runWord_ends_of_line {l : ScriptLine}
    (hraw : ∀ w, l = .word w → w ≠ encode .build ∧ w ≠ encode .encode ∧ w ≠ encode .decode) {s : State}
    (hinp : s.inp = l.beats) : ∃ t, runWord l.cmdWord s = .next t ∧ Ended [] s t := by
  cases l with
  | build items => exact runWord_ends_of_frame (by decide) items hinp
  | encode items => exact runWord_ends_of_frame (by decide) items hinp
  | decode items => exact runWord_ends_of_frame (by decide) items hinp
  | codes => exact runWord_ends_of_takes_no_frame (by decide) (by decide) (by decide) hinp
  | word w =>
    obtain ⟨hbuild, hencode, hdecode⟩ := hraw w rfl
    exact runWord_ends_of_takes_no_frame hbuild hencode hdecode hinp

/-- Settles O17: the step pops the line's word, and over the line's beats that word's command ends
(`runWord_ends_of_line`). -/
theorem scriptLineIsOneStep : Obligations.ScriptLineIsOneStep := by
  intro s l hidle hcmd hinp hraw
  have hword : (s.pushLine l).cmd = [l.cmdWord] := congrArg (· ++ [l.cmdWord]) hcmd
  have hbeats : ((s.pushLine l).acceptWord l.cmdWord []).inp = l.beats := congrArg (· ++ l.beats) hinp
  obtain ⟨t, hrun, hended⟩ := runWord_ends_of_line hraw hbeats
  obtain ⟨items, hout⟩ := hended.out
  exact ⟨t, items, (step_of_word (s := s.pushLine l) hidle hword).trans hrun, hended.cmd, hended.inp, hended.busy, hout⟩

end Sys2Proof.Machine
end

section
/-! PROOFS. The family 40_build.md: the Frequency Counter (R112, R113), and what BUILD leaves over an empty frame, over one
that is too long and over one that fits (R110, R114 to R118). -/

namespace Sys2Proof.Machine

/-! ### The Frequency Counter -/

/-- The count of a symbol is exact: no sequence that fits holds it more often than FREQ can say (R140). -/
theorem Counted.toNat_freq {items : List Symbol} {x : Scratch} (h : Counted items x) (hlen : items.length ≤ Config.nMax)
    {a : Symbol} (ha : a ∈ items) : (x.freq.get (symIdx a)).toNat = items.count a := by
  have hcount : items.count a ≤ items.length := List.count_le_length
  simp only [Config.nMax] at hlen
  rw [h.freq a ha, BitVec.toNat_ofNat, Nat.mod_eq_of_lt (by omega)]

/-- Settles O26: what a count holds (`countFrequencies_counted`), with FREQ read as a number. -/
theorem frequencyCounterCounts : Obligations.FrequencyCounterCounts := by
  intro items x hlen
  have h := countFrequencies_counted x hlen
  exact ⟨h.ovf, h.cnt, h.k, h.order, h.seen, fun _ ha => h.toNat_freq hlen ha⟩

/-- Settles O27: up to N_MAX items are counted, and the next one sets OVF for good (`countFrequencies_ovf_iff`). -/
theorem counterOverrunsExactlyBeyondCapacity : Obligations.CounterOverrunsExactlyBeyondCapacity :=
  countFrequencies_ovf_iff

/-! ### The mapping of an input -/

/-- The mapping a BUILD of this input ends with: that of its Huffman tree, the empty one without a tree or beyond N_MAX
items (R114 to R116). -/
def inputMapping (items : List Symbol) : Mapping :=
  if items.length ≤ Config.nMax then ((huffTree items).map treeMapping).getD Mapping.empty else Mapping.empty

theorem inputMapping_of_tooLong {items : List Symbol} (h : Config.nMax < items.length) :
    inputMapping items = Mapping.empty := if_neg (Nat.not_le_of_lt h)

theorem inputMapping_nil : inputMapping [] = Mapping.empty := rfl

theorem inputMapping_of_huffTree {items : List Symbol} {t : HuffTree} (hlen : items.length ≤ Config.nMax)
    (h : huffTree items = some t) : inputMapping items = treeMapping t := by
  rw [inputMapping, if_pos hlen, h]
  rfl

theorem isSome_fwdLookup_treeMapping {t : HuffTree} (h : t.symbols.Nodup) (x : Symbol) :
    (fwdLookup (treeMapping t) x).isSome = true ↔ x ∈ t.symbols := by
  rw [(assigned_treeMapping h).isSome_iff, t.map_fst_codes]

/-- What an input that fits maps (R116): exactly its symbols, by a mapping that meets R32. -/
structure MapsInput (items : List Symbol) (m : Mapping) : Prop where
  ok : MappingOk m
  valid : m.valid = true
  present : ∀ x, (fwdLookup m x).isSome = true ↔ x ∈ items
  total : m.total.toNat = items.length

theorem mapsInput_treeMapping {items : List Symbol} {t : HuffTree} (hlen : items.length ≤ Config.nMax)
    (hsymbols : t.symbols.Perm (distinctSymbols items)) (hweight : t.weight = items.length) :
    MapsInput items (treeMapping t) := by
  have hnodup : t.symbols.Nodup := hsymbols.nodup_iff.mpr (nodup_distinctSymbols items)
  refine ⟨mappingOk_treeMapping hnodup, rfl, fun x => ?_, ?_⟩
  · rw [isSome_fwdLookup_treeMapping hnodup, hsymbols.mem_iff, mem_distinctSymbols]
  · simp only [Config.nMax] at hlen
    rw [treeMapping, hweight, BitVec.toNat_ofNat, Nat.mod_eq_of_lt (by omega)]

/-- The mapping of an input is empty, or maps exactly the input's symbols. -/
theorem inputMapping_cases (items : List Symbol) :
    inputMapping items = Mapping.empty ∨ MapsInput items (inputMapping items) := by
  by_cases hlen : items.length ≤ Config.nMax
  · by_cases hne : items = []
    · exact .inl (hne ▸ inputMapping_nil)
    · obtain ⟨r, htree, -, -, hsymbols, hweight⟩ := huffTree_eq_some hne
      exact .inr (inputMapping_of_huffTree hlen htree ▸ mapsInput_treeMapping hlen hsymbols hweight)
  · exact .inl (inputMapping_of_tooLong (Nat.lt_of_not_le hlen))

/-- A mapping of an input that is not valid is the empty one (R114, R115). -/
theorem inputMapping_eq_empty_of_invalid {items : List Symbol} (h : (inputMapping items).valid = false) :
    inputMapping items = Mapping.empty := by
  obtain hempty | hm := inputMapping_cases items
  · exact hempty
  · exact absurd hm.valid (by simp [h])

/-- The mapping of an input maps no other symbol, forwards or backwards. -/
theorem mem_of_inputMapping (items : List Symbol) (x : Symbol) :
    ((fwdLookup (inputMapping items) x).isSome = true → x ∈ items) ∧
    ∀ c, revLookup (inputMapping items) c = some x → x ∈ items := by
  obtain hempty | hm := inputMapping_cases items
  · simp [hempty]
  · refine ⟨(hm.present x).mp, fun c hc => (hm.present x).mp ?_⟩
    rw [(hm.ok.inverse x c).mp hc]
    rfl

/-- NSYM is the number of distinct symbols (R33, R116). -/
theorem MapsInput.nsym {items : List Symbol} {m : Mapping} (h : MapsInput items m) :
    m.nsym.toNat = (distinctSymbols items).length := by
  rw [h.ok.nsymCounts, length_presentSymbols (nodup_distinctSymbols items) fun x => ?_]
  rw [mem_distinctSymbols, h.present]

/-- A mapping that is not empty has a code, and no code is empty (R32). -/
theorem MappingOk.one_le_maxlen {m : Mapping} (h : MappingOk m) (hvalid : m.valid = true) : 1 ≤ m.maxlen.toNat := by
  obtain ⟨x, c, hc, hlen⟩ := h.maxlenReached hvalid
  have hne : c.len ≠ 0#8 := ((wellFormed_iff c).mp (h.codesWellFormed x c hc)).1
  rw [hlen] at hne
  bv_omega

/-! ### BUILD over a complete frame -/

/-- BUILD when it has popped and counted its whole frame: the mapping is still cleared (R111, R113). -/
def afterCount (items : List Byte) (rest : List Beat) (s : State) : State :=
  ((s.setMapping Mapping.empty).setScratch (countFrequencies items s.scratch)).setInp rest

section

variable {s : State} {items : List Byte} {rest : List Beat}

theorem execBuild_afterCount (h : takeFrame s.inp = some (items, rest)) :
    exec .build s = .next (finishBuild (afterCount items rest s)) := execBuild_complete h

theorem execBuild_of_tooLong (h : takeFrame s.inp = some (items, rest)) (hlong : Config.nMax < items.length) :
    exec .build s = .next ((afterCount items rest s).raise .capacity 0#32 0#32).forgetScratch := by
  have hovf : (afterCount items rest s).scratch.ovf = true := (countFrequencies_ovf_iff items s.scratch).mpr hlong
  rw [execBuild_afterCount h, finishBuild_of_ovf hovf]

theorem execBuild_of_nil (h : takeFrame s.inp = some ([], rest)) :
    exec .build s = .next ((afterCount [] rest s).raise .emptyInput 0#32 0#32).forgetScratch := by
  rw [execBuild_afterCount h, finishBuild_of_cnt_eq_zero rfl rfl]

/-- BUILD of 1 to N_MAX items commits the mapping of its input (R116). -/
theorem execBuild_of_fits (h : takeFrame s.inp = some (items, rest)) (hne : items ≠ [])
    (hlen : items.length ≤ Config.nMax) :
    ∃ x, MapsInput items (inputMapping items) ∧ exec .build s =
      .next (((afterCount items rest s).setScratch x).setMapping (inputMapping items)).respondOk.forgetScratch := by
  have hc : Counted items (afterCount items rest s).scratch := countFrequencies_counted s.scratch hlen
  obtain ⟨t, x, htree, hsymbols, hweight, hbuild⟩ := buildMapping_counted hc rfl hne hlen
  rw [inputMapping_of_huffTree hlen htree]
  refine ⟨x, mapsInput_treeMapping hlen hsymbols hweight, ?_⟩
  rw [execBuild_afterCount h, finishBuild_of_cnt_ne_zero hc.ovf (mt hc.cnt_eq_zero_iff.mp hne), hbuild]

/-- However BUILD ends over a frame, its mapping is that of the frame's items (R118). -/
theorem execBuild_mapping (h : takeFrame s.inp = some (items, rest)) {t : State} (hexec : exec .build s = .next t) :
    t.mapping = inputMapping items := by
  have of_next : ∀ u : State, exec .build s = .next u → t.mapping = u.mapping := fun u hu =>
    congrArg State.mapping (Host.Outcome.next.inj (hexec.symm.trans hu))
  by_cases hlen : items.length ≤ Config.nMax
  · by_cases hne : items = []
    · subst hne
      exact of_next _ (execBuild_of_nil h)
    · obtain ⟨x, -, hnext⟩ := execBuild_of_fits h hne hlen
      exact of_next _ hnext
  · have hlong := Nat.lt_of_not_le hlen
    rw [inputMapping_of_tooLong hlong]
    exact of_next _ (execBuild_of_tooLong h hlong)

theorem execBuild_waits_mapping (h : takeFrame s.inp = none) {t : State} (hexec : exec .build s = .next t) :
    t.mapping = Mapping.empty :=
  congrArg State.mapping (Host.Outcome.next.inj (hexec.symm.trans (execBuild_incomplete h)))

end

/-- Settles O18: nothing has been counted when the end-of-sequence beat comes (`execBuild_of_nil`). -/
theorem buildEmptyInput : Obligations.BuildEmptyInput := fun _ _ h =>
  ⟨_, execBuild_of_nil h, rfl, rfl, rfl, rfl, rfl, rfl⟩

/-- Settles O19: the count is overrun, and the mapping stays as BUILD's start has cleared it (`execBuild_of_tooLong`). -/
theorem buildTooLong : Obligations.BuildTooLong := fun _ _ _ h hlong =>
  ⟨_, execBuild_of_tooLong h hlong, rfl, rfl, rfl, rfl, rfl, rfl⟩

/-- Settles O20: BUILD commits the mapping of its input (`execBuild_of_fits`), and the values are read off what that
mapping maps. -/
theorem buildSucceeds : Obligations.BuildSucceeds := by
  intro s items rest h hne hlen
  obtain ⟨x, hm, hexec⟩ := execBuild_of_fits h hne hlen
  exact ⟨_, hexec, rfl, rfl, rfl, rfl, rfl, hm.valid, hm.nsym, hm.total, hm.present, hm.ok.one_le_maxlen hm.valid,
    Nat.le_of_lt_succ (inputMapping items).maxlen.isLt, hm.ok⟩

/-- Settles O24: both mappings are that of the items (`execBuild_mapping`). -/
theorem buildDeterministic : Obligations.BuildDeterministic := fun _ _ _ _ _ _ _ hs ht hu hv =>
  (execBuild_mapping hs hu).trans (execBuild_mapping ht hv).symm

/-! ### What BUILD leaves alone -/

/-- BUILD pushes nothing while it waits, and its response alone when it ends (R117). -/
theorem execBuild_out {s t : State} (h : exec .build s = .next t) :
    t.out = s.out ∧ t.status = s.status ∨ t.out = s.out ++ [responseBeat t.status.err] := by
  cases hf : takeFrame s.inp with
  | none =>
    rw [execBuild_incomplete hf] at h
    obtain rfl := Host.Outcome.next.inj h
    exact .inl ⟨rfl, rfl⟩
  | some p =>
    obtain ⟨items, rest⟩ := p
    rw [execBuild_complete hf] at h
    obtain rfl := Host.Outcome.next.inj h
    exact .inr (responds_finishBuild _).out

/-- Settles O25: the channels, status and engine by what BUILD's input loop does (`exec_ran`, `execBuild_out`), the mapping
by whether the frame is complete (`execBuild_waits_mapping`, `execBuild_mapping`). -/
theorem buildFrame : Obligations.BuildFrame := by
  intro s t h
  have hran := exec_ran h
  refine ⟨continueBuild_engine (s := startBuild s) h, hran.cmd, hran.op, hran.inp, execBuild_out h, fun hinvalid => ?_,
    fun hf => execBuild_waits_mapping hf h, fun items rest hf x => ?_⟩
  · cases hf : takeFrame s.inp with
    | none => exact execBuild_waits_mapping hf h
    | some p =>
      have hm : t.mapping = inputMapping p.1 := execBuild_mapping hf h
      rw [hm] at hinvalid ⊢
      exact inputMapping_eq_empty_of_invalid hinvalid
  · rw [execBuild_mapping hf h]
    exact mem_of_inputMapping items x

end Sys2Proof.Machine
end

section
/-! PROOFS. The family 41_tree_builder.md: what extract_min takes (R133), the shape of the tree the Tree Builder leaves in
NODE (R131, R135, R137, R138, R141), and the codes BUILD makes of it (R130, R150, R155). -/

namespace Sys2Proof.Machine

/-! ### extract_min (R133) -/

/-- A member of PQ is the id of a node slot (R142). -/
theorem toNat_lt_of_mem_members {x : Scratch} {i : NodeId} (h : i ∈ members x) : i.toNat < 511 :=
  (Vector.getElem?_eq_some_iff.mp (mem_members.mp h)).1

/-- Keys are distinct, so of two ids one has the lesser key (R14). -/
theorem keyLt_of_not_keyLt {x : Scratch} {a b : NodeId} (h : keyLt x a b = false) (hne : a ≠ b) :
    keyLt x b a = true := by
  rw [← Bool.not_eq_true, keyLt_iff] at h
  rw [keyLt_iff]
  have := BitVec.toNat_ne.mp hne
  omega

theorem leastMember_eq_none_iff (x : Scratch) : leastMember x = none ↔ members x = [] := by
  rw [leastMember]
  cases members x <;> simp

/-- The least member of PQ has a lesser key than every other (R133). -/
theorem leastMember_spec {x : Scratch} {m : NodeId} (h : leastMember x = some m) :
    m ∈ members x ∧ ∀ a ∈ members x, a ≠ m → keyLt x m a = true := by
  rw [leastMember] at h
  cases hm : members x with
  | nil => simp [hm] at h
  | cons first rest =>
    obtain rfl : leastOf x first rest = m := by simpa [hm] using h
    obtain ⟨hmem, hleast⟩ := leastOf_spec x first rest
    exact ⟨hmem, fun a ha hne => keyLt_of_not_keyLt (hleast a ha) hne⟩

theorem extractMin_eq_some_iff {x y : Scratch} {m : NodeId} :
    extractMin x = some (m, y) ↔ leastMember x = some m ∧ y = setInq m false x := by
  simp [extractMin, eq_comm]

/-- Settles O28: the member is the least one (`leastMember_spec`), and its INQ bit alone is cleared. -/
theorem extractMinTakesLeastKey : Obligations.ExtractMinTakesLeastKey := by
  intro x
  refine ⟨by rw [extractMin, Option.map_eq_none_iff, leastMember_eq_none_iff], fun m y h => ?_⟩
  obtain ⟨hm, rfl⟩ := extractMin_eq_some_iff.mp h
  obtain ⟨hmem, hleast⟩ := leastMember_spec hm
  refine ⟨hmem, hleast, fun a => ?_, rfl⟩
  rw [mem_members_setInq (toNat_lt_of_mem_members hmem)]
  by_cases ha : a = m <;> simp [ha]

/-! ### Nodes once written stand -/

/-- Every node of x is a node of y, and the same one. -/
def KeepsNodes (x y : Scratch) : Prop := ∀ j, j < x.nnode → j < y.nnode ∧ nodeAt y j = nodeAt x j

theorem KeepsNodes.refl (x : Scratch) : KeepsNodes x x := fun _ hj => ⟨hj, rfl⟩

theorem KeepsNodes.trans {x y z : Scratch} (hxy : KeepsNodes x y) (hyz : KeepsNodes y z) : KeepsNodes x z := fun j hj =>
  ⟨(hyz j (hxy j hj).1).1, (hyz j (hxy j hj).1).2.trans (hxy j hj).2⟩

theorem KeepsNodes.weightAt_eq {x y : Scratch} (h : KeepsNodes x y) {j : NodeId} (hj : j < x.nnode) :
    weightAt y j = weightAt x j := by rw [weightAt, (h j hj).2, weightAt]

theorem keepsNodes_insertNode {x : Scratch} (n : Node) (h : x.nnode.toNat < 511) : KeepsNodes x (insertNode n x) :=
  fun j hj => ⟨BitVec.lt_trans hj (nnode_lt_insertNode n h), by rw [nodeAt_insertNode n h, if_neg (BitVec.ne_of_lt hj)]⟩

/-! ### Leaves (R131) -/

/-- Leaf creation writes the leaf of ORDER[j] at every id j from i on. -/
theorem nodeAt_insertLeaves {n i : Nat} {x : Scratch} (hi : x.nnode.toNat = i) (hle : i + n ≤ 256) :
    KeepsNodes x (insertLeaves n i x) ∧
      ∀ j : NodeId, i ≤ j.toNat → j.toNat < i + n → nodeAt (insertLeaves n i x) j = leafAt x j.toNat := by
  induction n generalizing i x with
  | zero => exact ⟨KeepsNodes.refl x, fun j h1 h2 => by omega⟩
  | succ n ih =>
    have hx : x.nnode.toNat < 511 := by omega
    have hnnode := insertNode_nnode (leafAt x i) hx
    obtain ⟨hkeeps, hleaves⟩ := ih (x := insertNode (leafAt x i) x) (by rw [hnnode, hi]) (by omega)
    rw [insertLeaves]
    refine ⟨(keepsNodes_insertNode _ hx).trans hkeeps, fun j h1 h2 => ?_⟩
    obtain heq | hgt := Nat.eq_or_lt_of_le h1
    · have hj : j = x.nnode := BitVec.eq_of_toNat_eq (by rw [hi, heq])
      rw [(hkeeps j (hj ▸ nnode_lt_insertNode _ hx)).2, nodeAt_insertNode _ hx, if_pos hj, heq]
    · rw [hleaves j hgt (by omega), leafAt_insertNode]

/-- The leaf a count makes of its i-th distinct symbol (R131). -/
theorem Counted.leafAt_eq {items : List Symbol} {x : Scratch} (h : Counted items x) {i : Nat} {a : Symbol}
    (hget : (distinctSymbols items)[i]? = some a) : leafAt x i = .leaf a (BitVec.ofNat 32 (items.count a)) := by
  obtain ⟨hlt, -⟩ := List.getElem?_eq_some_iff.mp hget
  have horder : orderAt x i = a := by rw [orderAt, h.order i hlt, hget]; rfl
  rw [leafAt, horder, h.freq a (mem_distinctSymbols.mp (List.mem_of_getElem? hget))]

/-! ### Merged nodes (R135, R136, R141) -/

/-- NODE holds at id i an internal node over two different nodes of smaller ids, and its weight is the exact sum of
theirs. -/
def MergedAt (x : Scratch) (i : NodeId) : Prop :=
  ∃ w l r, nodeAt x i = .internal w l r ∧ l < i ∧ r < i ∧ l ≠ r ∧
    w.toNat = (weightAt x l).toNat + (weightAt x r).toNat

theorem MergedAt.mono {x y : Scratch} (hxy : KeepsNodes x y) {i : NodeId} (hi : i < x.nnode) (h : MergedAt x i) :
    MergedAt y i := by
  obtain ⟨w, l, r, hnode, hl, hr, hne, hw⟩ := h
  refine ⟨w, l, r, (hxy i hi).2.trans hnode, hl, hr, hne, ?_⟩
  rw [hxy.weightAt_eq (BitVec.lt_trans hl hi), hxy.weightAt_eq (BitVec.lt_trans hr hi), hw]

/-- The root of a tree in PQ weighs exactly what the tree weighs (R140). -/
theorem Forest.toNat_weightAt {x : Scratch} {ts : List Ranked} (h : Forest x ts) {r : Ranked} (hr : r ∈ ts) :
    (weightAt x (BitVec.ofNat 9 r.index)).toNat = r.tree.weight := by
  have hle := (weight_le_forestWeight hr).trans h.weight
  simp only [Config.nMax] at hle
  rw [(h.trees r hr).2.weightAt_eq, BitVec.toNat_ofNat, Nat.mod_eq_of_lt (by omega)]

/-- One pass of the merge loop leaves all nodes as they are and adds one merged node (R134 to R136). -/
theorem Forest.mergeOnce_nodes {x y : Scratch} {a b : Ranked} {rest : List Ranked} (h : Forest x (a :: b :: rest))
    (hx : x.nnode.toNat < 511) (hmerge : mergeOnce x = some y) : KeepsNodes x y ∧ MergedAt y x.nnode := by
  obtain ⟨u, hfirst, hunode, hunnode, -, hu⟩ := h.extractMin_eq (Nat.le_of_lt hx)
  obtain ⟨v, hsecond, hvnode, hvnnode, -, -⟩ := hu.extractMin_eq (by rw [hunnode]; exact Nat.le_of_lt hx)
  have ha : a ∈ a :: b :: rest := List.mem_cons_self
  have hb : b ∈ a :: b :: rest := List.mem_cons_of_mem a List.mem_cons_self
  have hvx : v.nnode = x.nnode := hvnnode.trans hunnode
  have hkeeps : KeepsNodes x v := fun j hj => ⟨hvx ▸ hj, by rw [nodeAt, hvnode, hunode, nodeAt]⟩
  have hmerge : insertNode (.internal (weightAt x (BitVec.ofNat 9 a.index) + weightAt x (BitVec.ofNat 9 b.index))
      (BitVec.ofNat 9 a.index) (BitVec.ofNat 9 b.index)) v = y := by
    simpa [mergeOnce, hfirst, hsecond] using hmerge
  have hv : v.nnode.toNat < 511 := hvx ▸ hx
  have hkeeps' : KeepsNodes x y := hmerge ▸ hkeeps.trans (keepsNodes_insertNode _ hv)
  have hlt : ∀ r ∈ a :: b :: rest, BitVec.ofNat 9 r.index < x.nnode := fun r hr => (h.trees r hr).2.lt_nnode
  refine ⟨hkeeps', _, _, _, by rw [← hmerge, nodeAt_insertNode _ hv, if_pos hvx.symm], hlt a ha, hlt b hb,
    fun e => ?_, ?_⟩
  · have hindex := congrArg BitVec.toNat e
    rw [h.toNat_index ha, h.toNat_index hb] at hindex
    exact (List.nodup_cons.mp h.indices).1 (by simp [hindex])
  · have hsum : a.tree.weight + b.tree.weight ≤ Config.nMax := by
      have := h.weight
      simp only [forestWeight, List.map_cons, List.sum_cons] at this
      omega
    rw [hkeeps'.weightAt_eq (hlt a ha), hkeeps'.weightAt_eq (hlt b hb), BitVec.toNat_add_of_lt]
    rw [h.toNat_weightAt ha, h.toNat_weightAt hb]
    exact Nat.lt_succ_of_le hsum

/-- The merge loop leaves all nodes as they are and adds one merged node per tree but one (R134, R135). -/
theorem Forest.mergeLoop_nodes {n : Nat} {x : Scratch} {ts : List Ranked} (h : Forest x ts) (hne : ts ≠ [])
    (hn : ts.length ≤ n + 1) (hx : x.nnode.toNat + ts.length ≤ 512) :
    (mergeLoop n x).nnode.toNat + 1 = x.nnode.toNat + ts.length ∧ KeepsNodes x (mergeLoop n x) ∧
      ∀ i, x.nnode ≤ i → i < (mergeLoop n x).nnode → MergedAt (mergeLoop n x) i := by
  have hnone : ∀ (y : Scratch) (i : NodeId), y.nnode ≤ i → i < y.nnode → MergedAt y i := fun _ _ h1 h2 =>
    absurd h2 (BitVec.not_lt.mpr h1)
  induction n generalizing x ts with
  | zero =>
    obtain ⟨r, rfl⟩ := List.length_eq_one_iff.mp (Nat.le_antisymm hn (List.length_pos_iff_ne_nil.mpr hne))
    exact ⟨rfl, KeepsNodes.refl x, hnone x⟩
  | succ n ih =>
    match ts, hne with
    | [r], _ =>
      rw [h.mergeLoop_singleton (by rw [List.length_singleton] at hx; omega)]
      exact ⟨rfl, KeepsNodes.refl x, hnone x⟩
    | a :: b :: rest, _ =>
      simp only [List.length_cons] at hn hx ⊢
      have hlen := (insertRanked_perm ⟨x.nnode.toNat, .node a.tree b.tree⟩ rest).length_eq
      rw [List.length_cons] at hlen
      obtain ⟨y, hmerge, hnnode, -, hy⟩ := h.mergeOnce_eq (by omega)
      obtain ⟨hkeeps, hnew⟩ := h.mergeOnce_nodes (by omega) hmerge
      obtain ⟨hcount, hkeeps', hmerged⟩ := ih hy (List.ne_nil_of_length_pos (by omega)) (by omega) (by omega)
      have hloop : mergeLoop (n + 1) x = mergeLoop n y := by rw [mergeLoop, hmerge]
      rw [hloop]
      refine ⟨by omega, hkeeps.trans hkeeps', fun i h1 h2 => ?_⟩
      obtain heq | hgt := Nat.eq_or_lt_of_le (BitVec.le_def.mp h1)
      · obtain rfl : x.nnode = i := BitVec.eq_of_toNat_eq heq
        exact hnew.mono hkeeps' (by bv_omega)
      · exact hmerged i (by bv_omega) h2

/-! ### The root (R137) -/

/-- The tree that merging leaves was inserted last, when the last index is among those merged. -/
theorem index_of_mem_mergeRanked {n next : Nat} {ts : List Ranked} (hn : ts.length ≤ n + 1)
    (hlast : ∃ r ∈ ts, r.index + 1 = next) {r : Ranked} (hr : r ∈ mergeRanked n next ts) :
    r.index + 2 = next + ts.length := by
  have single : ∀ {n next : Nat} {q : Ranked}, (∃ p ∈ [q], p.index + 1 = next) → r ∈ mergeRanked n next [q] →
      r.index + 2 = next + 1 := fun {n next q} hlast hr => by
    rw [mergeRanked_singleton, List.mem_singleton] at hr
    subst hr
    simpa using hlast
  induction n generalizing next ts with
  | zero =>
    match ts with
    | [] => simp at hlast
    | [q] => exact single hlast hr
    | _ :: _ :: _ => simp at hn
  | succ n ih =>
    match ts with
    | [] => simp at hlast
    | [q] => exact single hlast hr
    | a :: b :: rest =>
      rw [mergeRanked_cons_cons] at hr
      have hlen := (insertRanked_perm ⟨next, .node a.tree b.tree⟩ rest).length_eq
      simp only [List.length_cons] at hn hlen ⊢
      have hnew : ∃ q ∈ insertRanked ⟨next, .node a.tree b.tree⟩ rest, q.index + 1 = next + 1 :=
        ⟨_, mem_insertRanked.mpr (.inl rfl), rfl⟩
      have := ih (by omega) hnew hr
      omega

/-- The last distinct symbol has the last leaf. -/
theorem exists_last_rankedLeaves {items : List Symbol} (hne : items ≠ []) :
    ∃ r ∈ rankedLeaves items, r.index + 1 = (distinctSymbols items).length := by
  have hpos := List.length_pos_iff_ne_nil.mpr (distinctSymbols_ne_nil hne)
  have hindices : ((rankedLeaves items).map Ranked.index).Perm (List.range' 0 (distinctSymbols items).length) := by
    rw [rankedLeaves_eq, ← List.zipIdx_map_snd]
    refine ((insertAll_perm _ []).map _).trans (.of_eq ?_)
    rw [List.append_nil, leavesOf, List.map_map]
    rfl
  obtain ⟨r, hr, hindex⟩ := List.mem_map.mp (hindices.mem_iff.mpr
    (List.mem_range'_1.mpr ⟨Nat.zero_le ((distinctSymbols items).length - 1), by omega⟩))
  exact ⟨r, hr, by omega⟩

/-! ### The tree of a sequence -/

/-- What the Tree Builder leaves of a count (R131, R135, R137, R142): K leaves, then merged nodes, the last one the
root. -/
structure TreeBuilt (items : List Symbol) (x : Scratch) : Prop where
  nnode : x.nnode.toNat + 1 = 2 * (distinctSymbols items).length
  root : x.root.toNat + 2 = 2 * (distinctSymbols items).length
  leaf : ∀ i : NodeId, ∀ a, (distinctSymbols items)[i.toNat]? = some a →
    nodeAt x i = .leaf a (BitVec.ofNat 32 (items.count a))
  merged : ∀ i : NodeId, (distinctSymbols items).length ≤ i.toNat → i < x.nnode → MergedAt x i

/-- After leaf creation PQ holds the leaves of the sequence (R131, R132). -/
theorem Counted.forest_insertLeaves {items : List Symbol} {x : Scratch} (h : Counted items x)
    (hlen : items.length ≤ Config.nMax) :
    (insertLeaves x.k.toNat 0 (clearTree x)).nnode.toNat = (distinctSymbols items).length ∧
      Forest (insertLeaves x.k.toNat 0 (clearTree x)) (rankedLeaves items) := by
  have hle := length_le_of_nodup (nodup_distinctSymbols items)
  obtain ⟨hnnode, -, hforest⟩ := (forest_clearTree x).insertLeaves_eq (count := items.count) (i := 0) rfl (by omega)
    (fun p hp => h.leafAt_eq (List.mem_zipIdx_iff_getElem?.mp hp))
    (by rw [sum_count_distinctSymbols]; simpa [forestWeight] using hlen)
  rw [h.k, rankedLeaves_eq]
  exact ⟨hnnode.trans (Nat.zero_add _), hforest⟩

theorem Counted.treeBuilt_buildTree {items : List Symbol} {x : Scratch} (h : Counted items x) (hne : items ≠ [])
    (hlen : items.length ≤ Config.nMax) : TreeBuilt items (buildTree x) := by
  have hle := length_le_of_nodup (nodup_distinctSymbols items)
  have hpos := List.length_pos_iff_ne_nil.mpr (distinctSymbols_ne_nil hne)
  obtain ⟨r, -, hcount, hmerge, -, -⟩ := huffTree_eq_some hne
  obtain ⟨hnnode, hforest⟩ := h.forest_insertLeaves hlen
  obtain ⟨-, hleaves⟩ := nodeAt_insertLeaves (n := x.k.toNat) (x := clearTree x) (i := 0) rfl (by rw [h.k]; omega)
  have hnonempty : rankedLeaves items ≠ [] := List.ne_nil_of_length_pos (by omega)
  obtain ⟨hsize, hkeeps, hmerged⟩ := hforest.mergeLoop_nodes (n := 255) hnonempty (by omega) (by omega)
  obtain ⟨-, hone⟩ := hforest.mergeLoop_eq (n := 255) hnonempty (by omega) (by omega)
  have hr := hmerge 255 hle
  have hindex := index_of_mem_mergeRanked (n := 255) (by omega) (exists_last_rankedLeaves hne)
    (hr ▸ List.mem_singleton_self r)
  rw [hnnode, hr] at hone
  rw [buildTree_eq hone.leastMember_eq]
  constructor
  case nnode => exact hsize.trans (by omega)
  case root =>
    have := hone.toNat_index (List.mem_singleton_self r)
    exact (congrArg (· + 2) this).trans (by omega)
  case leaf =>
    intro i a hget
    obtain ⟨hlt, -⟩ := List.getElem?_eq_some_iff.mp hget
    have hi : nodeAt (insertLeaves x.k.toNat 0 (clearTree x)) i = leafAt x i.toNat :=
      hleaves i (Nat.zero_le _) (by rw [h.k]; omega)
    exact (hkeeps i (by rw [BitVec.lt_def]; omega)).2.trans (hi.trans (h.leafAt_eq hget))
  case merged => exact fun i h1 h2 => hmerged i (by rw [BitVec.le_def]; omega) h2

/-- Settles O29: the tables the Tree Builder leaves (`Counted.treeBuilt_buildTree`); the root weighs what the Huffman tree
of the input weighs (`Counted.treeAt_buildTree`). -/
theorem treeBuilderKeepsWeights : Obligations.TreeBuilderKeepsWeights := by
  intro items x hne hlen
  have hc := countFrequencies_counted x hlen
  have hbuilt := hc.treeBuilt_buildTree hne hlen
  obtain ⟨t, -, -, hweight, ht, -⟩ := hc.treeAt_buildTree hne hlen
  have hnnode := hbuilt.nnode
  refine ⟨by omega, by have := hbuilt.root; omega, ?_, fun i hi => ?_, fun i h1 h2 => ?_⟩
  · simp only [Config.nMax] at hlen
    rw [ht.weightAt_eq, hweight, BitVec.toNat_ofNat, Nat.mod_eq_of_lt (by omega)]
  · exact ⟨_, List.getElem?_eq_getElem hi, hbuilt.leaf i _ (List.getElem?_eq_getElem hi)⟩
  · exact hbuilt.merged i h1 (by rw [BitVec.lt_def]; omega)

/-! ### One distinct symbol (R138) -/

theorem distinctSymbols_replicate (a : Symbol) (n : Nat) : distinctSymbols (List.replicate (n + 1) a) = [a] := by
  induction n with
  | zero => rfl
  | succ n ih => rw [List.replicate_succ', distinctSymbols_concat_of_mem (by simp), ih]

/-- Settles O30: with K = 1 the tree has one node, the leaf of the one symbol (`Counted.treeBuilt_buildTree`). -/
theorem treeOfOneSymbol : Obligations.TreeOfOneSymbol := by
  intro a n x hlen
  have hlength : (List.replicate (n + 1) a).length ≤ Config.nMax := by rwa [List.length_replicate]
  have hbuilt := (countFrequencies_counted x hlength).treeBuilt_buildTree (by simp) hlength
  have hdistinct := distinctSymbols_replicate a n
  have hnnode := hbuilt.nnode
  have hroot := hbuilt.root
  have hleaf := hbuilt.leaf 0#9 a (by rw [hdistinct]; rfl)
  rw [hdistinct, List.length_singleton] at hnnode hroot
  rw [List.count_replicate_self] at hleaf
  exact ⟨by bv_omega, by bv_omega, hleaf⟩

/-! ### The codes of a tree (R150, R155) -/

/-- The mapping of a tree gives every symbol the path to its leaf, and no other symbol a code. -/
theorem fwdLabels_treeMapping {t : HuffTree} (h : t.symbols.Nodup) (x : Symbol) :
    fwdLabels (treeMapping t) x = t.codes.lookup x := by
  cases hx : t.codes.lookup x with
  | none =>
    have hnone : fwdLookup (treeMapping t) x = none := by
      rw [← Option.not_isSome_iff_eq_none, (assigned_treeMapping h).isSome_iff]
      intro hmem
      obtain ⟨q, hq, rfl⟩ := List.mem_map.mp hmem
      simpa using List.lookup_eq_none_iff.mp hx q hq
    rw [fwdLabels, hnone, Option.map_none]
  | some p =>
    obtain ⟨l₁, l₂, hcodes, -⟩ := List.lookup_eq_some_iff.mp hx
    have hp : (x, p) ∈ t.codes := by rw [hcodes]; simp
    rw [fwdLabels, ((assigned_treeMapping h).fwd x _).mpr ⟨p, hp, rfl⟩, Option.map_some,
      (codeLabels_codeOf (t.length_le_of_mem_codes h hp)).1]

theorem fwdLabels_inputMapping {items : List Symbol} (hne : items ≠ []) (hlen : items.length ≤ Config.nMax)
    (x : Symbol) : fwdLabels (inputMapping items) x = (huffCodes items).lookup x := by
  obtain ⟨r, htree, -, -, hsymbols, -⟩ := huffTree_eq_some hne
  rw [inputMapping_of_huffTree hlen htree, huffCodes, htree,
    fwdLabels_treeMapping (hsymbols.nodup_iff.mpr (nodup_distinctSymbols items))]

/-- Settles O21: BUILD commits the mapping of its input (`execBuild_of_fits`), whose codes are the paths of the input's
Huffman tree. -/
theorem buildGivesPathCodes : Obligations.BuildGivesPathCodes := by
  intro s items rest h hne hlen
  obtain ⟨_, -, hexec⟩ := execBuild_of_fits h hne hlen
  exact ⟨_, hexec, fwdLabels_inputMapping hne hlen⟩

end Sys2Proof.Machine
end

section
/-! PROOFS. The family 42_code_generator.md: the code of a lone symbol (R153), the bound on the traversal stack (R156),
and prefix-free, invertible and complete codes (R157). -/

namespace Sys2Proof.Machine

/-! ### A lone symbol (R153) -/

/-- With one distinct symbol no merge happens, and the tree is its leaf (R138). -/
theorem huffTree_replicate (a : Symbol) (n : Nat) :
    huffTree (List.replicate (n + 1) a) = some (.leaf a (n + 1)) := by
  have hleaves : rankedLeaves (List.replicate (n + 1) a) = [⟨0, .leaf a (n + 1)⟩] := by
    simp [rankedLeaves, distinctSymbols_replicate, insertRanked]
  rw [huffTree, hleaves, mergeRanked_singleton]
  rfl

theorem fwdLookup_treeMapping_leaf (a x : Symbol) (n : Nat) :
    fwdLookup (treeMapping (.leaf a n)) x = if x = a then some loneCode else none :=
  (fwdLookup_assignCode a x loneCode Mapping.empty).trans (by rw [fwdLookup_empty])

/-- Settles O23: BUILD commits the mapping of its input's tree (`execBuild_of_fits`), which is one leaf
(`huffTree_replicate`). -/
theorem buildLoneSymbol : Obligations.BuildLoneSymbol := by
  intro s a n rest h hlen
  have hlength : (List.replicate (n + 1) a).length ≤ Config.nMax := by rwa [List.length_replicate]
  obtain ⟨_, -, hexec⟩ := execBuild_of_fits h (by simp) hlength
  rw [inputMapping_of_huffTree hlength (huffTree_replicate a n)] at hexec
  exact ⟨_, hexec, rfl, rfl, fun x => fwdLookup_treeMapping_leaf a x (n + 1)⟩

/-! ### The traversal stack (R156) -/

/-- The lowest entries of STACK, one per tree, point to these trees in NODE, the first tree topmost (R29). -/
def StackHolds (x : Scratch) : List HuffTree → Prop
  | [] => True
  | t :: ts => (∃ e, x.stack[ts.length]? = some e ∧ TreeAt x e.node t) ∧ StackHolds x ts

/-- The leaves of all trees still to visit. -/
def leavesLeft (ts : List HuffTree) : Nat := (ts.map fun t => t.symbols.length).sum

theorem leavesLeft_cons (t : HuffTree) (ts : List HuffTree) :
    leavesLeft (t :: ts) = t.symbols.length + leavesLeft ts := List.sum_cons

/-- Every tree on the stack has a leaf of its own, so there are no more entries than leaves. -/
theorem length_le_leavesLeft (ts : List HuffTree) : ts.length ≤ leavesLeft ts := by
  induction ts with
  | nil => exact Nat.zero_le _
  | cons t ts ih =>
    have := t.length_symbols_pos
    rw [List.length_cons, leavesLeft_cons]
    omega

/-- Entries stand as long as neither they nor NODE are written. -/
theorem StackHolds.mono {x y : Scratch} {ts : List HuffTree} (h : StackHolds x ts) (hnode : y.node = x.node)
    (hnnode : y.nnode = x.nnode) (hstack : ∀ j, j < ts.length → y.stack[j]? = x.stack[j]?) : StackHolds y ts := by
  induction ts with
  | nil => trivial
  | cons t ts ih =>
    obtain ⟨⟨e, he, ht⟩, hts⟩ := h
    exact ⟨⟨e, (hstack _ (Nat.lt_succ_self _)).trans he, ht.of_eq hnode hnnode⟩,
      ih hts fun j hj => hstack j (Nat.lt_succ_of_lt hj)⟩

/-- A visit of a leaf takes its entry off, and a visit of an internal node puts its two subtrees, which have the same
leaves, in its place (R151, R152). -/
theorem StackHolds.visit {x : Scratch} {t : HuffTree} {ts : List HuffTree} (m : Mapping) (h : StackHolds x (t :: ts))
    (hsp : x.sp.toNat = ts.length + 1) (hroom : leavesLeft (t :: ts) ≤ 256) :
    ∃ y w us, (∀ n, visitLoop (n + 1) x m = visitLoop n y w) ∧ StackHolds y us ∧ y.sp.toNat = us.length ∧
      leavesLeft us ≤ leavesLeft (t :: ts) := by
  obtain ⟨⟨⟨i, p⟩, he, ht⟩, hts⟩ := h
  have hpos : 0 < x.sp.toNat := by omega
  have htop : x.sp.toNat - 1 = ts.length := by omega
  rw [← htop] at he
  rw [leavesLeft_cons] at hroom ⊢
  cases t with
  | leaf s w =>
    have hpop := (popped_popStack hpos).sp
    exact ⟨popStack x, assignCode s p m, ts, fun n => visitLoop_leaf n m hpos he ht.2, hts.mono rfl rfl fun _ _ => rfl,
      by omega, Nat.le_add_left _ _⟩
  | node l r =>
    obtain ⟨-, a, b, hnode, hl, hr⟩ := ht
    have hlpos := l.length_symbols_pos
    have hrpos := r.length_symbols_pos
    have hts_le := length_le_leavesLeft ts
    simp only [HuffTree.symbols, List.length_append] at hroom ⊢
    obtain ⟨y, hy, hynode, hynnode, -, -, hysp, hyleft, hyright, hystack⟩ :=
      pushStack_children ⟨a, codeSnoc p false⟩ ⟨b, codeSnoc p true⟩ hpos (by omega)
    rw [hsp] at hysp hyleft
    rw [htop] at hyright hystack
    refine ⟨y, m, l :: r :: ts, fun n => by rw [visitLoop_internal n m hpos he hnode, hy], ?_, hysp, ?_⟩
    · exact ⟨⟨_, hyleft, hl.of_eq hynode hynnode⟩, ⟨_, hyright, hr.of_eq hynode hynnode⟩,
        hts.mono hynode hynnode hystack⟩
    · simp only [leavesLeft_cons]
      omega

/-- However many visits there are, the stack never holds more entries than there were leaves left. -/
theorem StackHolds.sp_visitLoop_le {n : Nat} {x : Scratch} {ts : List HuffTree} (m : Mapping) (h : StackHolds x ts)
    (hsp : x.sp.toNat = ts.length) (hroom : leavesLeft ts ≤ 256) :
    (visitLoop n x m).1.sp.toNat ≤ leavesLeft ts := by
  induction n generalizing x ts m with
  | zero => exact hsp.trans_le (length_le_leavesLeft ts)
  | succ n ih =>
    match ts with
    | [] =>
      rw [visitLoop_of_empty _ _ (BitVec.eq_of_toNat_eq hsp)]
      exact hsp.le
    | t :: ts =>
      obtain ⟨y, w, us, hvisit, hy, hysp, hle⟩ := h.visit m hsp hroom
      rw [hvisit]
      exact (ih w hy hysp (hle.trans hroom)).trans hle

/-- Settles O31: before the first visit the stack holds the whole tree alone, which has K leaves
(`StackHolds.sp_visitLoop_le`). -/
theorem traversalStackBounded : Obligations.TraversalStackBounded := by
  intro items x m n hne hlen
  obtain ⟨t, -, hsymbols, -, ht, -⟩ := (countFrequencies_counted x hlen).treeAt_buildTree hne hlen
  obtain ⟨z, hz, hnode, hnnode, -, -, hsp, htop⟩ := pushStack_root (buildTree (countFrequencies items x))
  have hleaves : leavesLeft [t] = (distinctSymbols items).length := by simp [leavesLeft, hsymbols.length_eq]
  rw [hz, ← hleaves]
  have hwhole : StackHolds z [t] := ⟨⟨_, htop, ht.of_eq hnode hnnode⟩, trivial⟩
  refine hwhole.sp_visitLoop_le m hsp ?_
  rw [hleaves]
  exact length_le_of_nodup (nodup_distinctSymbols items)

/-! ### Prefix-free and complete codes (R157) -/

/-- `MappingOk.prefixFree`, said of the labels. -/
theorem MappingOk.not_prefix {m : Mapping} (h : MappingOk m) {x y : Symbol} {c d : Code}
    (hc : fwdLookup m x = some c) (hd : fwdLookup m y = some d) (hxy : x ≠ y) : ¬ codeLabels c <+: codeLabels d := by
  rw [← codeIsPrefix_iff, h.prefixFree x y c d hc hd hxy]
  exact Bool.false_ne_true

/-- No bits begin with the codes of two symbols. -/
theorem MappingOk.eq_of_prefix {m : Mapping} (h : MappingOk m) {x y : Symbol} {c d : Code} {v : List Bool}
    (hc : fwdLookup m x = some c) (hd : fwdLookup m y = some d) (hcv : codeLabels c <+: v) (hdv : codeLabels d <+: v) :
    x = y := by
  by_contra hxy
  obtain hcd | hdc := List.prefix_or_prefix_of_prefix hcv hdv
  · exact h.not_prefix hc hd hxy hcd
  · exact h.not_prefix hd hc (Ne.symm hxy) hdc

theorem MappingOk.codeLabels_ne_nil {m : Mapping} (h : MappingOk m) {x : Symbol} {c : Code}
    (hc : fwdLookup m x = some c) : codeLabels c ≠ [] := by
  obtain ⟨hlen, -⟩ := (wellFormed_iff c).mp (h.codesWellFormed x c hc)
  intro hnil
  exact hlen (BitVec.eq_of_toNat_eq ((length_codeLabels c).symm.trans (congrArg List.length hnil)))

theorem HuffTree.exists_mem_paths (t : HuffTree) (path : List Bool) : ∃ q, q ∈ t.paths path := by
  obtain ⟨s, hs⟩ := List.exists_mem_of_length_pos t.length_symbols_pos
  rw [← t.map_fst_paths path] at hs
  obtain ⟨q, hq, -⟩ := List.mem_map.mp hs
  exact ⟨q, hq⟩

/-- Bits that lead to a tree and are long enough lead on to one of its leaves, for every internal node has both
children. -/
theorem HuffTree.exists_path_prefix {t : HuffTree} {path v : List Bool} (hpath : path <+: v)
    (hlong : ∀ q ∈ t.paths path, q.2.length ≤ v.length) : ∃ q ∈ t.paths path, q.2 <+: v := by
  induction t generalizing path with
  | leaf s n => exact ⟨(s, path), List.mem_singleton_self _, hpath⟩
  | node l r ihl ihr =>
    have hleft : ∀ q ∈ l.paths (path ++ [false]), q ∈ (node l r).paths path := fun _ => List.mem_append_left _
    have hright : ∀ q ∈ r.paths (path ++ [true]), q ∈ (node l r).paths path := fun _ => List.mem_append_right _
    obtain ⟨q₀, hq₀⟩ := l.exists_mem_paths (path ++ [false])
    have hlt : (path ++ [false]).length ≤ v.length :=
      (prefix_of_mem_paths hq₀).1.length_le.trans (hlong q₀ (hleft q₀ hq₀))
    obtain ⟨tail, rfl⟩ := hpath
    match tail with
    | [] => simp at hlt
    | false :: tail =>
      obtain ⟨q, hq, hpre⟩ := ihl (path := path ++ [false]) ⟨tail, by simp⟩ fun q hq => hlong q (hleft q hq)
      exact ⟨q, hleft q hq, hpre⟩
    | true :: tail =>
      obtain ⟨q, hq, hpre⟩ := ihr (path := path ++ [true]) ⟨tail, by simp⟩ fun q hq => hlong q (hright q hq)
      exact ⟨q, hright q hq, hpre⟩

/-- With two symbols or more, every bit vector of length MAXLEN begins with a code. -/
theorem exists_code_prefix {t : HuffTree} (h : t.symbols.Nodup) (htwo : 2 ≤ t.symbols.length) {v : List Bool}
    (hv : v.length = (treeMapping t).maxlen.toNat) :
    ∃ x c, fwdLookup (treeMapping t) x = some c ∧ codeLabels c <+: v := by
  have hassigned := assigned_treeMapping h
  have hpath : ∀ q ∈ t.codes, q.2.length ≤ 255 := fun q hq => t.length_le_of_mem_codes h hq
  have hlong : ∀ q ∈ t.codes, q.2.length ≤ v.length := fun q hq => by
    have hbound := BitVec.le_def.mp (hassigned.bound q hq)
    rwa [codeOf_len (hpath q hq), ← hv] at hbound
  cases t with
  | leaf s n => simp [HuffTree.symbols] at htwo
  | node l r =>
    obtain ⟨⟨x, p⟩, hp, hpre⟩ := HuffTree.exists_path_prefix (t := .node l r) List.nil_prefix hlong
    exact ⟨x, codeOf p, (hassigned.fwd x _).mpr ⟨p, hp, rfl⟩, by rwa [(codeLabels_codeOf (hpath _ hp)).1]⟩

theorem exists_code_prefix_inputMapping {items : List Symbol} (hlen : items.length ≤ Config.nMax)
    (htwo : 2 ≤ (distinctSymbols items).length) {v : List Bool}
    (hv : v.length = (inputMapping items).maxlen.toNat) :
    ∃ x c, fwdLookup (inputMapping items) x = some c ∧ codeLabels c <+: v := by
  have hne : items ≠ [] := by
    rintro rfl
    exact absurd htwo (by decide)
  obtain ⟨r, htree, -, -, hsymbols, -⟩ := huffTree_eq_some hne
  rw [inputMapping_of_huffTree hlen htree] at hv ⊢
  exact exists_code_prefix (hsymbols.nodup_iff.mpr (nodup_distinctSymbols items)) (hsymbols.length_eq ▸ htwo) hv

/-- Settles O22: the first three clauses are R32 of the mapping that BUILD commits (`execBuild_of_fits`); for the last,
the tree has a code for every bit vector (`exists_code_prefix_inputMapping`), and prefix-free codes have one at most
(`MappingOk.eq_of_prefix`). -/
theorem buildCodesPrefixFreeAndComplete : Obligations.BuildCodesPrefixFreeAndComplete := by
  intro s items rest h hne hlen
  obtain ⟨_, hm, hexec⟩ := execBuild_of_fits h hne hlen
  refine ⟨_, hexec, fun x y c d hc hd hxy => hm.ok.not_prefix hc hd hxy, hm.ok.inverse,
    fun x c hc => hm.ok.codeLabels_ne_nil hc, fun htwo v hv => ?_⟩
  obtain ⟨x, c, hc, hcv⟩ := exists_code_prefix_inputMapping hlen htwo hv
  exact ⟨x, ⟨c, hc, hcv⟩, fun y ⟨d, hd, hdv⟩ => hm.ok.eq_of_prefix hd hc hdv hcv⟩

end Sys2Proof.Machine
end

section
/-! PROOFS. The family 43_encode.md: the state ENCODE leaves over a frame of present symbols (R170, R174), over one with an
absent symbol (R173), and without a mapping (R172). -/

namespace Sys2Proof.Machine

/-! ### The input loop (R170, R173) -/

/-- POS has advanced over n items, modulo 2^32 (R35, R176). -/
def advanceBy (n : Nat) (s : State) : State := s.setEngine { s.engine with pos := s.engine.pos + BitVec.ofNat 32 n }

@[simp] theorem advanceBy_zero (s : State) : advanceBy 0 s = s := by simp [advanceBy, State.setEngine]

theorem advanceBy_advancePos (n : Nat) (s : State) : advanceBy n (advancePos s) = advanceBy (n + 1) s := by
  have hpos : s.engine.pos + 1#32 + BitVec.ofNat 32 n = s.engine.pos + BitVec.ofNat 32 (n + 1) := by
    rw [BitVec.add_assoc, BitVec.add_comm 1#32, BitVec.ofNat_add]
  simp [advanceBy, advancePos, State.setEngine, hpos]

/-- Once ENCODE has failed, it looks at no symbol of the rest of its frame. -/
theorem foldl_encodeItem_of_failed {s : State} (h : s.engine.failed = true) (items : List Byte) :
    items.foldl (fun t d => encodeItem d t) s = advanceBy items.length s := by
  induction items generalizing s with
  | nil => exact (advanceBy_zero s).symm
  | cons d items ih =>
    have hrest := ih (s := advancePos s) h
    rw [List.foldl_cons, encodeItem_of_failed h, hrest, advanceBy_advancePos, List.length_cons]

theorem encodedChars_cons {m : Mapping} {a : Symbol} {c : Code} (h : fwdLookup m a = some c) (items : List Symbol) :
    encodedChars m (a :: items) = codeChars c ++ encodedChars m items := by
  simp [encodedChars, symbolChars, h]

theorem pushItems_pushItems (cs ds : List Byte) (s : State) :
    (s.pushItems cs).pushItems ds = s.pushItems (cs ++ ds) := by
  simp [State.pushItems, State.pushOut]

/-- Over present symbols ENCODE pushes their codes and does nothing else but count. -/
theorem foldl_encodeItem_of_present {s : State} (h : s.engine.failed = false) {items : List Byte}
    (hpresent : ∀ a ∈ items, (fwdLookup s.mapping a).isSome = true) :
    items.foldl (fun t d => encodeItem d t) s =
      advanceBy items.length (s.pushItems (encodedChars s.mapping items)) := by
  induction items generalizing s with
  | nil => simp [encodedChars, State.pushItems, State.pushOut]
  | cons a items ih =>
    obtain ⟨ha, hitems⟩ := List.forall_mem_cons.mp hpresent
    obtain ⟨c, hc⟩ := Option.isSome_iff_exists.mp ha
    have hrest := ih (s := advancePos (s.pushItems (codeChars c))) h hitems
    calc (a :: items).foldl (fun t d => encodeItem d t) s
        = advanceBy items.length (advancePos ((s.pushItems (codeChars c)).pushItems (encodedChars s.mapping items))) := by
          rw [List.foldl_cons, encodeItem_of_some h hc, hrest]; rfl
      _ = advanceBy (a :: items).length (s.pushItems (encodedChars s.mapping (a :: items))) := by
          rw [advanceBy_advancePos, pushItems_pushItems, encodedChars_cons hc, List.length_cons]

/-- At the first absent symbol ENCODE notes it with the POS of that moment, and from there on it only counts. -/
theorem foldl_encodeItem_of_absent {s : State} (h : s.engine.failed = false) {before : List Byte} {a : Symbol}
    (hpresent : ∀ b ∈ before, (fwdLookup s.mapping b).isSome = true) (ha : fwdLookup s.mapping a = none)
    (after : List Byte) :
    (before ++ a :: after).foldl (fun t d => encodeItem d t) s =
      advanceBy (after.length + 1)
        (noteAbsent a (advanceBy before.length (s.pushItems (encodedChars s.mapping before)))) := by
  rw [List.foldl_append, List.foldl_cons, foldl_encodeItem_of_present h hpresent, encodeItem_of_none,
    foldl_encodeItem_of_failed, advanceBy_advancePos]
  · rfl
  · exact h
  · exact ha

/-! ### The whole next state -/

theorem finishEncode_of_failed {s : State} {info pos : RegWord} (h : s.engine.failed = true)
    (hinfo : s.engine.heldInfo = info) (hpos : s.engine.heldPos = pos) :
    finishEncode s = (s.raise .lookup info pos).forgetEngine := by
  simp [finishEncode, endEncode, h, hinfo, hpos]

theorem finishEncode_of_not_failed {s : State} (h : s.engine.failed = false) :
    finishEncode s = s.respondOk.forgetEngine := by
  simp [finishEncode, endEncode, h]

/-- The input loop of ENCODE starts with POS = 0 and FAILED = 0 (R170). -/
def encoderStarted (s : State) : State := s.setEngine { s.engine with pos := 0#32, failed := false }

/-- ENCODE over a complete frame: the loop over its items, then the end of ENCODE (R170). -/
theorem execEncode_complete {s : State} {items : List Byte} {rest : List Beat}
    (h : takeFrame s.inp = some (items, rest)) (hvalid : s.mapping.valid = true) :
    exec .encode s =
      .next (finishEncode ((items.foldl (fun t d => encodeItem d t) (encoderStarted s)).setInp rest)) :=
  (execEncode_valid hvalid).trans (overFrame_complete encodeItem finishEncode (s := encoderStarted s) h)

/-- R170, R174. The engine state the loop has used is gone with the end of the command (R51). -/
theorem execEncode_of_present {s : State} {items : List Byte} {rest : List Beat}
    (h : takeFrame s.inp = some (items, rest)) (hvalid : s.mapping.valid = true)
    (hpresent : ∀ a ∈ items, (fwdLookup s.mapping a).isSome = true) :
    exec .encode s =
      .next ((s.pushItems (encodedChars s.mapping items)).setInp rest).respondOk.forgetEngine := by
  have hloop := foldl_encodeItem_of_present (s := encoderStarted s) rfl hpresent
  rw [execEncode_complete h hvalid, hloop, finishEncode_of_not_failed rfl]
  rfl

/-- R173: the first absent symbol sets FAILED with the symbol and its index, and what stands behind it only counts. -/
theorem execEncode_of_absent {s : State} {before after : List Byte} {a : Symbol} {rest : List Beat}
    (h : takeFrame s.inp = some (before ++ a :: after, rest)) (hvalid : s.mapping.valid = true)
    (hpresent : ∀ b ∈ before, (fwdLookup s.mapping b).isSome = true) (ha : fwdLookup s.mapping a = none) :
    exec .encode s =
      .next (((s.pushItems (encodedChars s.mapping before)).setInp rest).raise .lookup (a.setWidth 32)
        (BitVec.ofNat 32 before.length)).forgetEngine := by
  have hloop := foldl_encodeItem_of_absent (s := encoderStarted s) rfl hpresent ha after
  rw [execEncode_complete h hvalid, hloop, finishEncode_of_failed rfl rfl (BitVec.zero_add _)]
  rfl

/-- ENCODE and DECODE without a mapping, over a complete frame (R172, R187). -/
theorem refuse_complete {s : State} {items : List Byte} {rest : List Beat} (h : takeFrame s.inp = some (items, rest)) :
    overFrame ignoreItem refuseEmpty s = .next ((s.setInp rest).raise .emptyInput 0#32 0#32) := by
  rw [overFrame_complete ignoreItem refuseEmpty h, foldl_ignoreItem]
  rfl

/-! ### The number of characters (R174) -/

theorem length_symbolChars (m : Mapping) (a : Symbol) :
    (symbolChars m a).length = ((fwdLookup m a).map fun c => c.len.toNat).getD 0 := by
  cases h : fwdLookup m a <;> simp [symbolChars, h]

theorem length_encodedChars (m : Mapping) (items : List Symbol) :
    (encodedChars m items).length =
      (items.map fun a => ((fwdLookup m a).map fun c => c.len.toNat).getD 0).sum := by
  simp only [encodedChars, List.length_flatMap, length_symbolChars]

/-! ### The obligations -/

/-- Settles O32: the next state of ENCODE over present symbols (`execEncode_of_present`), and each code as many characters
long as its length says. -/
theorem encodeConcatenatesCodes : Obligations.EncodeConcatenatesCodes := by
  intro s items rest h hvalid hpresent
  exact ⟨⟨_, execEncode_of_present h hvalid hpresent, rfl, rfl, rfl, rfl, rfl, rfl⟩, length_encodedChars s.mapping items⟩

/-- Settles O33: the next state of ENCODE over a frame with an absent symbol (`execEncode_of_absent`). -/
theorem encodeAbsentSymbol : Obligations.EncodeAbsentSymbol := by
  intro s before after a rest h hvalid hpresent ha
  exact ⟨_, execEncode_of_absent h hvalid hpresent ha, rfl, rfl, rfl, rfl, rfl, rfl⟩

/-- Settles O34: with VALID = 0 the frame is drained and the command refused (`refuse_complete`). -/
theorem encodeRefusesWithoutMapping : Obligations.EncodeRefusesWithoutMapping := by
  intro s items rest h hvalid
  rw [execEncode_invalid hvalid]
  exact refuse_complete h

end Sys2Proof.Machine
end

section
/-! PROOFS. The family 44_decode.md: the splitting of an input into codes and a leftover (R188, R189), the state DECODE
leaves over codes (R188, R192), over codes and a leftover (R189 to R191) and without a mapping (R187), what its result
depends on (R195), and the round trip (R194). -/

namespace Sys2Proof.Machine

/-! ### Codes at the front of an input -/

theorem codeChars_prefix_iff (c d : Code) : codeChars c <+: codeChars d ↔ codeLabels c <+: codeLabels d :=
  List.prefix_map_iff_of_injective chr_injective

/-- No input begins with the codes of two symbols. -/
theorem MappingOk.eq_of_chars_prefix {m : Mapping} (h : MappingOk m) {x y : Symbol} {c d : Code} {chars : List Byte}
    (hc : fwdLookup m x = some c) (hd : fwdLookup m y = some d) (hcv : codeChars c <+: chars)
    (hdv : codeChars d <+: chars) : x = y := by
  obtain hcd | hdc := List.prefix_or_prefix_of_prefix hcv hdv
  · exact h.eq_of_prefix hc hd ((codeChars_prefix_iff c d).mp hcd) List.prefix_rfl
  · exact h.eq_of_prefix hc hd List.prefix_rfl ((codeChars_prefix_iff d c).mp hdc)

theorem MappingOk.length_codeChars_pos {m : Mapping} (h : MappingOk m) {x : Symbol} {c : Code}
    (hc : fwdLookup m x = some c) : 0 < (codeChars c).length :=
  List.length_pos_iff.mpr fun hnil => h.codeLabels_ne_nil hc (List.map_eq_nil_iff.mp hnil)

/-- These characters begin with no code of the mapping (R189). -/
def BeginsWithNoCode (m : Mapping) (chars : List Byte) : Prop :=
  ∀ a c, fwdLookup m a = some c → ¬ codeChars c <+: chars

/-- An input is the codes of these present symbols, and then a rest that begins with no code. -/
def SplitsInto (m : Mapping) (chars : List Byte) (p : List Symbol × List Byte) : Prop :=
  chars = encodedChars m p.1 ++ p.2 ∧ (∀ a ∈ p.1, (fwdLookup m a).isSome = true) ∧ BeginsWithNoCode m p.2

/-- A code in front of an input is split off it. -/
theorem SplitsInto.cons {m : Mapping} {chars tail : List Byte} {syms : List Symbol} {a : Symbol} {c : Code}
    (hc : fwdLookup m a = some c) (h : SplitsInto m chars (syms, tail)) :
    SplitsInto m (codeChars c ++ chars) (a :: syms, tail) := by
  obtain ⟨rfl, hpresent, htail⟩ := h
  exact ⟨by rw [encodedChars_cons hc, List.append_assoc],
    List.forall_mem_cons.mpr ⟨Option.isSome_of_eq_some hc, hpresent⟩, htail⟩

/-- Codes are not empty, so splitting them off comes to an end. -/
theorem MappingOk.exists_splitsInto {m : Mapping} (h : MappingOk m) (chars : List Byte) : ∃ p, SplitsInto m chars p := by
  by_cases hnone : BeginsWithNoCode m chars
  · exact ⟨([], chars), rfl, by simp, hnone⟩
  · obtain ⟨a, c, hc, more, rfl⟩ : ∃ a c, fwdLookup m a = some c ∧ codeChars c <+: chars := by
      simpa [BeginsWithNoCode] using hnone
    have hshorter : more.length < (codeChars c ++ more).length := by
      have := h.length_codeChars_pos hc
      rw [List.length_append]
      omega
    obtain ⟨⟨syms, tail⟩, hsplit⟩ := h.exists_splitsInto more
    exact ⟨(a :: syms, tail), hsplit.cons hc⟩
termination_by chars.length

/-- The first code is the same in both splittings, since no input begins with two codes, and so on behind it. -/
theorem MappingOk.splitsInto_unique {m : Mapping} (h : MappingOk m) {chars tail tail' : List Byte}
    {syms syms' : List Symbol} (hp : SplitsInto m chars (syms, tail)) (hq : SplitsInto m chars (syms', tail')) :
    syms = syms' ∧ tail = tail' := by
  induction syms generalizing chars syms' with
  | nil =>
    obtain ⟨rfl, -, htail⟩ := hp
    obtain ⟨hchars, hpresent, -⟩ := hq
    cases syms' with
    | nil => exact ⟨rfl, hchars⟩
    | cons b syms' =>
      obtain ⟨d, hd⟩ := Option.isSome_iff_exists.mp (hpresent b List.mem_cons_self)
      rw [encodedChars_cons hd, List.append_assoc] at hchars
      exact absurd ⟨_, hchars.symm⟩ (htail b d hd)
  | cons a syms ih =>
    obtain ⟨hchars, hpresent, htail⟩ := hp
    obtain ⟨ha, hsyms⟩ := List.forall_mem_cons.mp hpresent
    obtain ⟨c, hc⟩ := Option.isSome_iff_exists.mp ha
    rw [encodedChars_cons hc, List.append_assoc] at hchars
    obtain ⟨hchars', hpresent', htail'⟩ := hq
    cases syms' with
    | nil => exact absurd ⟨_, hchars.symm.trans hchars'⟩ (htail' a c hc)
    | cons b syms' =>
      obtain ⟨hb, hsyms'⟩ := List.forall_mem_cons.mp hpresent'
      obtain ⟨d, hd⟩ := Option.isSome_iff_exists.mp hb
      rw [encodedChars_cons hd, List.append_assoc] at hchars'
      obtain rfl := h.eq_of_chars_prefix hc hd ⟨_, hchars.symm⟩ ⟨_, hchars'.symm⟩
      obtain rfl := Option.some.inj (hc.symm.trans hd)
      have hmore := List.append_cancel_left (hchars.symm.trans hchars')
      obtain ⟨rfl, rfl⟩ := ih ⟨rfl, hsyms, htail⟩ ⟨hmore, hsyms', htail'⟩
      exact ⟨rfl, rfl⟩

/-- Settles O38: codes are split off the front as long as there is one (`MappingOk.exists_splitsInto`), and which one is
never open (`MappingOk.splitsInto_unique`). -/
theorem everyInputSplitsIntoCodesAndLeftover : Obligations.EveryInputSplitsIntoCodesAndLeftover := by
  intro m chars h
  obtain ⟨p, hp⟩ := h.exists_splitsInto chars
  refine ⟨p, hp, fun q hq => ?_⟩
  obtain ⟨hsyms, htail⟩ := h.splitsInto_unique hq hp
  exact Prod.ext hsyms htail

/-! ### The candidate as a path (R34, R65) -/

/-- A well formed code is the code of its labels. -/
theorem codeOf_codeLabels {c : Code} (h : c.wellFormed = true) : codeOf (codeLabels c) = c := by
  obtain ⟨-, hbits⟩ := (wellFormed_iff c).mp h
  obtain ⟨hlabels, hbits'⟩ := codeLabels_codeOf (path := codeLabels c) (by rw [length_codeLabels]; omega)
  exact code_eq_of_labels hbits' hbits hlabels

/-- REV finds a path exactly when it is the code of a symbol. -/
theorem MappingOk.revLookup_codeOf_eq_some_iff {m : Mapping} (h : MappingOk m) {path : List Bool}
    (hlen : path.length ≤ 255) {x : Symbol} :
    revLookup m (codeOf path) = some x ↔ ∃ c, fwdLookup m x = some c ∧ codeLabels c = path := by
  rw [h.inverse]
  constructor
  · exact fun hx => ⟨codeOf path, hx, (codeLabels_codeOf hlen).1⟩
  · rintro ⟨c, hc, rfl⟩
    rw [codeOf_codeLabels (h.codesWellFormed x c hc), hc]

/-- DECODE holds the candidate with these labels (R34). -/
def holding (path : List Bool) (s : State) : State := s.setEngine (setCandidate (codeOf path) s.engine)

/-- DECODE has read n characters, the last of them the end of a code, and pushed these symbols (R188). -/
def decodedTo (syms : List Symbol) (n : Nat) (s : State) : State :=
  (s.pushItems syms).setEngine
    { s.engine with start := s.engine.pos + BitVec.ofNat 32 n, pos := s.engine.pos + BitVec.ofNat 32 n }

theorem decodedTo_nil {s : State} (h : s.engine.start = s.engine.pos) : decodedTo [] 0 s = s := by
  have hpos : s.engine.pos + BitVec.ofNat 32 0 = s.engine.pos := BitVec.add_zero _
  calc decodedTo [] 0 s
      = (s.pushItems []).setEngine { s.engine with start := s.engine.pos } := by rw [decodedTo, hpos]
    _ = s.pushItems [] := congrArg (fun p => (s.pushItems []).setEngine { s.engine with start := p }) h.symm
    _ = s := by simp [State.pushItems, State.pushOut]

theorem decodedTo_advancePos (syms : List Symbol) (n : Nat) (s : State) :
    decodedTo syms n (advancePos s) = decodedTo syms (n + 1) s := by
  have hpos : s.engine.pos + 1#32 + BitVec.ofNat 32 n = s.engine.pos + BitVec.ofNat 32 (n + 1) := by
    rw [BitVec.add_assoc, BitVec.add_comm 1#32, BitVec.ofNat_add]
  simp [decodedTo, advancePos, State.pushItems, State.pushOut, State.setEngine, hpos]

theorem decodedTo_decodedTo (syms more : List Symbol) (n k : Nat) (s : State) :
    decodedTo more k (decodedTo syms n s) = decodedTo (syms ++ more) (n + k) s := by
  simp [decodedTo, State.pushItems, State.pushOut, State.setEngine, BitVec.add_assoc, BitVec.ofNat_add]

/-! ### One character (R185, R188) -/

theorem appendBit_of_none {s : State} {b : Bool} (h : revLookup s.mapping (codeSnoc (candidate s.engine) b) = none) :
    appendBit b s = s.setEngine (setCandidate (codeSnoc (candidate s.engine) b) s.engine) := by
  simp [appendBit, h]

theorem appendBit_of_some {s : State} {b : Bool} {x : Symbol}
    (h : revLookup s.mapping (codeSnoc (candidate s.engine) b) = some x) :
    appendBit b s = emitMatch x (s.setEngine (setCandidate (codeSnoc (candidate s.engine) b) s.engine)) := by
  simp [appendBit, h]

section

variable {s : State} {path : List Bool} {b : Bool} (hpoison : s.engine.poison = false)
  (hroom : path.length < s.mapping.maxlen.toNat)

include hpoison hroom

/-- Below MAXLEN a bit is appended to the candidate (R188, R191). -/
theorem decodeItem_holding :
    decodeItem (chr b) (holding path s) = advancePos (appendBit b (holding path s)) := by
  refine decodeItem_of_bit (s := holding path s) hpoison (charBit_chr b) fun hfull => ?_
  have hlen : (codeOf path).len.toNat = s.mapping.maxlen.toNat := congrArg BitVec.toNat hfull
  rw [codeOf_len (by omega)] at hlen
  omega

theorem decodeItem_holding_of_none (hnone : revLookup s.mapping (codeOf (path ++ [b])) = none) :
    decodeItem (chr b) (holding path s) = holding (path ++ [b]) (advancePos s) := by
  rw [codeOf_concat] at hnone
  rw [decodeItem_holding hpoison hroom, appendBit_of_none hnone, holding.eq_def (path ++ [b]), codeOf_concat]
  rfl

theorem decodeItem_holding_of_some {x : Symbol} (hsome : revLookup s.mapping (codeOf (path ++ [b])) = some x) :
    decodeItem (chr b) (holding path s) = holding [] (decodedTo [x] 1 s) := by
  rw [codeOf_concat] at hsome
  rw [decodeItem_holding hpoison hroom, appendBit_of_some hsome]
  rfl

end

/-! ### A sequence of codes (R188, R192) -/

/-- The labels of a code not yet read lead DECODE from the labels read to the symbol of the code. No candidate on the way
is a code, for no code begins with another, and none is too long. -/
theorem foldl_decodeItem_of_labels {s : State} (h : MappingOk s.mapping) (hpoison : s.engine.poison = false) {a : Symbol}
    {c : Code} (hc : fwdLookup s.mapping a = some c) {path bits : List Bool} (hlabels : codeLabels c = path ++ bits)
    (hne : bits ≠ []) :
    (bits.map chr).foldl (fun t d => decodeItem d t) (holding path s) = holding [] (decodedTo [a] bits.length s) := by
  have hmaxlen : (path ++ bits).length ≤ s.mapping.maxlen.toNat := by
    rw [← hlabels, length_codeLabels]
    exact h.maxlenBounds a c hc
  induction bits generalizing s path with
  | nil => exact absurd rfl hne
  | cons b bits ih =>
    have hroom : path.length < s.mapping.maxlen.toNat := by
      rw [List.length_append, List.length_cons] at hmaxlen
      omega
    have hshort : (path ++ [b]).length ≤ 255 := by
      rw [List.length_append, List.length_singleton]
      omega
    rw [List.append_cons] at hlabels hmaxlen
    rw [List.map_cons, List.foldl_cons]
    by_cases hbits : bits = []
    · subst hbits
      rw [List.append_nil] at hlabels
      exact decodeItem_holding_of_some hpoison hroom ((h.revLookup_codeOf_eq_some_iff hshort).mpr ⟨c, hc, hlabels⟩)
    · have hnone : revLookup s.mapping (codeOf (path ++ [b])) = none := by
        refine Option.eq_none_iff_forall_ne_some.mpr fun x hx => ?_
        obtain ⟨d, hd, hpath⟩ := (h.revLookup_codeOf_eq_some_iff hshort).mp hx
        obtain rfl := h.eq_of_prefix hc hd List.prefix_rfl ⟨bits, by rw [hpath, hlabels]⟩
        obtain rfl := Option.some.inj (hc.symm.trans hd)
        exact hbits (List.append_right_eq_self.mp (hlabels.symm.trans hpath))
      have hrest := ih (s := advancePos s) h hpoison hc hlabels hbits hmaxlen
      rw [decodeItem_holding_of_none hpoison hroom hnone, hrest, decodedTo_advancePos, List.length_cons]

/-- Over the codes of present symbols DECODE pushes these symbols, and then it is between two codes. -/
theorem foldl_decodeItem_of_codes {s : State} (h : MappingOk s.mapping) (hpoison : s.engine.poison = false)
    (hstart : s.engine.start = s.engine.pos) {syms : List Symbol}
    (hpresent : ∀ a ∈ syms, (fwdLookup s.mapping a).isSome = true) :
    (encodedChars s.mapping syms).foldl (fun t d => decodeItem d t) (holding [] s) =
      holding [] (decodedTo syms (encodedChars s.mapping syms).length s) := by
  induction syms generalizing s with
  | nil => exact congrArg (holding []) (decodedTo_nil hstart).symm
  | cons a syms ih =>
    obtain ⟨ha, hsyms⟩ := List.forall_mem_cons.mp hpresent
    obtain ⟨c, hc⟩ := Option.isSome_iff_exists.mp ha
    have hcode := foldl_decodeItem_of_labels h hpoison hc (path := []) (bits := codeLabels c) rfl
      (h.codeLabels_ne_nil hc)
    have hrest := ih (s := decodedTo [a] (codeLabels c).length s) h hpoison rfl hsyms
    rw [encodedChars_cons hc, List.foldl_append, List.length_append]
    calc (encodedChars s.mapping syms).foldl (fun t d => decodeItem d t)
          ((codeChars c).foldl (fun t d => decodeItem d t) (holding [] s))
        = holding [] (decodedTo syms (encodedChars s.mapping syms).length (decodedTo [a] (codeLabels c).length s)) := by
          rw [codeChars, hcode]; exact hrest
      _ = holding [] (decodedTo (a :: syms) ((codeChars c).length + (encodedChars s.mapping syms).length) s) := by
          rw [decodedTo_decodedTo, codeChars, List.length_map]; rfl

/-! ### A leftover (R189 to R191) -/

/-- Once poisoned, DECODE looks at no character of the rest of its frame. -/
theorem foldl_decodeItem_of_poison {s : State} (h : s.engine.poison = true) (chars : List Byte) :
    chars.foldl (fun t d => decodeItem d t) s = advanceBy chars.length s := by
  induction chars generalizing s with
  | nil => exact (advanceBy_zero s).symm
  | cons d chars ih =>
    have hrest := ih (s := advancePos s) h
    rw [List.foldl_cons, decodeItem_of_poison h, hrest, advanceBy_advancePos, List.length_cons]

/-- DECODE has touched nothing but its engine state, is poisoned or holds a candidate, and keeps the index at which that
candidate began (R189). -/
def StuckIn (s t : State) : Prop :=
  ∃ e : Engine, t = s.setEngine e ∧ e.start = s.engine.start ∧ (e.poison || e.buflen != 0#8) = true

theorem stuckIn_of_poisoned (path : List Bool) (s : State) (chars : List Byte) :
    StuckIn s (chars.foldl (fun t d => decodeItem d t) (advancePos (setPoison (holding path s)))) := by
  rw [foldl_decodeItem_of_poison rfl]
  exact ⟨_, rfl, rfl, rfl⟩

/-- DECODE gets stuck in an input that, with the labels read before, begins with no code: at its end, at a character that
is no bit, or at a bit beyond MAXLEN. -/
theorem stuckIn_foldl_decodeItem {s : State} (h : MappingOk s.mapping) (hpoison : s.engine.poison = false)
    {path : List Bool} {tail : List Byte} (hlen : path.length ≤ s.mapping.maxlen.toNat)
    (hne : path.map chr ++ tail ≠ []) (hnone : BeginsWithNoCode s.mapping (path.map chr ++ tail)) :
    StuckIn s (tail.foldl (fun t d => decodeItem d t) (holding path s)) := by
  have hlen' : (codeOf path).len.toNat = path.length := codeOf_len (by omega)
  induction tail generalizing s path with
  | nil =>
    have hpath : (codeOf path).len ≠ 0#8 := fun h0 => by
      rw [h0] at hlen'
      exact hne (by simpa using hlen'.symm)
    exact ⟨_, rfl, rfl, by simp [setCandidate, hpath]⟩
  | cons d tail ih =>
    rw [List.foldl_cons]
    cases hd : charBit d with
    | none =>
      have hitem := decodeItem_of_charBit_none (s := holding path s) hpoison hd
      rw [hitem]
      exact stuckIn_of_poisoned path s tail
    | some b =>
      by_cases hfull : path.length = s.mapping.maxlen.toNat
      · have hitem := decodeItem_of_full (s := holding path s) hpoison (BitVec.eq_of_toNat_eq (hlen'.trans hfull)) d
        rw [hitem]
        exact stuckIn_of_poisoned path s tail
      · obtain rfl := charBit_eq_some.mp hd
        have hroom : path.length < s.mapping.maxlen.toNat := by omega
        have hlen₁ : (path ++ [b]).length ≤ s.mapping.maxlen.toNat := by simpa using hroom
        have hinput : path.map chr ++ chr b :: tail = (path ++ [b]).map chr ++ tail := by simp
        rw [hinput] at hnone
        have hmiss : revLookup s.mapping (codeOf (path ++ [b])) = none := by
          refine Option.eq_none_iff_forall_ne_some.mpr fun x hx => ?_
          obtain ⟨c, hc, hpath⟩ := (h.revLookup_codeOf_eq_some_iff (by omega)).mp hx
          exact hnone x c hc ⟨tail, by rw [codeChars, hpath]⟩
        rw [decodeItem_holding_of_none hpoison hroom hmiss]
        exact ih (s := advancePos s) h hpoison hlen₁ (by simp) hnone (codeOf_len (by omega))

/-! ### The whole next state -/

theorem finishDecode_of_error {s : State} {pos : RegWord} (h : (s.engine.poison || s.engine.buflen != 0#8) = true)
    (hpos : s.engine.start = pos) : finishDecode s = (s.raise .malformedInput 0#32 pos).forgetEngine := by
  rw [finishDecode, endDecode, if_pos h, hpos]

theorem finishDecode_of_done {s : State} (h : (s.engine.poison || s.engine.buflen != 0#8) = false) :
    finishDecode s = s.respondOk.forgetEngine := by
  simp [finishDecode, endDecode, h]

/-- The input loop of DECODE starts with BUFLEN, BUF, POISON, START and POS 0 (R185). -/
def decoderStarted (s : State) : State :=
  s.setEngine { s.engine with buf := 0#255, buflen := 0#8, poison := false, start := 0#32, pos := 0#32 }

/-- DECODE over a complete frame: the loop over its items, then the end of DECODE (R185). -/
theorem execDecode_complete {s : State} {items : List Byte} {rest : List Beat}
    (h : takeFrame s.inp = some (items, rest)) (hvalid : s.mapping.valid = true) :
    exec .decode s =
      .next (finishDecode ((items.foldl (fun t d => decodeItem d t) (decoderStarted s)).setInp rest)) :=
  (execDecode_valid hvalid).trans (overFrame_complete decodeItem finishDecode (s := decoderStarted s) h)

section

variable {s : State} {syms : List Symbol} {rest : List Beat} (hok : MappingOk s.mapping)
  (hvalid : s.mapping.valid = true) (hpresent : ∀ a ∈ syms, (fwdLookup s.mapping a).isSome = true)

include hok hpresent

/-- DECODE starts between two codes, with the empty candidate. -/
theorem foldl_decoderStarted :
    (encodedChars s.mapping syms).foldl (fun t d => decodeItem d t) (decoderStarted s) =
      holding [] (decodedTo syms (encodedChars s.mapping syms).length (decoderStarted s)) :=
  foldl_decodeItem_of_codes (s := decoderStarted s) hok rfl rfl hpresent

include hvalid

/-- R188, R192. The engine state the loop has used is gone with the end of the command (R51). -/
theorem execDecode_of_codes (h : takeFrame s.inp = some (encodedChars s.mapping syms, rest)) :
    exec .decode s = .next ((s.pushItems syms).setInp rest).respondOk.forgetEngine := by
  rw [execDecode_complete h hvalid, foldl_decoderStarted hok hpresent, finishDecode_of_done rfl]
  rfl

/-- R189 to R191: behind the codes DECODE gets stuck, and START is where it was after the last code. -/
theorem execDecode_of_leftover {tail : List Byte} (hne : tail ≠ []) (hnone : BeginsWithNoCode s.mapping tail)
    (h : takeFrame s.inp = some (encodedChars s.mapping syms ++ tail, rest)) :
    exec .decode s =
      .next (((s.pushItems syms).setInp rest).raise .malformedInput 0#32
        (BitVec.ofNat 32 (encodedChars s.mapping syms).length)).forgetEngine := by
  obtain ⟨e, hstuck, hstart, herror⟩ := stuckIn_foldl_decodeItem
    (s := decodedTo syms (encodedChars s.mapping syms).length (decoderStarted s)) hok rfl (path := [])
    (Nat.zero_le _) hne hnone
  rw [execDecode_complete h hvalid, List.foldl_append, foldl_decoderStarted hok hpresent, hstuck,
    finishDecode_of_error herror (hstart.trans (BitVec.zero_add _))]
  rfl

end

/-- Settles O36: the next state of DECODE over codes (`execDecode_of_codes`). -/
theorem decodeEmitsSymbols : Obligations.DecodeEmitsSymbols := by
  intro s syms rest hok hvalid hpresent h
  exact ⟨_, execDecode_of_codes hok hvalid hpresent h, rfl, rfl, rfl, rfl, rfl, rfl⟩

/-- Settles O37: the next state of DECODE over codes and a leftover (`execDecode_of_leftover`). -/
theorem decodeReportsLeftover : Obligations.DecodeReportsLeftover := by
  intro s syms tail rest hok hvalid hpresent hne hnone h
  exact ⟨_, execDecode_of_leftover hok hvalid hpresent hne hnone h, rfl, rfl, rfl, rfl, rfl, rfl⟩

/-- Settles O39: with VALID = 0 the frame is drained and the command refused (`refuse_complete`). -/
theorem decodeRefusesWithoutMapping : Obligations.DecodeRefusesWithoutMapping := by
  intro s items rest h hvalid
  rw [execDecode_invalid hvalid]
  exact refuse_complete h

/-! ### What the result depends on (R195) -/

/-- All that DECODE reads of a state is equal: REV, MAXLEN and its own engine state (R34, R35). -/
structure ReadsAlike (s t : State) : Prop where
  rev : s.mapping.rev = t.mapping.rev
  maxlen : s.mapping.maxlen = t.mapping.maxlen
  engine : DecoderAgrees s.engine t.engine

/-- The two states have the same beats more in OUT than two states before. -/
def PushedAlike (s t u v : State) : Prop := ∃ pushed : List Beat, u.out = s.out ++ pushed ∧ v.out = t.out ++ pushed

theorem PushedAlike.trans {s t u v y z : State} (h : PushedAlike s t u v) (h' : PushedAlike u v y z) :
    PushedAlike s t y z := by
  obtain ⟨pushed, hu, hv⟩ := h
  obtain ⟨more, hy, hz⟩ := h'
  exact ⟨pushed ++ more, by rw [hy, hu, List.append_assoc], by rw [hz, hv, List.append_assoc]⟩

theorem ReadsAlike.revLookup_eq {s t : State} (h : ReadsAlike s t) (c : Code) :
    revLookup t.mapping c = revLookup s.mapping c := congrArg (revFind c) h.rev.symm

theorem ReadsAlike.candidate_eq {s t : State} (h : ReadsAlike s t) : candidate t.engine = candidate s.engine := by
  obtain ⟨hbuf, hbuflen, -⟩ := h.engine
  rw [candidate, ← hbuf, ← hbuflen, candidate]

/-- One character has the same effect in both (R185). -/
theorem ReadsAlike.item {s t : State} (h : ReadsAlike s t) (d : Byte) :
    ReadsAlike (decodeItem d s) (decodeItem d t) ∧ PushedAlike s t (decodeItem d s) (decodeItem d t) := by
  obtain ⟨hbuf, hbuflen, hpoison, hstart, hpos⟩ := h.engine
  have hnext : s.engine.pos + 1#32 = t.engine.pos + 1#32 := congrArg (· + 1#32) hpos
  have nothing_pushed : PushedAlike s t s t := ⟨[], (List.append_nil _).symm, (List.append_nil _).symm⟩
  obtain ⟨hp, hs⟩ | ⟨hp, hbad, hs⟩ | ⟨b, hp, hb, hroom, hlookup, hs⟩ | ⟨b, x, hp, hb, hroom, hlookup, hs⟩ :=
    decodeItem_cases d s
  · rw [hs, decodeItem_of_poison (hpoison ▸ hp)]
    exact ⟨⟨h.rev, h.maxlen, hbuf, hbuflen, hpoison, hstart, hnext⟩, nothing_pushed⟩
  · have ht : decodeItem d t = advancePos (setPoison t) := by
      obtain hbit | hfull := hbad
      · exact decodeItem_of_charBit_none (hpoison ▸ hp) hbit
      · exact decodeItem_of_full (hpoison ▸ hp) (by rw [← hbuflen, hfull, h.maxlen]) d
    rw [hs, ht]
    exact ⟨⟨h.rev, h.maxlen, hbuf, hbuflen, rfl, hstart, hnext⟩, nothing_pushed⟩
  all_goals
    have ht : decodeItem d t = advancePos (appendBit b t) :=
      decodeItem_of_bit (hpoison ▸ hp) hb (by rwa [← hbuflen, ← h.maxlen])
    rw [← h.candidate_eq, ← h.revLookup_eq] at hlookup
  · rw [hs, ht, appendBit_of_none hlookup, h.candidate_eq]
    exact ⟨⟨h.rev, h.maxlen, rfl, rfl, hpoison, hstart, hnext⟩, nothing_pushed⟩
  · rw [hs, ht, appendBit_of_some hlookup]
    exact ⟨⟨h.rev, h.maxlen, rfl, rfl, hpoison, hnext, hnext⟩, [itemBeat x], rfl, rfl⟩

theorem ReadsAlike.foldl {s t : State} (h : ReadsAlike s t) (items : List Byte) :
    ReadsAlike (items.foldl (fun u d => decodeItem d u) s) (items.foldl (fun u d => decodeItem d u) t) ∧
    PushedAlike s t (items.foldl (fun u d => decodeItem d u) s) (items.foldl (fun u d => decodeItem d u) t) := by
  induction items generalizing s t with
  | nil => exact ⟨h, [], (List.append_nil _).symm, (List.append_nil _).symm⟩
  | cons d items ih =>
    obtain ⟨hitem, hpushed⟩ := h.item d
    obtain ⟨hrest, hmore⟩ := ih hitem
    exact ⟨hrest, hpushed.trans hmore⟩

/-- Two commands have ended alike: the same beats more in OUT, and the same ERR, ERRINFO and ERRPOS. -/
def EndedAlike (s t u v : State) : Prop :=
  ∃ pushed : List Beat, u.out = s.out ++ pushed ∧ v.out = t.out ++ pushed ∧ u.status.err = v.status.err ∧
    u.status.errInfo = v.status.errInfo ∧ u.status.errPos = v.status.errPos

theorem PushedAlike.raise {s t u v : State} (h : PushedAlike s t u v) (c : ResultCode) (info pos : RegWord) :
    EndedAlike s t (u.raise c info pos) (v.raise c info pos) := by
  obtain ⟨pushed, hu, hv⟩ := h
  exact ⟨pushed ++ [responseBeat c], by simp [hu], by simp [hv], rfl, rfl, rfl⟩

/-- Both end with OK, or both with the same START in ERRPOS (R185, R189). -/
theorem ReadsAlike.finish {s t u v : State} (h : ReadsAlike u v) (hpushed : PushedAlike s t u v) :
    EndedAlike s t (finishDecode u) (finishDecode v) := by
  obtain ⟨-, hbuflen, hpoison, hstart, -⟩ := h.engine
  cases herror : u.engine.poison || u.engine.buflen != 0#8 with
  | true =>
    rw [finishDecode_of_error herror hstart, finishDecode_of_error (hpoison ▸ hbuflen ▸ herror) rfl]
    exact hpushed.raise .malformedInput 0#32 v.engine.start
  | false =>
    rw [finishDecode_of_done herror, finishDecode_of_done (hpoison ▸ hbuflen ▸ herror)]
    exact hpushed.raise .ok 0#32 0#32

/-- Settles O41: with a mapping every character has the same effect in both runs (`ReadsAlike.foldl`), and so has the end
(`ReadsAlike.finish`); without one both refuse. -/
theorem decodeIsStateless : Obligations.DecodeIsStateless := by
  intro s t u v items r q hvalid hrev hmaxlen hs ht hu hv
  cases hm : s.mapping.valid with
  | true =>
    rw [execDecode_complete hs hm] at hu
    rw [execDecode_complete ht (hvalid ▸ hm)] at hv
    obtain rfl := Host.Outcome.next.inj hu
    obtain rfl := Host.Outcome.next.inj hv
    have hstarted : ReadsAlike (decoderStarted s) (decoderStarted t) := ⟨hrev, hmaxlen, rfl, rfl, rfl, rfl, rfl⟩
    obtain ⟨hread, hpushed⟩ := hstarted.foldl items
    exact ReadsAlike.finish ⟨hread.rev, hread.maxlen, hread.engine⟩ hpushed
  | false =>
    rw [execDecode_invalid hm, refuse_complete hs] at hu
    rw [execDecode_invalid (hvalid ▸ hm), refuse_complete ht] at hv
    obtain rfl := Host.Outcome.next.inj hu
    obtain rfl := Host.Outcome.next.inj hv
    exact ⟨[responseBeat .emptyInput], rfl, rfl, rfl, rfl, rfl⟩

/-! ### The round trip (R194) -/

/-- Settles O42: BUILD maps exactly the symbols of its input by a mapping that meets R32 (`execBuild_of_fits`), so ENCODE
finds every code (`execEncode_of_present`), and DECODE reads these codes back (`execDecode_of_codes`). -/
theorem roundTrip : Obligations.RoundTrip := by
  intro s items rest h hne hlen
  obtain ⟨x, hmaps, hbuild⟩ := execBuild_of_fits h hne hlen
  refine ⟨_, hbuild, rfl, fun u seq r hu hseq hframe => ?_⟩
  replace hu : u.mapping = inputMapping items := hu
  have hpresent : ∀ a ∈ seq, (fwdLookup (inputMapping items) a).isSome = true := fun a ha =>
    (hmaps.present a).mpr (hseq a ha)
  refine ⟨_, encodedChars u.mapping seq, execEncode_of_present hframe (hu ▸ hmaps.valid) (hu ▸ hpresent), rfl, hu, rfl,
    fun w q hw hchars => ?_⟩
  replace hw : w.mapping = inputMapping items := hw.trans hu
  rw [hu, ← hw] at hchars
  rw [← hw] at hpresent
  exact ⟨_, execDecode_of_codes (hw ▸ hmaps.ok) (hw ▸ hmaps.valid) hpresent hchars, rfl, rfl⟩

end Sys2Proof.Machine
end

section
/-! PROOFS. The family 45_codes.md: the records CODES sends, in ascending order (R205 to R207), what it sends of the empty
mapping (R208), and the number and size of the records (R209). -/

namespace Sys2Proof.Machine

/-! ### One record (R206) -/

/-- The record CODES sends for symbol a, through FWD. -/
def symbolRecord (m : Mapping) (a : Symbol) : List Byte :=
  a :: ((fwdLookup m a).map Code.len).getD 0#8 :: symbolChars m a

theorem symbolRecord_of_some {m : Mapping} {a : Symbol} {c : Code} (h : fwdLookup m a = some c) :
    symbolRecord m a = codeRecord a c := by
  simp [symbolRecord, symbolChars, codeRecord, h]

theorem length_symbolRecord (m : Mapping) (a : Symbol) :
    (symbolRecord m a).length = 2 + ((fwdLookup m a).map fun c => c.len.toNat).getD 0 := by
  simp only [symbolRecord, List.length_cons, length_symbolChars]
  omega

/-! ### All records (R205, R207) -/

/-- FWD as a list: the entries of all symbols in ascending order (R61). -/
theorem fwd_toList (m : Mapping) : m.fwd.toList = (List.range' 0 256).map fun j => fwdLookup m (BitVec.ofNat 8 j) := by
  refine List.ext_getElem (by simp) fun j hj _ => ?_
  have hlt : j < 256 := by simpa using hj
  simp [fwdLookup, symIdx, Vector.get_eq_getElem, Nat.mod_eq_of_lt hlt]

/-- The records of n entries of FWD from symbol i on: an entry that is not present sends nothing. -/
theorem recordsFrom_fwdLookup (m : Mapping) (i n : Nat) :
    recordsFrom i ((List.range' i n).map fun j => fwdLookup m (BitVec.ofNat 8 j)) =
      (((List.range' i n).map (BitVec.ofNat 8)).filter fun a => (fwdLookup m a).isSome).flatMap (symbolRecord m) := by
  induction n generalizing i with
  | zero => rfl
  | succ n ih =>
    cases h : fwdLookup m (BitVec.ofNat 8 i) with
    | none => simpa [List.range'_succ, recordsFrom, h] using ih (i + 1)
    | some c => simpa [List.range'_succ, recordsFrom, h, symbolRecord_of_some h] using ih (i + 1)

theorem codesItems_eq_flatMap (m : Mapping) : codesItems m = (presentSymbols m).flatMap (symbolRecord m) := by
  rw [codesItems, fwd_toList, recordsFrom_fwdLookup, presentSymbols, allSymbols, List.range_eq_range']

/-! ### CODES as a whole -/

/-- The state CODES leaves: the items pushed, then the response beat, and the status of OK (R205, R223). -/
theorem exec_codes (s : State) : exec .codes s = .next { s with
    out := s.out ++ (codesItems s.mapping).map itemBeat ++ [⟨true, 0x00#8⟩]
    status := { s.status with busy := false, err := .ok, errInfo := 0#32, errPos := 0#32 } } := rfl

/-- VALID = 0 means that no symbol has a code (R32). -/
theorem MappingOk.presentSymbols_eq_nil {m : Mapping} (h : MappingOk m) (hv : m.valid = false) :
    presentSymbols m = [] := by
  obtain ⟨hnsym, -, -⟩ := h.zeroWhenInvalid hv
  exact List.length_eq_zero_iff.mp (by rw [← h.nsymCounts, hnsym]; rfl)

theorem length_codesItems (m : Mapping) :
    (codesItems m).length = 2 * (presentSymbols m).length +
      ((presentSymbols m).map fun a => ((fwdLookup m a).map fun c => c.len.toNat).getD 0).sum := by
  rw [codesItems_eq_flatMap, List.length_flatMap]
  simp only [length_symbolRecord, List.sum_map_add, List.map_const', List.sum_replicate, smul_eq_mul]
  rw [Nat.mul_comm]

/-! ### The obligations -/

/-- Settles O43: CODES pushes its items and ends with OK (`exec_codes`), and the items are the records of the present
symbols in ascending order (`codesItems_eq_flatMap`). -/
theorem codesReadsOutRecords : Obligations.CodesReadsOutRecords := by
  intro s
  rw [exec_codes, codesItems_eq_flatMap]
  rfl

/-- Settles O44: with VALID = 0 no symbol is present, so no record is sent. -/
theorem codesOfEmptyMapping : Obligations.CodesOfEmptyMapping := by
  intro s hok hvalid
  have hitems : codesItems s.mapping = [] := by
    rw [codesItems_eq_flatMap, hok.presentSymbols_eq_nil hvalid, List.flatMap_nil]
  rw [exec_codes, hitems, List.map_nil, List.append_nil]

/-- Settles O45: NSYM counts the present symbols (R32), and each sends two bytes and its characters
(`length_symbolRecord`). -/
theorem codesResultSize : Obligations.CodesResultSize := by
  intro s hok
  rw [hok.nsymCounts]
  exact ⟨rfl, length_codesItems s.mapping⟩

end Sys2Proof.Machine
end

section
/-! PROOFS. The family 60_exceptions.md: no state that meets the invariant locks up (R233, R263), and what respond OK and
raise write (R220, R223, R224). -/

namespace Sys2Proof.Machine

/-- Settles O10: a popped word always answers a next state (`runWord_next`), and so does a waiting command with a beat
to pop, for under the invariant it is one that takes input (`Inv.op_of_busy`). -/
theorem noLockUp : Obligations.NoLockUp := by
  intro s hs
  constructor
  · intro hidle hcmd
    obtain ⟨w, rest, hword⟩ := List.exists_cons_of_ne_nil hcmd
    rw [step_of_word hidle hword]
    exact runWord_next w _
  · intro hbusy hinp
    rw [step_of_busy hbusy hinp]
    exact continueCommand_next (hs.op_of_busy hbusy)

/-- The whole state the end of a command leaves: its response pushed, ERR, ERRINFO, ERRPOS and BUSY written (R36, R87). -/
theorem State.endCommand_eq (s : State) (c : ResultCode) (info pos : RegWord) :
    s.endCommand c info pos = { s with
      out := s.out ++ [responseBeat c]
      status := { s.status with busy := false, err := c, errInfo := info, errPos := pos } } := rfl

/-- The number each result code's response carries (R220). -/
theorem responseBeat_of_mem {e : ResultCode × Byte}
    (h : e ∈ [(.ok, 0x00#8), (.emptyInput, 0x01#8), (.lookup, 0x02#8), (.malformedInput, 0x03#8),
      (.illegalCommand, 0x04#8), (.capacity, 0x05#8)]) : responseBeat e.1 = ⟨true, e.2⟩ := by
  revert e
  decide

/-- Settles O46: both are the end of a command (`State.endCommand_eq`), with the response beat of R220's table
(`responseBeat_of_mem`). -/
theorem raiseAndRespondWrite : Obligations.RaiseAndRespondWrite := by
  intro s info pos
  constructor
  · rw [State.respondOk, State.endCommand_eq, responseBeat_of_mem (e := (.ok, 0x00#8)) (by decide)]
  · intro e he
    rw [State.raise, State.endCommand_eq, responseBeat_of_mem (List.mem_cons_of_mem _ he)]

end Sys2Proof.Machine
end
